-- ==== Sys2Proof/Word.lean ====
section
/-! DEFINITION. The word types of HUFF (R7, R13, R23): 32-bit registers and addresses, 8-bit bytes and symbols. -/

namespace Sys2Proof

/-- A register value, a data-memory address, a count or a weight: 32 bits, unsigned (R7, R23). -/
abbrev Word := BitVec 32

/-- A byte of data memory, or a Symbol: one byte value 0 to 255 (R11). -/
abbrev Byte := BitVec 8

/-- A 64-bit quantity held in a `_LO`/`_HI` register pair (R31 to R33, R73). -/
abbrev DWord := BitVec 64

/-- The index of a node of the arena: 9 bits (R38). -/
abbrev NodeIndex := BitVec 9

end Sys2Proof
end

