-- ==== Sys2Proof/Config.lean ====
section
/-! DEFINITION. The implementation parameters of R6: those the spec fixes, as constants; those it leaves OPEN, as the
record `Platform`, which a state carries and no step changes; and the free values of R134, R341 and R82 (d). -/

namespace Sys2Proof

/-- MAX_NODES = 2·256 − 1 slots of the tree arena (R6, R38). -/
def Config.maxNodes : Nat := 511

/-- REG_SPAN: the register block decodes offsets 0x0000 to 0x4FFF (R6, R44). -/
def Config.regSpan : Nat := 0x5000

/-- ID_VALUE, ASCII "HUF1" (R2, R6, R25). -/
def Config.idValue : Word := 0x48554631

/-- The parameters R6 marks OPEN, and the platform facts the rules take as premises. RESET_SOURCE is not here: reset
is a move of the host's (`HostOp.assertReset`).
`devices` lists the ranges (start, length) of data memory that are not idempotent memory (R72, U4). -/
structure Platform where
  /-- MEM_SIZE: data memory has the addresses 0 to memSize − 1 (R6, R70). -/
  memSize : Nat
  /-- REG_BASE: where the platform places the register block in the host's address space (R6, R80). -/
  regBase : Nat
  /-- IRQ_LINE: which platform interrupt line irq drives (R6, R311). -/
  irqLine : Nat
  /-- PLATFORM_COHERENT: host and engine see one coherent data memory (R6, R83). -/
  coherent : Bool
  /-- The ranges of data memory where a read has side effects or does not return the last value written (R72, U4). -/
  devices : List (Nat × Nat)
deriving DecidableEq, Repr

/-- The platform the test vectors assume (95_test_vectors.md, Conventions: MEM_SIZE = 0x10000), with register offsets
counted from address 0. DESIGN CHOICE for `State.reset` alone (notes/assumptions/1.md): the parameters stay OPEN, and
every statement holds for every platform. -/
def Platform.vectors : Platform :=
  { memSize := 0x10000, regBase := 0, irqLine := 0, coherent := true, devices := [] }

/-- A free value (no body: nothing can be proved of it): the k-th draw of a register read that R134 leaves
unspecified while BUSY = 1 (U2; notes/assumptions/5.md). -/
opaque Config.freeWord : Nat → Word

/-- A free value (no body): the k-th draw of a byte of data memory, be it of the write range of a command that reset
abandoned (R341, U5; notes/assumptions/7.md) or of a host access outside the contract of R72 and R83
(notes/assumptions/21.md). -/
opaque Config.freeByte : Nat → Byte

end Sys2Proof
end

