-- ==== Sys2Proof/Syntax.lean ====
section
/-! DEFINITION. The syntax of HUFF: the eight commands (R102), the names of the register map (R24), and the host's
moves (R106, R140), which stand where a processor has a program. -/

namespace Sys2Proof

/-- The eight commands of HUFF-CMD version 1, one constructor per row of opcode_table.json (R102). A command word holds
no operand field and no immediate (R101), so no constructor has an argument. -/
inductive Instr where
  | count
  | build
  | generate
  | setup
  | encode
  | bitlen
  | decode
  | clear
deriving DecidableEq, Repr

/-- The rows of the register map (R24). `reserved` stands for every reserved offset (R44). -/
inductive Reg where
  | id
  | cmd
  | status
  | ctrl
  | srcAddr
  | srcLen
  | dstAddr
  | dstCap
  | bitcntLo
  | bitcntHi
  | resBitsLo
  | resBitsHi
  | resBytes
  | errInfoLo
  | errInfoHi
  | errSym
  | total
  | nsym
  | nnodes
  | root
  | freq (s : Byte)
  | codeLen (s : Byte)
  | codeBits (s : Byte) (j : Fin 8)
  | nodeA (i : Fin 511)
  | nodeW (i : Fin 511)
  | reserved
deriving DecidableEq, Repr

/-- The 64-bit quantities held in a `_LO`/`_HI` register pair (R73, R87). -/
inductive RegPair where
  | bitcnt
  | resBits
  | errInfo
deriving DecidableEq, Repr

/-- The width of a host access to the register block. Only `word` has a meaning (R130). -/
inductive AccessWidth where
  | byte
  | half
  | word
  | double
deriving DecidableEq, Repr

/-- One move of the host (R106, R140). A register access names an address of the host's space, REG_BASE + offset
(R130); a data-memory access names one byte (R82, R84). -/
inductive HostOp where
  /-- `RD`: a read of the register block. -/
  | regRead (width : AccessWidth) (addr : Nat)
  /-- `WR`, `CMD`, `CMDW`: a write to the register block. -/
  | regWrite (width : AccessWidth) (addr : Nat) (v : Word)
  /-- `WAIT`: `RD STATUS`, repeated until BUSY reads 0. -/
  | wait
  /-- The host reads one byte of data memory. -/
  | memRead (addr : Word)
  /-- The host writes one byte of data memory. -/
  | memWrite (addr : Word) (v : Byte)
  /-- The platform asserts the block's reset (R340, R341). -/
  | assertReset
deriving DecidableEq, Repr

/-- The two agents (R5, R20). -/
inductive Agent where
  | host
  | engine
deriving DecidableEq, Repr

end Sys2Proof
end

