-- ==== Sys2Proof/WellFormed.lean ====
section
/-! DEFINITION. Well-formedness: of a command, of a command word (R103), of the platform's parameters (R6), and of a
host program, whose register accesses are aligned 32-bit accesses inside the block (R130). -/

namespace Sys2Proof

/-- A command has no operand (R101), so every constructor is well-formed. -/
def Instr.wf (i : Instr) : Bool :=
  match i with
  | .count => true
  | .build => true
  | .generate => true
  | .setup => true
  | .encode => true
  | .bitlen => true
  | .decode => true
  | .clear => true

/-- R103: w is legal iff w[31:8] = 0 and 0x01 ≤ w[7:0] ≤ 0x08. -/
def wordLegal (w : Word) : Bool :=
  w.extractLsb' 8 24 == 0 && decide (1 ≤ (w.extractLsb' 0 8).toNat) && decide ((w.extractLsb' 0 8).toNat ≤ 8)

/-- R6: 1 ≤ MEM_SIZE ≤ 2^32. -/
def Platform.wf (p : Platform) : Bool :=
  decide (1 ≤ p.memSize) && decide (p.memSize ≤ 2 ^ 32)

/-- R130: an aligned 32-bit access at REG_BASE + offset with offset < REG_SPAN. -/
def Platform.registerAccessWf (p : Platform) (width : AccessWidth) (addr : Nat) : Bool :=
  width == .word && decide (p.regBase ≤ addr) && (addr - p.regBase) % 4 == 0
    && decide (addr - p.regBase < Config.regSpan)

/-- A host move the spec gives a meaning: R130 for the registers, R70 for data memory. -/
def HostOp.wf (p : Platform) : HostOp → Bool
  | .regRead width addr => p.registerAccessWf width addr
  | .regWrite width addr _ => p.registerAccessWf width addr
  | .wait => true
  | .memRead addr => decide (addr.toNat < p.memSize)
  | .memWrite addr _ => decide (addr.toNat < p.memSize)
  | .assertReset => true

/-- A host program all of whose moves are well-formed. -/
def hostProgramWf (p : Platform) (ops : List HostOp) : Bool :=
  ops.all (HostOp.wf p)

end Sys2Proof
end

