-- ==== Sys2Proof/Decode.lean ====
section
/-! DEFINITION. Decoding a command word (R100, R102, R103) and, after it, the encoder. Decoding is total: a word that is
not legal is rejected by the reason R104 gives. -/

namespace Sys2Proof

/-- The three kinds of illegal word of R104. -/
inductive IllegalWord where
  /-- A bit of RESERVED_MBZ, [31:8], is set. -/
  | reservedBits
  /-- Opcode 0x00, the reset value of CMD. -/
  | opcodeZero
  /-- Opcode 0x09 to 0xFF. -/
  | opcodeUnassigned
deriving DecidableEq, Repr

/-- OPCODE, bits [7:0] of a command word (R100). -/
def wordOpcode (w : Word) : Byte := w.extractLsb' 0 8

/-- RESERVED_MBZ, bits [31:8] of a command word (R100). -/
def wordReserved (w : Word) : BitVec 24 := w.extractLsb' 8 24

/-- The opcode map (R102). -/
def decodeOpcode (op : Byte) : Except IllegalWord Instr :=
  match op.toNat with
  | 0 => .error .opcodeZero
  | 1 => .ok .count
  | 2 => .ok .build
  | 3 => .ok .generate
  | 4 => .ok .setup
  | 5 => .ok .encode
  | 6 => .ok .bitlen
  | 7 => .ok .decode
  | 8 => .ok .clear
  | _ => .error .opcodeUnassigned

/-- The decode rule (R103, R104), total on every 32-bit word. -/
def decode (w : Word) : Except IllegalWord Instr :=
  if wordReserved w = 0 then decodeOpcode (wordOpcode w) else .error .reservedBits

/-- The opcode of a command (R102, column OPCODE). -/
def Instr.opcode (i : Instr) : Byte :=
  match i with
  | .count => 0x01
  | .build => 0x02
  | .generate => 0x03
  | .setup => 0x04
  | .encode => 0x05
  | .bitlen => 0x06
  | .decode => 0x07
  | .clear => 0x08

/-- The command word of a command: RESERVED_MBZ = 0 and the opcode in [7:0] (R100, R102). -/
def encode (i : Instr) : Word := (0 : BitVec 24) ++ i.opcode

/-- The command the decoder reads from the word whose bits are `w`, its low `nbits` bits counted. A command is one
32-bit word (R100), so a bit set above bit 31 names no command. -/
def decodeTableWord (nbits w : Nat) : Option Instr :=
  if w % 2 ^ nbits < 2 ^ 32 then
    match decode (BitVec.ofNat 32 (w % 2 ^ nbits)) with
    | .ok i => some i
    | .error _ => none
  else none

end Sys2Proof
end

