-- ==== Sys2Proof/Machine/State.lean ====
section
/-! DEFINITION. The state of HUFF as plain data (R5, R20), the error completions a command can raise (R300), and the
reasons a step of the model can stop. -/

namespace Sys2Proof.Machine

/-- Data memory (R70): a list of (address, byte) pairs in the canonical form `Memory.wf`. An address that is not
listed reads as `Memory.launchByte`. -/
abbrev Memory := List Host.Cell

/-- What an unlisted address reads as: 0x00, the convention of 95_test_vectors.md for launch memory. DESIGN CHOICE
(notes/assumptions/3.md); R71 leaves the launch contents to the host, who lists the bytes that are not 0x00. -/
def Memory.launchByte : Byte := 0

/-- The canonical form: addresses strictly rising, no entry equal to what an unlisted address reads as. -/
abbrev Memory.wf (m : Memory) : Prop :=
  m.Pairwise (fun c d => c.1 < d.1) ∧ ∀ c ∈ m, c.2 ≠ Memory.launchByte

/-- An array indexed by the 256 symbols: FREQ, CODE_LEN, CODE_VAL (R36, R42). -/
abbrev Table (α : Type) := Vector α 256

/-- A slot of the arena: one of two variants (R38). -/
inductive Node where
  | leaf (sym : Byte) (w : Word)
  | internal (left right : NodeIndex) (w : Word)
deriving DecidableEq, Repr

/-- What a slot holds that no command has filled: a reset slot (R47). A slot at or above NNODES is invalid, and nothing
reads it (R38, R41). -/
def Node.blank : Node := .leaf 0 0

/-- The arena NODE[0..510] (R38). -/
abbrev Arena := Vector Node 511

/-- The FrequencyTable: FREQ, TOTAL and NSYM (R35, R36). -/
structure FreqTable where
  freq : Table Word
  total : Word
  nsym : BitVec 9
deriving DecidableEq, Repr

/-- The CodeTree: NODE, NNODES and ROOT (R37, R38). -/
structure CodeTree where
  node : Arena
  nnodes : BitVec 10
  root : NodeIndex
deriving DecidableEq, Repr

/-- The CodeBook: CODE_LEN and CODE_VAL (R42). -/
structure CodeBook where
  len : Table (BitVec 8)
  val : Table (BitVec 255)
deriving DecidableEq, Repr

/-- The latched argument copy L (R34). -/
structure Latch where
  cmd : Word
  srcAddr : Word
  srcLen : Word
  dstAddr : Word
  dstCap : Word
  bitcnt : DWord
deriving DecidableEq, Repr

/-- What the host has read, in order: the values a host program names (R106). The model's own record. -/
inductive Observation where
  | reg (offset : Nat) (v : Word)
  | mem (addr : Word) (v : Byte)
deriving DecidableEq, Repr

/-- The five conditions of RangeError (R304). -/
inductive RangeDetail where
  | source
  | bitCount
  | capacity
  | destination
  | overlap
deriving DecidableEq, Repr

/-- The errors of R300, each with the detail it records. An error is a completion (R138), not a fault of the model. -/
inductive CmdError where
  /-- The index of the first source byte with no code, and that byte (R301). -/
  | unknownSymbol (index : Nat) (sym : Byte)
  /-- The bit index at which the unfinished codeword began (R302). -/
  | truncatedStream (start : Nat)
  /-- An absent tree under a non-empty payload (R302). -/
  | corruptTree
  /-- The latched word, which is not legal (R303). -/
  | illegalCommand (w : Word)
  /-- A range check that failed (R304). -/
  | range (detail : RangeDetail)
deriving DecidableEq, Repr

/-- The whole state. The first group is what the spec gives the block (R20, R24); `mem` is data memory; the last group
is the run: the platform's parameters (R6), the host's remaining program and the order in which the two agents move
(R139), what the host has read, and the count of free values drawn. -/
structure State where
  /-- CMD: the last command word accepted (R26). -/
  cmd : Word
  /-- STATUS.BUSY (R27). -/
  busy : Bool
  /-- STATUS.DONE (R27). -/
  done : Bool
  /-- STATUS.OVERRUN (R27). -/
  overrun : Bool
  /-- STATUS.ERR (R27, R300). -/
  err : BitVec 4
  /-- CTRL.IE (R28). -/
  ie : Bool
  /-- SRC_ADDR (R29). -/
  srcAddr : Word
  /-- SRC_LEN (R29). -/
  srcLen : Word
  /-- DST_ADDR (R30). -/
  dstAddr : Word
  /-- DST_CAP (R30). -/
  dstCap : Word
  /-- BITCNT_LO (R31). -/
  bitcntLo : Word
  /-- BITCNT_HI (R31). -/
  bitcntHi : Word
  /-- RES_BITS (R32). -/
  resBits : DWord
  /-- RES_BYTES (R32). -/
  resBytes : Word
  /-- ERR_INFO (R33). -/
  errInfo : DWord
  /-- ERR_SYM (R33). -/
  errSym : Byte
  /-- L (R34). -/
  latch : Latch
  /-- FREQ, TOTAL, NSYM (R35, R36). -/
  table : FreqTable
  /-- NODE, NNODES, ROOT (R37, R38). -/
  tree : CodeTree
  /-- CODE_LEN, CODE_VAL (R42). -/
  book : CodeBook
  /-- Data memory (R70). -/
  mem : Memory
  /-- The OPEN parameters (R6). -/
  platform : Platform
  /-- The host's moves still to come (R106, R139). -/
  host : List HostOp
  /-- Which agent moves next (R139); when empty, the engine moves while BUSY = 1, else the host. -/
  turns : List Agent
  /-- What the host has read. -/
  reads : List Observation
  /-- How many free values have been drawn. -/
  draws : Nat
deriving DecidableEq, Repr

/-- The reasons the model stops with a fault. -/
inductive Fault where
  /-- HOST_BUFFER_RACE (R82 (c), U3): the host touched a byte of the running command's read or write range. Raised by a
  host access to data memory while BUSY = 1. Safe: the spec leaves the results unspecified and asks for this fault. -/
  | hostBufferRace
deriving DecidableEq, Repr

/-- The reasons the model has no meaning for a move. -/
inductive Refusal where
  /-- An instruction whose arm has no meaning yet; raised by `exec` alone. Safe. -/
  | notModelled (mnemonic : String)
  /-- A register access that is not 32 bits wide (R130, U1); raised by a host move. Safe. -/
  | registerAccessWidth
  /-- A register access that is not aligned (R130, U1); raised by a host move. Safe. -/
  | registerAccessMisaligned
  /-- A register access outside REG_BASE .. REG_BASE + REG_SPAN − 1, which is the platform's (R44, R130, U1); raised by
  a host move. Safe. -/
  | outsideRegisterBlock
  /-- A host access to a data-memory address at or above MEM_SIZE, which is the platform's (R70, R80); raised by a host
  move. Safe. -/
  | outsideDataMemory
  /-- A buffer in memory that is not idempotent (R72, U4); raised by a command. Safe. -/
  | deviceMemory
  /-- A buffer on a platform without PLATFORM_COHERENT (R83, U15); raised by a command. Safe. -/
  | platformIncoherent
deriving DecidableEq, Repr

/-- The empty FrequencyTable (R47). -/
def FreqTable.empty : FreqTable := { freq := Vector.replicate 256 0, total := 0, nsym := 0 }

/-- The absent tree: NNODES = 0, every slot invalid (R37, R47). -/
def CodeTree.absent : CodeTree := { node := Vector.replicate 511 Node.blank, nnodes := 0, root := 0 }

/-- The empty codebook (R42, R47). -/
def CodeBook.empty : CodeBook := { len := Vector.replicate 256 0, val := Vector.replicate 256 0 }

/-- L after reset. The spec leaves it unspecified and says no command reads it before an issue writes it (R34, R47,
U8); zero is a DESIGN CHOICE (notes/assumptions/4.md). -/
def Latch.atReset : Latch := { cmd := 0, srcAddr := 0, srcLen := 0, dstAddr := 0, dstCap := 0, bitcnt := 0 }

/-- The machine right after reset (R340, R47) on the platform `p` with launch memory `m`, with no host program. -/
def State.resetOn (p : Platform) (m : Memory) : State :=
  { cmd := 0, busy := false, done := false, overrun := false, err := 0, ie := false,
    srcAddr := 0, srcLen := 0, dstAddr := 0, dstCap := 0, bitcntLo := 0, bitcntHi := 0,
    resBits := 0, resBytes := 0, errInfo := 0, errSym := 0, latch := Latch.atReset,
    table := FreqTable.empty, tree := CodeTree.absent, book := CodeBook.empty,
    mem := m, platform := p, host := [], turns := [], reads := [], draws := 0 }

/-- The machine right after reset, memory with nothing listed, on the platform of the test vectors. -/
def State.reset : State := State.resetOn Platform.vectors []

end Sys2Proof.Machine
end

