-- ==== Sys2Proof/Machine/Ops.lean ====
section
/-! DEFINITION. The named operations over memory, tables and the arena, and the life of a command that all eight share:
issue (R132), overrun (R133), success completion (R137) and error completion (R138), the latter being how HUFF takes an
exception (R315). There is no return from one (R316): the next issue resets ERR. -/

namespace Sys2Proof.Machine

/-! ### Data memory -/

/-- `MemRead(a, 1)` (R9, R72). -/
def Memory.read : Memory → Nat → Byte
  | [], _ => Memory.launchByte
  | c :: m, a => if c.1 = a then c.2 else Memory.read m a

/-- A cell put into a memory in canonical form, and none when it equals what an unlisted address reads as. -/
def Memory.cons (a : Nat) (v : Byte) (m : Memory) : Memory :=
  if v = Memory.launchByte then m else (a, v) :: m

/-- `MemWrite(a, 1, v)` (R9, R72), keeping the canonical form. -/
def Memory.write : Memory → Nat → Byte → Memory
  | [], a, v => Memory.cons a v []
  | c :: m, a, v =>
    if a < c.1 then Memory.cons a v (c :: m)
    else if a = c.1 then Memory.cons a v m
    else c :: Memory.write m a v

/-- The bytes a, a + 1, …, a + n − 1, in address order (R73). -/
def Memory.readBytes (m : Memory) (a n : Nat) : List Byte :=
  (List.range n).map fun i => m.read (a + i)

/-- The bytes written at a, a + 1, …, in address order (R73, R79). -/
def Memory.writeBytes (m : Memory) (a : Nat) : List Byte → Memory
  | [] => m
  | v :: vs => Memory.writeBytes (m.write a v) (a + 1) vs

/-! ### Tables and the arena -/

/-- The 256 symbols in ascending order. -/
def allSymbols : List Byte := (List.range 256).map (BitVec.ofNat 8)

theorem allSymbols_length : allSymbols.length = 256 := by simp [allSymbols]

/-- The entry of symbol `s`. -/
def Table.look {α : Type} (t : Table α) (s : Byte) : α := t[s.toNat]'s.isLt

/-- The entry of symbol `s` replaced. -/
def Table.put {α : Type} (t : Table α) (s : Byte) (v : α) : Table α := t.set s.toNat v s.isLt

theorem padded_length (nodes : List Node) :
    ((nodes ++ List.replicate 511 Node.blank).take 511).length = 511 := by
  rw [List.length_take, List.length_append, List.length_replicate]
  omega

/-- The slots 0 .. 510 filled from a list of nodes, the others blank. -/
def Arena.ofNodes (nodes : List Node) : Arena :=
  ⟨((nodes ++ List.replicate 511 Node.blank).take 511).toArray, padded_length nodes⟩

/-- `NODE[i]`. An index names one of the 511 slots; 511 names none and reads as a blank slot. -/
def Arena.slot (t : Arena) (i : Nat) : Node := if h : i < 511 then t[i] else Node.blank

/-- The weight of a node (R38). -/
def Node.weight : Node → Word
  | .leaf _ w => w
  | .internal _ _ w => w

/-! ### Error codes (R300, R304) -/

/-- The detail code of a RangeError (R304). -/
def RangeDetail.code : RangeDetail → Nat
  | .source => 1
  | .bitCount => 2
  | .capacity => 3
  | .destination => 4
  | .overlap => 5

/-- The code of an error in STATUS.ERR (R300). -/
def CmdError.code : CmdError → BitVec 4
  | .unknownSymbol _ _ => 1
  | .truncatedStream _ => 2
  | .corruptTree => 3
  | .illegalCommand _ => 4
  | .range _ => 5

/-- What the error records in ERR_INFO (R300). -/
def CmdError.info : CmdError → DWord
  | .unknownSymbol i _ => BitVec.ofNat 64 i
  | .truncatedStream start => BitVec.ofNat 64 start
  | .corruptTree => 0
  | .illegalCommand w => w.setWidth 64
  | .range d => BitVec.ofNat 64 d.code

/-- What the error records in ERR_SYM (R300). -/
def CmdError.sym : CmdError → Byte
  | .unknownSymbol _ s => s
  | .truncatedStream _ => 0
  | .corruptTree => 0
  | .illegalCommand _ => 0
  | .range _ => 0

/-! ### Issue, overrun and completion -/

/-- BITCNT = BITCNT_HI·2^32 + BITCNT_LO (R31). -/
def State.bitcnt (s : State) : DWord := s.bitcntHi ++ s.bitcntLo

/-- Issue of the word `w` (R132), as one indivisible update. -/
def State.issue (s : State) (w : Word) : State :=
  { s with
    cmd := w
    latch := { cmd := w, srcAddr := s.srcAddr, srcLen := s.srcLen, dstAddr := s.dstAddr, dstCap := s.dstCap,
               bitcnt := s.bitcnt }
    busy := true
    done := false
    err := 0 }

/-- A CMD write while BUSY = 1 is dropped (R133). -/
def State.dropCommand (s : State) : State := { s with overrun := true }

/-- A host write of `w` to CMD: issue while BUSY = 0 (R132), else overrun (R133). -/
def State.writeCommand (s : State) (w : Word) : State := if s.busy then s.dropCommand else s.issue w

/-- Success completion (R137), after the command's own writes: RES_BITS and RES_BYTES as the command sets them. -/
def State.succeed (s : State) (resBits resBytes : Nat) : State :=
  { s with
    resBits := BitVec.ofNat 64 resBits
    resBytes := BitVec.ofNat 32 resBytes
    errInfo := 0
    errSym := 0
    err := 0
    busy := false
    done := true }

/-- Error completion, `raise E(info, sym)` (R138, R315): the state at issue plus the error record. -/
def State.raise (s : State) (e : CmdError) : State :=
  { s with
    resBits := 0
    resBytes := 0
    errInfo := e.info
    errSym := e.sym
    err := e.code
    busy := false
    done := true }

/-! ### The plan of a command: its checks in order (R310), then its writes -/

/-- Why a command's body stops before its end: it raises an error of the spec's, or it reaches memory outside the
contract of R72 and R83. -/
inductive Stop where
  | raised (e : CmdError)
  | refuse (r : Refusal)
deriving DecidableEq, Repr

/-- What a command that raises nothing leaves: the state with its own writes, and its RES_BITS and RES_BYTES. -/
structure Done where
  state : State
  resBits : Nat
  resBytes : Nat
deriving DecidableEq, Repr

/-- `if not c: raise e`. -/
def require (c : Bool) (e : CmdError) : Except Stop Unit := if c then .ok () else .error (.raised e)

/-- The end of the engine step (R135): a completion, or the refusal of a buffer outside the contract. -/
def State.finish (s : State) (p : Except Stop Done) : Host.Outcome State Fault Refusal :=
  match p with
  | .ok d => .next (d.state.succeed d.resBits d.resBytes)
  | .error (.raised e) => .next (s.raise e)
  | .error (.refuse r) => .refused r

end Sys2Proof.Machine
end

