-- ==== Sys2Proof/Machine/Operands.lean ====
section
/-! DEFINITION. The operands of the commands: the latched arguments (R34, R101), the range checks (R76, R77), the source
and destination buffers, the payload bits (R74), and the places of the register map (R24). -/

namespace Sys2Proof

namespace Machine

/-! ### Ranges (R76), over unbounded integers -/

/-- InRange(a, n) on a data memory of `memSize` bytes. -/
def inRange (memSize a n : Nat) : Bool := n == 0 || decide (a + n ≤ memSize)

/-- Overlap(a1, n1, a2, n2). -/
def overlap (a1 n1 a2 n2 : Nat) : Bool :=
  decide (0 < n1) && decide (0 < n2) && decide (a1 < a2 + n2) && decide (a2 < a1 + n1)

/-- `ceil_div(a, 8)` (R8): the bytes that hold `a` bits. -/
def bytesFor (a : Nat) : Nat := (a + 7) / 8

/-- No byte of [a, a + n) lies in memory that is not idempotent (R72). -/
def ordinaryRange (devices : List (Nat × Nat)) (a n : Nat) : Bool :=
  devices.all fun d => !overlap a n d.1 d.2

end Machine

open Machine

/-- The buffer [a, a + n) is inside the contract of R72 and R83: it has no byte, or host and engine see one coherent
memory and none of its bytes lies on a device. -/
def Platform.usable (p : Platform) (a n : Nat) : Bool :=
  n == 0 || (p.coherent && ordinaryRange p.devices a n)

/-- The name of the refusal of a buffer outside the contract: R83 where the platform is not coherent, else R72. -/
def Platform.refusal (p : Platform) : Refusal := if p.coherent then .deviceMemory else .platformIncoherent

/-- A command's access to the buffer [a, a + n): refused outside the contract of R72 and R83. -/
def Platform.access (p : Platform) (a n : Nat) : Except Stop Unit :=
  if p.usable a n then .ok () else .error (.refuse p.refusal)

namespace Machine

/-! ### The latched arguments (R34), as integers -/

/-- L.SRC_ADDR. -/
def State.src (s : State) : Nat := s.latch.srcAddr.toNat

/-- L.SRC_LEN. -/
def State.srcCount (s : State) : Nat := s.latch.srcLen.toNat

/-- L.DST_ADDR. -/
def State.dst (s : State) : Nat := s.latch.dstAddr.toNat

/-- L.DST_CAP. -/
def State.capacity (s : State) : Nat := s.latch.dstCap.toNat

/-- L.BITCNT, the N of DECODE. -/
def State.bitCount (s : State) : Nat := s.latch.bitcnt.toNat

/-- The bytes [L.SRC_ADDR, L.SRC_ADDR + L.SRC_LEN), as COUNT, SETUP, ENCODE and BITLEN read them (R77). -/
def State.sourceData (s : State) : List Byte := s.mem.readBytes s.src s.srcCount

/-- The source buffer after its range check (R76, R304 detail 1). -/
def State.sourceBytes (s : State) : Except Stop (List Byte) := do
  require (inRange s.platform.memSize s.src s.srcCount) (.range .source)
  s.platform.access s.src s.srcCount
  return s.sourceData

/-- The checks of the destination, in the order of R310: capacity, range, overlap with the `n` bytes read at `a`. -/
def State.checkDestination (s : State) (a n nb : Nat) : Except Stop Unit := do
  require (decide (nb ≤ s.capacity)) (.range .capacity)
  require (inRange s.platform.memSize s.dst nb) (.range .destination)
  require (!overlap a n s.dst nb) (.range .overlap)
  s.platform.access s.dst nb

/-! ### Payload bits (R74) -/

/-- `PayloadBit(a, t)`: bit 7 − (t mod 8) of byte t div 8. -/
def Memory.payloadBit (m : Memory) (a t : Nat) : Bool := (m.read (a + t / 8)).getLsbD (7 - t % 8)

/-- Payload bits 0 .. n − 1. -/
def Memory.payloadBits (m : Memory) (a n : Nat) : List Bool := (List.range n).map (m.payloadBit a)

/-- A bit string read as a most-significant-bit-first binary number (R42). -/
def bitsValue (bits : List Bool) : Nat := bits.foldl (fun v b => 2 * v + b.toNat) 0

/-- `PackByte(bits, N, j)` with N = len(bits): byte j of the payload, PAD_VALUE 0 past the last bit. -/
def packByte (bits : List Bool) (j : Nat) : Byte :=
  BitVec.ofNat 8 (bitsValue ((List.range 8).map fun m => bits.getD (8 * j + m) false))

/-- The packed payload: ceil_div(N, 8) bytes. -/
def packBits (bits : List Bool) : List Byte := (List.range (bytesFor bits.length)).map (packByte bits)

/-! ### The register map (R24) -/

/-- Words 0 to 19 of the map. -/
def controlRegAt (k : Nat) : Reg :=
  match k with
  | 0 => .id
  | 1 => .cmd
  | 2 => .status
  | 3 => .ctrl
  | 4 => .srcAddr
  | 5 => .srcLen
  | 6 => .dstAddr
  | 7 => .dstCap
  | 8 => .bitcntLo
  | 9 => .bitcntHi
  | 10 => .resBitsLo
  | 11 => .resBitsHi
  | 12 => .resBytes
  | 13 => .errInfoLo
  | 14 => .errInfoHi
  | 15 => .errSym
  | 16 => .total
  | 17 => .nsym
  | 18 => .nnodes
  | 19 => .root
  | _ => .reserved

/-- The node window (R40): two words a slot, 511 slots; the last two words are reserved (R44). -/
def nodeRegAt (o : Nat) : Reg :=
  if h : o / 8 < 511 then
    if o % 8 = 0 then .nodeA ⟨o / 8, h⟩ else .nodeW ⟨o / 8, h⟩
  else .reserved

/-- The register at the aligned offset `o` < REG_SPAN (R24, R44). -/
def regAt (o : Nat) : Reg :=
  if o < 0x400 then controlRegAt (o / 4)
  else if o < 0x800 then .freq (BitVec.ofNat 8 ((o - 0x400) / 4))
  else if o < 0xC00 then .codeLen (BitVec.ofNat 8 ((o - 0x800) / 4))
  else if o < 0x1000 then .reserved
  else if o < 0x3000 then .codeBits (BitVec.ofNat 8 ((o - 0x1000) / 32)) (Fin.ofNat 8 ((o - 0x1000) / 4))
  else if o < 0x4000 then .reserved
  else nodeRegAt (o - 0x4000)

end Machine

/-- The offset of a register (R24). A reserved offset is named by its first (R44). -/
def Reg.offset (r : Reg) : Nat :=
  match r with
  | .id => 0x000
  | .cmd => 0x004
  | .status => 0x008
  | .ctrl => 0x00C
  | .srcAddr => 0x010
  | .srcLen => 0x014
  | .dstAddr => 0x018
  | .dstCap => 0x01C
  | .bitcntLo => 0x020
  | .bitcntHi => 0x024
  | .resBitsLo => 0x028
  | .resBitsHi => 0x02C
  | .resBytes => 0x030
  | .errInfoLo => 0x034
  | .errInfoHi => 0x038
  | .errSym => 0x03C
  | .total => 0x040
  | .nsym => 0x044
  | .nnodes => 0x048
  | .root => 0x04C
  | .freq s => 0x400 + 4 * s.toNat
  | .codeLen s => 0x800 + 4 * s.toNat
  | .codeBits s j => 0x1000 + 32 * s.toNat + 4 * j.val
  | .nodeA i => 0x4000 + 8 * i.val
  | .nodeW i => 0x4004 + 8 * i.val
  | .reserved => 0x050

/-- The `_LO` word of a pair (R24). -/
def RegPair.lo (pair : RegPair) : Reg :=
  match pair with
  | .bitcnt => .bitcntLo
  | .resBits => .resBitsLo
  | .errInfo => .errInfoLo

/-- The `_HI` word of a pair, at offset + 4 (R73). -/
def RegPair.hi (pair : RegPair) : Reg :=
  match pair with
  | .bitcnt => .bitcntHi
  | .resBits => .resBitsHi
  | .errInfo => .errInfoHi

/-- The register a host access reaches: a 32-bit access, aligned, inside the block (R130), or the reason it is
refused. -/
def Platform.register (p : Platform) (width : AccessWidth) (addr : Nat) : Except Refusal Nat :=
  match width with
  | .byte => .error .registerAccessWidth
  | .half => .error .registerAccessWidth
  | .double => .error .registerAccessWidth
  | .word =>
    if addr < p.regBase then .error .outsideRegisterBlock
    else if Config.regSpan ≤ addr - p.regBase then .error .outsideRegisterBlock
    else if (addr - p.regBase) % 4 = 0 then .ok (addr - p.regBase)
    else .error .registerAccessMisaligned

end Sys2Proof
end

