-- ==== Sys2Proof/Machine/Flags.lean ====
section
/-! DEFINITION. The STATUS fields (R27, R48), the irq output (R49), and the words the windows read (R41, R43). -/

namespace Sys2Proof

namespace Machine

/-- STATUS.TREE_PRESENT: 1 iff NNODES ≠ 0 (R27). -/
def CodeTree.present (t : CodeTree) : Bool := t.nnodes != 0

/-- STATUS.CB_PRESENT: 1 iff some CODE_LEN[s] ≠ 0 (R27). -/
def CodeBook.present (b : CodeBook) : Bool := b.len.toList.any (· != 0)

/-- The irq output, a level: STATUS.DONE AND CTRL.IE (R49, R311). -/
def State.irq (s : State) : Bool := s.done && s.ie

/-- The platform's interrupt lines as HUFF drives them: irq on IRQ_LINE and nothing on another (R6, R311). -/
def State.interruptLine (s : State) (line : Nat) : Bool := line == s.platform.irqLine && s.irq

/-- STATUS composed of its fields (R27); reserved bits read 0. -/
def statusWord (busy done overrun : Bool) (err : BitVec 4) (treePresent cbPresent irq : Bool) : Word :=
  (0 : BitVec 21) ++ BitVec.ofBool irq ++ BitVec.ofBool cbPresent ++ BitVec.ofBool treePresent ++ err ++
    (0 : BitVec 1) ++ BitVec.ofBool overrun ++ BitVec.ofBool done ++ BitVec.ofBool busy

/-- What STATUS reads, given what its two derived bits read. -/
def State.statusWith (s : State) (treePresent cbPresent : Bool) : Word :=
  statusWord s.busy s.done s.overrun s.err treePresent cbPresent s.irq

/-- STATUS (R27). -/
def State.status (s : State) : Word := s.statusWith s.tree.present s.book.present

/-- CTRL (R28): IE in bit 0. -/
def State.ctrl (s : State) : Word := (0 : BitVec 31) ++ BitVec.ofBool s.ie

/-- A valid node as NODE_A shows it (R41). -/
def Node.word : Node → Word
  | .leaf sym _ => (0b11 : BitVec 2) ++ (0 : BitVec 22) ++ sym
  | .internal left right _ => (0b10 : BitVec 2) ++ (0 : BitVec 4) ++ right ++ left ++ (0 : BitVec 8)

/-- NODE_A[i] (R40, R41): 0 for an invalid slot. -/
def CodeTree.nodeA (t : CodeTree) (i : Nat) : Word := if i < t.nnodes.toNat then (t.node.slot i).word else 0

/-- NODE_W[i] (R40, R41): 0 for an invalid slot. -/
def CodeTree.nodeW (t : CodeTree) (i : Nat) : Word := if i < t.nnodes.toNat then (t.node.slot i).weight else 0

/-- CODE_BITS[s][j] (R43): word j of zext_256(CODE_VAL[s]). -/
def CodeBook.codeBits (b : CodeBook) (s : Byte) (j : Nat) : Word := (b.val.look s).extractLsb' (32 * j) 32

/-- The value of a register as R24 to R44 define it. -/
def State.regValue (s : State) (r : Reg) : Word :=
  match r with
  | .id => Config.idValue
  | .cmd => s.cmd
  | .status => s.status
  | .ctrl => s.ctrl
  | .srcAddr => s.srcAddr
  | .srcLen => s.srcLen
  | .dstAddr => s.dstAddr
  | .dstCap => s.dstCap
  | .bitcntLo => s.bitcntLo
  | .bitcntHi => s.bitcntHi
  | .resBitsLo => s.resBits.extractLsb' 0 32
  | .resBitsHi => s.resBits.extractLsb' 32 32
  | .resBytes => s.resBytes
  | .errInfoLo => s.errInfo.extractLsb' 0 32
  | .errInfoHi => s.errInfo.extractLsb' 32 32
  | .errSym => s.errSym.setWidth 32
  | .total => s.table.total
  | .nsym => s.table.nsym.setWidth 32
  | .nnodes => s.tree.nnodes.setWidth 32
  | .root => s.tree.root.setWidth 32
  | .freq x => s.table.freq.look x
  | .codeLen x => (s.book.len.look x).setWidth 32
  | .codeBits x j => s.book.codeBits x j.val
  | .nodeA i => s.tree.nodeA i.val
  | .nodeW i => s.tree.nodeW i.val
  | .reserved => 0

end Machine

/-- The bits of a register that are unspecified while BUSY = 1 (R27, R134, U2). Reserved bits read 0 at every time
(R23, U6), so they are not among them. -/
def Reg.drawnBits (r : Reg) : Word :=
  match r with
  | .id => 0
  | .cmd => 0
  | .status => 0x300
  | .ctrl => 0
  | .srcAddr => 0
  | .srcLen => 0
  | .dstAddr => 0
  | .dstCap => 0
  | .bitcntLo => 0
  | .bitcntHi => 0
  | .resBitsLo => 0xFFFFFFFF
  | .resBitsHi => 0xFFFFFFFF
  | .resBytes => 0xFFFFFFFF
  | .errInfoLo => 0xFFFFFFFF
  | .errInfoHi => 0xFFFFFFFF
  | .errSym => 0xFF
  | .total => 0xFFFFFFFF
  | .nsym => 0x1FF
  | .nnodes => 0x3FF
  | .root => 0x1FF
  | .freq _ => 0xFFFFFFFF
  | .codeLen _ => 0xFF
  | .codeBits _ _ => 0xFFFFFFFF
  | .nodeA _ => 0xC3FFFFFF
  | .nodeW _ => 0xFFFFFFFF
  | .reserved => 0

end Sys2Proof
end

