-- ==== Sys2Proof/Machine/Frequency.lean ====
section
/-! DEFINITION. The frequency analyzer: COUNT (41_frequency.md). -/

namespace Sys2Proof.Machine

/-- The counting loop of R160: F[s] <- F[s] + 1 for each byte, from the zero table. -/
def countBytes (bytes : List Byte) : Table Word :=
  bytes.foldl (fun F s => Table.put F s (Table.look F s + 1)) (Vector.replicate 256 0)

/-- The symbols s with F[s] ≠ 0, ascending: the keys of the FrequencyTable (R36), and `syms` of R182. -/
def presentSymbols (F : Table Word) : List Byte :=
  ((allSymbols.zip F.toList).filter fun p => p.2 != 0).map Prod.fst

/-- The FrequencyTable of a byte sequence (R160): FREQ, TOTAL = n, NSYM. -/
def FreqTable.ofBytes (bytes : List Byte) : FreqTable :=
  { freq := countBytes bytes
    total := BitVec.ofNat 32 bytes.length
    nsym := BitVec.ofNat 9 (presentSymbols (countBytes bytes)).length }

/-- COUNT (R160): replace the table; the tree becomes absent and the codebook empty. -/
def execCount (s : State) : Host.Outcome State Fault Refusal :=
  s.finish do
    let bytes ← s.sourceBytes
    return { state := { s with table := FreqTable.ofBytes bytes, tree := CodeTree.absent, book := CodeBook.empty }
             resBits := 0
             resBytes := 0 }

end Sys2Proof.Machine
end

