-- ==== Sys2Proof/Machine/TreeBuilder.lean ====
section
/-! DEFINITION. The tree builder: BUILD (42_tree_builder.md). -/

namespace Sys2Proof.Machine

/-- An entry (w, i) of the priority queue (R181): a weight and a node index. -/
abbrev QueueEntry := Word × NodeIndex

/-- The lexicographic order on (w, i) (R181): least weight first, and among equal weights the least index. -/
def QueueEntry.before (x y : QueueEntry) : Bool :=
  decide (x.1 < y.1) || (x.1 == y.1 && decide (x.2 < y.2))

/-- `insert(PQ, e)`. The queue is held in key order, so that `extract_min` takes its head; R181 allows any structure
that extracts in that order. -/
def queueInsert (e : QueueEntry) : List QueueEntry → List QueueEntry
  | [] => [e]
  | x :: q => if QueueEntry.before e x then e :: x :: q else x :: queueInsert e q

/-- The leaves of R182, in ascending symbol order. -/
def leafNodes (F : Table Word) : List Node := (presentSymbols F).map fun s => Node.leaf s (Table.look F s)

/-- The entries (F[syms[i]], i) of R182. -/
def leafEntries (F : Table Word) : List QueueEntry :=
  (leafNodes F).zipIdx.map fun p => (p.1.weight, BitVec.ofNat 9 p.2)

/-- The combine loop of R182: extract the two least entries, the first becoming the left child and the second the right,
and insert the new node. A loop step lowers |PQ| by one (R183), so `fuel` = |PQ| is enough. -/
def combine : Nat → List Node → List QueueEntry → List Node
  | 0, nodes, _ => nodes
  | fuel + 1, nodes, x :: y :: q =>
    combine fuel (nodes ++ [.internal x.2 y.2 (x.1 + y.1)])
      (queueInsert (x.1 + y.1, BitVec.ofNat 9 nodes.length) q)
  | _ + 1, nodes, _ => nodes

/-- The nodes of build(F), by index: leaves in ascending symbol order, then internal nodes in creation order (R182). -/
def buildNodes (F : Table Word) : List Node :=
  combine (leafNodes F).length (leafNodes F) ((leafEntries F).foldr queueInsert [])

/-- The tree whose valid slots hold `nodes`: NNODES is their number, and ROOT the last of them (R37, R183). -/
def CodeTree.ofNodes (nodes : List Node) : CodeTree :=
  { node := Arena.ofNodes nodes
    nnodes := BitVec.ofNat 10 nodes.length
    root := BitVec.ofNat 9 (nodes.length - 1) }

/-- The function build(F) (R182). -/
def buildTree (F : Table Word) : CodeTree := CodeTree.ofNodes (buildNodes F)

/-- BUILD (R180): build the tree from FREQ and empty the codebook. It raises nothing. -/
def execBuild (s : State) : Host.Outcome State Fault Refusal :=
  s.finish (.ok
    { state := { s with tree := buildTree s.table.freq, book := CodeBook.empty }
      resBits := 0
      resBytes := 0 })

end Sys2Proof.Machine
end

