-- ==== Sys2Proof/Machine/CodeGenerator.lean ====
section
/-! DEFINITION. The code generator: GENERATE (43_code_generator.md), and the symbol-to-code lookup (R204). -/

namespace Sys2Proof.Machine

/-- `walk(i, p)` of R200, as the list of (symbol, code) pairs it assigns: 0 for the edge to the left child, 1 for the
edge to the right. `fuel` bounds the depth; a child's index is less than its parent's (R38), so MAX_NODES is enough. -/
def walkCodes (node : Arena) : Nat → NodeIndex → List Bool → List (Byte × List Bool)
  | 0, _, _ => []
  | fuel + 1, i, p =>
    match Arena.slot node i.toNat with
    | .leaf sym _ => [(sym, p)]
    | .internal left right _ => walkCodes node fuel left (p ++ [false]) ++ walkCodes node fuel right (p ++ [true])

/-- The codes GENERATE assigns (R200): none for an absent tree, "0" for a single leaf, else the root-to-leaf paths. -/
def CodeTree.codes (t : CodeTree) : List (Byte × List Bool) :=
  if t.nnodes = 0 then []
  else if t.nnodes = 1 then
    match Arena.slot t.node 0 with
    | .leaf sym _ => [(sym, [false])]
    | .internal _ _ _ => []
  else walkCodes t.node Config.maxNodes t.root []

/-- `CODE_LEN[s] <- len(p)` and `CODE_VAL[s] <- p` read as a binary number (R200). -/
def CodeBook.assign (b : CodeBook) (s : Byte) (p : List Bool) : CodeBook :=
  { len := Table.put b.len s (BitVec.ofNat 8 p.length)
    val := Table.put b.val s (BitVec.ofNat 255 (bitsValue p)) }

/-- The codebook of a tree (R200), from the empty codebook. -/
def generateBook (t : CodeTree) : CodeBook :=
  t.codes.foldl (fun b c => b.assign c.1 c.2) CodeBook.empty

/-- code(s) (R42, R204): empty when CODE_LEN[s] = 0, else CODE_LEN[s] bits, the first being bit CODE_LEN[s] − 1 of
CODE_VAL[s]. -/
def CodeBook.code (b : CodeBook) (s : Byte) : List Bool :=
  (List.range (Table.look b.len s).toNat).map fun m =>
    (Table.look b.val s).getLsbD ((Table.look b.len s).toNat - 1 - m)

/-- GENERATE (R200): derive the codebook from the tree. It raises nothing. -/
def execGenerate (s : State) : Host.Outcome State Fault Refusal :=
  s.finish (.ok
    { state := { s with book := generateBook s.tree }
      resBits := 0
      resBytes := 0 })

end Sys2Proof.Machine
end

