-- ==== Sys2Proof/Machine/Setup.lean ====
section
/-! DEFINITION. One-step set-up and soft clear: SETUP and CLEAR (46_setup_and_clear.md). -/

namespace Sys2Proof.Machine

/-- SETUP (R280): count, build and generate in one step. -/
def execSetup (s : State) : Host.Outcome State Fault Refusal :=
  s.finish do
    let bytes ← s.sourceBytes
    let table := FreqTable.ofBytes bytes
    let tree := buildTree table.freq
    return { state := { s with table := table, tree := tree, book := generateBook tree }
             resBits := 0
             resBytes := 0 }

/-- CLEAR (R285): the table, tree, codebook and result registers return to their reset values. -/
def execClear (s : State) : Host.Outcome State Fault Refusal :=
  s.finish (.ok
    { state := { s with table := FreqTable.empty, tree := CodeTree.absent, book := CodeBook.empty }
      resBits := 0
      resBytes := 0 })

end Sys2Proof.Machine
end

