-- ==== Sys2Proof/Machine/Encoder.lean ====
section
/-! DEFINITION. The bit-stream encoder: ENCODE and BITLEN (44_encoder.md). -/

namespace Sys2Proof.Machine

/-- Pass 1 of ENCODE (R220): look up each byte's code and concatenate; UnknownSymbol at the lowest index whose byte has
none (R301). `i` is the index of the first byte of the list. -/
def encodeBytes (b : CodeBook) : Nat → List Byte → Except Stop (List Bool)
  | _, [] => .ok []
  | i, s :: bytes => do
    require (Table.look b.len s != 0) (.unknownSymbol i s)
    let rest ← encodeBytes b (i + 1) bytes
    return b.code s ++ rest

/-- The loop of BITLEN (R230): the sum of the code lengths, in a 64-bit accumulator no sum of a source buffer overflows
(R223). -/
def sumLengths (b : CodeBook) : Nat → List Byte → Except Stop Nat
  | _, [] => .ok 0
  | i, s :: bytes => do
    require (Table.look b.len s != 0) (.unknownSymbol i s)
    let rest ← sumLengths b (i + 1) bytes
    return (Table.look b.len s).toNat + rest

/-- ENCODE up to its first write (R220): every check in order, then N and the packed payload. -/
def State.encodePlan (s : State) : Except Stop (Nat × List Byte) := do
  let bytes ← s.sourceBytes
  let bits ← encodeBytes s.book 0 bytes
  s.checkDestination s.src s.srcCount (bytesFor bits.length)
  return (bits.length, packBits bits)

/-- ENCODE (R220): encode the source buffer into a packed payload. -/
def execEncode (s : State) : Host.Outcome State Fault Refusal :=
  s.finish do
    let plan ← s.encodePlan
    return { state := { s with mem := s.mem.writeBytes s.dst plan.2 }
             resBits := plan.1
             resBytes := plan.2.length }

/-- BITLEN (R230): the encoded size in bits, without writing a payload. -/
def execBitlen (s : State) : Host.Outcome State Fault Refusal :=
  s.finish do
    let bytes ← s.sourceBytes
    let n ← sumLengths s.book 0 bytes
    return { state := s, resBits := n, resBytes := 0 }

end Sys2Proof.Machine
end

