-- ==== Sys2Proof/Machine/Decoder.lean ====
section
/-! DEFINITION. The bit-stream decoder: DECODE (45_decoder.md). -/

namespace Sys2Proof.Machine

/-- The tree walk inside DECODE (R252): the walk position, the bit index at which the current codeword began, and the
symbols emitted. It does not survive the command (R45). -/
structure Walk where
  pos : NodeIndex
  start : Nat
  out : List Byte
deriving DecidableEq, Repr

/-- One bit of the walk (R250, R252): `t` is the bit's index. A position that is no internal node does not occur (R302);
such a tree is the "malformed" one of CorruptTree (notes/assumptions/12.md). -/
def CodeTree.walkBit (tree : CodeTree) (w : Walk) (t : Nat) (b : Bool) : Except Stop Walk :=
  match Arena.slot tree.node w.pos.toNat with
  | .leaf _ _ => .error (.raised .corruptTree)
  | .internal left right _ =>
    let pos := if b then right else left
    match Arena.slot tree.node pos.toNat with
    | .leaf sym _ => .ok { pos := tree.root, start := t + 1, out := w.out ++ [sym] }
    | .internal _ _ _ => .ok { w with pos := pos }

/-- The walk over the payload's bits, `t` being the index of the first of them (R250). -/
def CodeTree.walkBits (tree : CodeTree) : Nat → Walk → List Bool → Except Stop Walk
  | _, w, [] => .ok w
  | t, w, b :: bits => do
    let w' ← tree.walkBit w t b
    tree.walkBits (t + 1) w' bits

/-- The walk from the root to the end of the payload; TruncatedStream when it ends inside a codeword (R252, R302). -/
def CodeTree.decodeBits (tree : CodeTree) (bits : List Bool) : Except Stop (List Byte) := do
  let w ← tree.walkBits 0 { pos := tree.root, start := 0, out := [] } bits
  require (w.pos == tree.root) (.truncatedStream w.start)
  return w.out

/-- Single-leaf decode (R251): each of the n bits emits the leaf's symbol, whatever its value. -/
def CodeTree.decodeSingle (tree : CodeTree) (n : Nat) : Except Stop (List Byte) :=
  match Arena.slot tree.node 0 with
  | .leaf sym _ => .ok (List.replicate n sym)
  | .internal _ _ _ => .error (.raised .corruptTree)

/-- The decoded bytes (R250): none for an empty payload, CorruptTree for an absent tree, else the walk. -/
def State.decodeStream (s : State) : Except Stop (List Byte) :=
  if s.bitCount = 0 then .ok []
  else if s.tree.nnodes = 0 then .error (.raised .corruptTree)
  else do
    s.platform.access s.src (bytesFor s.bitCount)
    if s.tree.nnodes = 1 then s.tree.decodeSingle s.bitCount
    else s.tree.decodeBits (s.mem.payloadBits s.src s.bitCount)

/-- DECODE up to its first write (R250): every check in order, then the decoded bytes. -/
def State.decodePlan (s : State) : Except Stop (List Byte) := do
  require (inRange s.platform.memSize s.src s.srcCount) (.range .source)
  require (decide (s.bitCount ≤ 8 * s.srcCount)) (.range .bitCount)
  let out ← s.decodeStream
  s.checkDestination s.src (bytesFor s.bitCount) out.length
  return out

/-- DECODE (R250): decode a packed payload with the tree. -/
def execDecode (s : State) : Host.Outcome State Fault Refusal :=
  s.finish do
    let out ← s.decodePlan
    return { state := { s with mem := s.mem.writeBytes s.dst out }
             resBits := s.bitCount
             resBytes := out.length }

end Sys2Proof.Machine
end

