-- ==== Sys2Proof/Machine/Engine.lean ====
section
/-! DEFINITION. The engine's move (R135) and the bytes of data memory a running command reads and writes (R77). -/

namespace Sys2Proof.Machine

/-- The latched command, when the latched word is legal (R103, R135). -/
def State.running (s : State) : Option Instr :=
  match decode s.latch.cmd with
  | .ok i => some i
  | .error _ => none

/-- The engine has a step exactly when BUSY = 1; it executes the latched command whole, and an illegal word completes as
IllegalCommand (R135, R303). -/
def State.engineMove (s : State) : Host.Outcome State Fault Refusal :=
  if s.busy then
    match decode s.latch.cmd with
    | .ok i => exec i s
    | .error _ => .next (s.raise (.illegalCommand s.latch.cmd))
  else .next s

/-- The read range of a command, as (start, length) (R77). -/
def State.readRange (s : State) (i : Instr) : Nat × Nat :=
  match i with
  | .count => (s.src, s.srcCount)
  | .build => (0, 0)
  | .generate => (0, 0)
  | .setup => (s.src, s.srcCount)
  | .encode => (s.src, s.srcCount)
  | .bitlen => (s.src, s.srcCount)
  | .decode => (s.src, bytesFor s.bitCount)
  | .clear => (0, 0)

/-- The most a command could write: [L.DST_ADDR, L.DST_ADDR + L.DST_CAP), up to the end of data memory (R30). -/
def State.destination (s : State) : Nat × Nat := (s.dst, min s.capacity (s.platform.memSize - s.dst))

/-- The write range of a command whose plan is to write `n` bytes, or stops (R77, R79): none when it ends in an error, and
the most it could write when its buffers are outside the contract of R72 and R83 (notes/assumptions/9.md). -/
def State.plannedRange (s : State) (n : Except Stop Nat) : Nat × Nat :=
  match n with
  | .ok n => (s.dst, n)
  | .error (.raised _) => (0, 0)
  | .error (.refuse _) => s.destination

/-- The write range of a command, as (start, length) (R77): the bytes it writes when it raises nothing. -/
def State.writeRange (s : State) (i : Instr) : Nat × Nat :=
  match i with
  | .count => (0, 0)
  | .build => (0, 0)
  | .generate => (0, 0)
  | .setup => (0, 0)
  | .encode => s.plannedRange (s.encodePlan.map fun plan => plan.2.length)
  | .bitlen => (0, 0)
  | .decode => s.plannedRange (s.decodePlan.map List.length)
  | .clear => (0, 0)

/-- Address `a` lies in the range (start, length). -/
def inSpan (r : Nat × Nat) (a : Nat) : Bool := decide (r.1 ≤ a) && decide (a < r.1 + r.2)

/-- Byte `a` is in the read or write range of the running command, so the host must not touch it (R82 (c), R351). -/
def State.live (s : State) (a : Nat) : Bool :=
  match s.busy, s.running with
  | true, some i => inSpan (s.readRange i) a || inSpan (s.writeRange i) a
  | _, _ => false

end Sys2Proof.Machine
end

