-- ==== Sys2Proof/Machine/HostPort.lean ====
section
/-! DEFINITION. The host's moves (R130 to R134, R139, R140): register reads and writes, accesses to data memory, the
assertion of reset (R340, R341), and the WAIT loop of R106. -/

namespace Sys2Proof.Machine

/-! ### Register access -/

/-- Host write of `v` to the register `r` (R131). -/
def State.writeReg (s : State) (r : Reg) (v : Word) : State :=
  match r with
  | .cmd => s.writeCommand v
  | .status =>
    { s with
      done := s.done && !v.getLsbD 1
      overrun := s.overrun && !v.getLsbD 2 }
  | .ctrl => { s with ie := v.getLsbD 0 }
  | .srcAddr => { s with srcAddr := v }
  | .srcLen => { s with srcLen := v }
  | .dstAddr => { s with dstAddr := v }
  | .dstCap => { s with dstCap := v }
  | .bitcntLo => { s with bitcntLo := v }
  | .bitcntHi => { s with bitcntHi := v }
  | .id => s
  | .resBitsLo => s
  | .resBitsHi => s
  | .resBytes => s
  | .errInfoLo => s
  | .errInfoHi => s
  | .errSym => s
  | .total => s
  | .nsym => s
  | .nnodes => s
  | .root => s
  | .freq _ => s
  | .codeLen _ => s
  | .codeBits _ _ => s
  | .nodeA _ => s
  | .nodeW _ => s
  | .reserved => s

/-- What a host read of the register `r` returns (R134): its defined value, with the bits R134 leaves unspecified while
BUSY = 1 taken from a fresh draw. -/
def State.readReg (s : State) (r : Reg) : Word :=
  if s.busy then (s.regValue r &&& ~~~r.drawnBits) ||| (Config.freeWord s.draws &&& r.drawnBits)
  else s.regValue r

/-- A read has no side effect on the machine (R134); in the model it uses up a draw when it took one. -/
def State.countDraw (s : State) (r : Reg) : State :=
  if s.busy && r.drawnBits != 0 then { s with draws := s.draws + 1 } else s

/-- `RD` at an aligned offset. -/
def State.hostReadReg (s : State) (o : Nat) : State :=
  { s.countDraw (regAt o) with reads := s.reads ++ [.reg o (s.readReg (regAt o))] }

/-- `WAIT` (R106): one read of STATUS, the statement staying in front while BUSY reads 1. -/
def State.hostWait (s : State) : State :=
  if s.busy then { s.countDraw .status with host := .wait :: s.host } else s

/-! ### Data memory -/

/-- A host access to byte `a` of data memory: refused where the byte does not exist (R70), HOST_BUFFER_RACE where the
running command uses it (R82 (c)), and otherwise unconstrained (R82 (d)). It leaves `ordinary` where the byte is inside the
contract of R72 and R83, and `unknown` on a device or a platform that is not coherent. That the race is looked for before
R72 and R83 are, and what `unknown` is, are the model's choices (notes/assumptions/21.md). -/
def State.hostAccess (s : State) (a : Nat) (ordinary unknown : State) : Host.Outcome State Fault Refusal :=
  if s.platform.memSize ≤ a then .refused .outsideDataMemory
  else if s.live a then .fault .hostBufferRace
  else if s.platform.usable a 1 then .next ordinary
  else .next unknown

/-- The host reads byte `a` and `v` comes back. -/
def State.recordByte (s : State) (a : Word) (v : Byte) : State := { s with reads := s.reads ++ [.mem a v] }

/-- Byte `a` takes the value `v`. -/
def State.storeByte (s : State) (a : Word) (v : Byte) : State := { s with mem := s.mem.write a.toNat v }

/-- The next free byte, taken. -/
def State.takeFreeByte (s : State) : State := { s with draws := s.draws + 1 }

/-! ### Reset -/

/-- The range whose bytes reset leaves unspecified (R341): the write range of the command it abandons. -/
def State.abandonedRange (s : State) : Nat × Nat :=
  match s.busy, s.running with
  | true, some i => s.writeRange i
  | _, _ => (0, 0)

/-- `n` drawn bytes, the k-th draw first. -/
def drawnBytes (k n : Nat) : List Byte := (List.range n).map fun j => Config.freeByte (k + j)

/-- Hardware reset (R340): every element takes its reset value. Data memory is not reset (R71), but each byte of an
abandoned command's write range is a draw (R341). The platform and the run go on as they were. -/
def State.hardReset (s : State) : State :=
  { State.resetOn s.platform (s.mem.writeBytes s.abandonedRange.1 (drawnBytes s.draws s.abandonedRange.2)) with
    host := s.host
    turns := s.turns
    reads := s.reads
    draws := s.draws + s.abandonedRange.2 }

/-! ### The host's move -/

/-- One move of the host (R140). -/
def State.hostOp (s : State) (op : HostOp) : Host.Outcome State Fault Refusal :=
  match op with
  | .regRead width addr =>
    match s.platform.register width addr with
    | .ok o => .next (s.hostReadReg o)
    | .error r => .refused r
  | .regWrite width addr v =>
    match s.platform.register width addr with
    | .ok o => .next (s.writeReg (regAt o) v)
    | .error r => .refused r
  | .wait => .next s.hostWait
  | .memRead addr =>
    s.hostAccess addr.toNat (s.recordByte addr (s.mem.read addr.toNat))
      (s.takeFreeByte.recordByte addr (Config.freeByte s.draws))
  | .memWrite addr v =>
    s.hostAccess addr.toNat (s.storeByte addr v) (s.takeFreeByte.storeByte addr (Config.freeByte s.draws))
  | .assertReset => .next s.hardReset

/-- The host takes the first move of its program; a host with none left does nothing. -/
def State.hostMove (s : State) : Host.Outcome State Fault Refusal :=
  match s.host with
  | [] => .next s
  | op :: ops => State.hostOp { s with host := ops } op

end Sys2Proof.Machine
end

