-- ==== Sys2Proof/Machine/Step.lean ====
section
/-! DEFINITION. One step: the agent whose turn it is moves (R135, R139). -/

namespace Sys2Proof.Machine

/-- The agents interleave in any order that respects R132 to R135 (R139); `turns` says which moves next. When it is
empty the engine moves while BUSY = 1 (the weak fairness of R136), and the host otherwise. With BUSY = 0 and no host
move left the machine is idle and every element keeps its value (R325). -/
def step (s : State) : Host.Outcome State Fault Refusal :=
  match s.turns with
  | [] => if s.busy then s.engineMove else s.hostMove
  | .engine :: ts => State.engineMove { s with turns := ts }
  | .host :: ts => State.hostMove { s with turns := ts }

/-- HUFF fetches no instructions (R22, R85): the engine runs the word that issue latched (R132). So the word is issued
on `s`, and where a turn order is given the engine is put first, so that the very next step runs it. -/
def State.withFetchWord (s : State) (nbits w : Nat) : State :=
  match s.turns with
  | [] => s.issue (BitVec.ofNat 32 (w % 2 ^ nbits))
  | ts => { s.issue (BitVec.ofNat 32 (w % 2 ^ nbits)) with turns := .engine :: ts }

end Sys2Proof.Machine
end

