-- ==== Sys2Proof/Machine/HostProgram.lean ====
section
/-! DEFINITION. The host program notation of R106, its pseudo-instructions (R107), and the launch state of a run (R139).
Each statement is the list of host moves it stands for (R108). -/

namespace Sys2Proof.Machine

/-- `WR <reg>, <v>`. -/
def wr (p : Platform) (r : Reg) (v : Word) : List HostOp := [.regWrite .word (p.regBase + r.offset) v]

/-- `RD <reg>`. -/
def rd (p : Platform) (r : Reg) : List HostOp := [.regRead .word (p.regBase + r.offset)]

/-- `CMDW <v>`. -/
def cmdWord (p : Platform) (v : Word) : List HostOp := wr p .cmd v

/-- `CMD <MNEMONIC>`. -/
def cmd (p : Platform) (i : Instr) : List HostOp := cmdWord p (encode i)

/-- `ISSUE <MNEMONIC>`: `CMD`, then `WAIT`. -/
def issueAndWait (p : Platform) (i : Instr) : List HostOp := cmd p i ++ [.wait]

/-- `ACK`: clear DONE. -/
def ack (p : Platform) : List HostOp := wr p .status 0x00000002

/-- `ACKALL`: clear DONE and OVERRUN. -/
def ackAll (p : Platform) : List HostOp := wr p .status 0x00000006

/-- `SRC <a>, <n>`. -/
def srcArgs (p : Platform) (a n : Word) : List HostOp := wr p .srcAddr a ++ wr p .srcLen n

/-- `DST <a>, <c>`. -/
def dstArgs (p : Platform) (a c : Word) : List HostOp := wr p .dstAddr a ++ wr p .dstCap c

/-- `BITS <v64>`. -/
def bitsArg (p : Platform) (v : DWord) : List HostOp :=
  wr p .bitcntLo (v.extractLsb' 0 32) ++ wr p .bitcntHi (v.extractLsb' 32 32)

/-- `RD64 <pair>`: `RD <pair>_LO`, then `RD <pair>_HI`. -/
def rd64 (p : Platform) (pair : RegPair) : List HostOp := rd p pair.lo ++ rd p pair.hi

/-- name = hi·2^32 + lo. -/
def pairValue (hi lo : Word) : Nat := hi.toNat * 2 ^ 32 + lo.toNat

/-- The name `RD64 <pair>` gives, from the last two reads; none where they are not its two words. -/
def State.named64 (s : State) (pair : RegPair) : Option Nat :=
  match s.reads.reverse with
  | .reg h hi :: .reg l lo :: _ => if h = pair.hi.offset ∧ l = pair.lo.offset then some (pairValue hi lo) else none
  | _ => none

/-- `MEM` lines: launch-state bytes, each line an address and the bytes from there. -/
def launchMemory (lines : List (Nat × List Byte)) : Memory :=
  lines.foldl (fun m l => m.writeBytes l.1 l.2) []

/-- The launch state of a run (R139): reset, the launch memory, the host's program, and the order of the agents' moves
where the run fixes one. -/
def State.launch (p : Platform) (lines : List (Nat × List Byte)) (program : List HostOp) (order : List Agent) : State :=
  { State.resetOn p (launchMemory lines) with host := program, turns := order }

end Sys2Proof.Machine
end

