-- ==== Sys2Proof/Safety.lean ====
section
/-! DEFINITION. Safe runs and the terms of the claims: when a step goes on, when a run has ended (R139), which states a
run reaches, the invariants the spec gives every such state, how a command completes, and what a command leaves alone. -/

namespace Sys2Proof.Machine

/-! ### Runs -/

/-- The step stops in no fault and no refusal. -/
def State.goesOn (s : State) : Prop := ∃ t, step s = .next t

/-- `t` is reached from `s` by steps that all go on. -/
inductive Reaches : State → State → Prop where
  | here (s : State) : Reaches s s
  | step {s t u : State} (h : Reaches s t) (hu : step t = .next u) : Reaches s u

/-- A run has ended (R139): the host has executed its last statement and BUSY = 0. -/
def State.ended (s : State) : Bool := s.host.isEmpty && !s.busy

/-! ### Invariants -/

/-- Data memory is in canonical form and lists only addresses that exist (R70). -/
def State.MemoryInv (s : State) : Prop :=
  Memory.wf s.mem ∧ ∀ c ∈ s.mem, c.1 < s.platform.memSize

/-- R35: TOTAL is the sum over s of FREQ[s], over the unbounded integers, and NSYM the number of s with FREQ[s] ≠ 0. -/
def FreqTable.Consistent (t : FreqTable) : Prop :=
  t.total.toNat = (allSymbols.map fun s => (Table.look t.freq s).toNat).sum ∧
    t.nsym.toNat = (allSymbols.filter fun s => Table.look t.freq s != 0).length

/-- R46: the tree is absent or build(FREQ), and the codebook is empty or generate(tree) with NNODES ≥ 1. -/
def State.TreeInv (s : State) : Prop :=
  (s.tree = CodeTree.absent ∨ s.tree = buildTree s.table.freq) ∧
    (s.book = CodeBook.empty ∨ s.book = generateBook s.tree ∧ s.tree.nnodes ≠ 0)

/-- R27, R300: ERR is 0 to 5, and while BUSY = 1, DONE = 0 and ERR = 0. R26, R132, R133: while BUSY = 1, CMD is the
latched word. -/
def State.StatusInv (s : State) : Prop :=
  s.err.toNat ≤ 5 ∧ (s.busy = true → s.done = false ∧ s.err = 0 ∧ s.cmd = s.latch.cmd)

/-- The invariant of every state a run reaches. -/
structure State.Inv (s : State) : Prop where
  platform : s.platform.wf = true
  memory : s.MemoryInv
  table : s.table.Consistent
  tree : s.TreeInv
  status : s.StatusInv

/-! ### The shape of a tree (R37 to R39, R186) -/

/-- The indices of a node's children. -/
def Node.childList : Node → List Nat
  | .leaf _ _ => []
  | .internal l r _ => [l.toNat, r.toNat]

/-- The valid slots of the arena, in index order. -/
def CodeTree.nodes (t : CodeTree) : List Node := (List.range t.nnodes.toNat).map (Arena.slot t.node)

/-- The children of all valid nodes. -/
def CodeTree.allChildren (t : CodeTree) : List Nat := t.nodes.flatMap Node.childList

/-- Node `i` comes out of the priority queue before node `j`: the lexicographic order on (w, i) (R181). -/
def CodeTree.KeyLt (t : CodeTree) (i j : Nat) : Prop :=
  (Arena.slot t.node i).weight.toNat < (Arena.slot t.node j).weight.toNat ∨
    (Arena.slot t.node i).weight = (Arena.slot t.node j).weight ∧ i < j

/-- The tree is the CodeTree of the table `F` (R37, R38, R39, R182): its leaves are the present symbols in ascending order with
their counts, the nodes after them are internal, a child's index is less than its parent's, an internal weight is the sum
of the children's over the integers, ROOT is the last node and no child, and every other node is the child of exactly
one. Each internal node combines the two nodes that are least by R181's key among those that existed before it and were no
child yet, the least of all being the left child. -/
structure CodeTree.TreeOf (t : CodeTree) (F : Table Word) : Prop where
  count : t.nnodes.toNat + 1 = 2 * (presentSymbols F).length
  root : t.root.toNat = t.nnodes.toNat - 1
  leaves : ∀ i (h : i < (presentSymbols F).length),
    Arena.slot t.node i = .leaf (presentSymbols F)[i] (Table.look F (presentSymbols F)[i])
  internal : ∀ i, (presentSymbols F).length ≤ i → i < t.nnodes.toNat → ∃ l r w, Arena.slot t.node i = .internal l r w ∧
    l.toNat < i ∧ r.toNat < i ∧
    w.toNat = (Arena.slot t.node l.toNat).weight.toNat + (Arena.slot t.node r.toNat).weight.toNat
  parents : ∀ j < t.nnodes.toNat, t.allChildren.count j = if j = t.root.toNat then 0 else 1
  least : ∀ i < t.nnodes.toNat, ∀ l r w, Arena.slot t.node i = .internal l r w → t.KeyLt l.toNat r.toNat ∧
    ∀ j < i, j ≠ l.toNat → j ≠ r.toNat → (∀ m < i, j ∉ (Arena.slot t.node m).childList) →
      t.KeyLt l.toNat j ∧ t.KeyLt r.toNat j

/-! ### How a command ends -/

/-- Success completion (R137) with RES_BITS = `bits` and RES_BYTES = `bytes`. -/
def State.SucceededWith (t : State) (bits bytes : Nat) : Prop :=
  t.resBits.toNat = bits ∧ t.resBytes.toNat = bytes ∧ t.errInfo = 0 ∧ t.errSym = 0 ∧ t.err = 0 ∧ t.busy = false ∧
    t.done = true

/-- Error completion (R138) with STATUS.ERR = `code`, ERR_INFO = `info` and ERR_SYM = `sym`. -/
def State.FailedWith (t : State) (code info : Nat) (sym : Byte) : Prop :=
  t.resBits = 0 ∧ t.resBytes = 0 ∧ t.errInfo.toNat = info ∧ t.errSym = sym ∧ t.err.toNat = code ∧ t.busy = false ∧
    t.done = true

/-- What no command writes: CMD, STATUS.OVERRUN, CTRL, the argument registers, L (R21, R34, R137, R138), and the run. -/
def State.SameHostSide (s t : State) : Prop :=
  t.cmd = s.cmd ∧ t.overrun = s.overrun ∧ t.ie = s.ie ∧ t.srcAddr = s.srcAddr ∧ t.srcLen = s.srcLen ∧
    t.dstAddr = s.dstAddr ∧ t.dstCap = s.dstCap ∧ t.bitcntLo = s.bitcntLo ∧ t.bitcntHi = s.bitcntHi ∧
    t.latch = s.latch ∧ t.platform = s.platform ∧ t.host = s.host ∧ t.turns = s.turns ∧ t.reads = s.reads ∧
    t.draws = s.draws

/-- The table, the tree and the codebook are unchanged. -/
def State.SameStructures (s t : State) : Prop := t.table = s.table ∧ t.tree = s.tree ∧ t.book = s.book

/-- Every byte of data memory reads as before. -/
def State.SameBytes (s t : State) : Prop := ∀ a, t.mem.read a = s.mem.read a

/-- Every byte outside [a, a + n) reads as before. -/
def State.SameBytesOutside (s t : State) (a n : Nat) : Prop :=
  ∀ x, ¬ (a ≤ x ∧ x < a + n) → t.mem.read x = s.mem.read x

/-- The codebook's code lengths of a byte sequence, summed. -/
def CodeBook.bitLength (b : CodeBook) (bytes : List Byte) : Nat :=
  (bytes.map fun c => (Table.look b.len c).toNat).sum

/-- Two states agree on what the command `i` reads (R101, and R77 for data memory), and on the platform. -/
def AgreeOnOperands (i : Instr) (s u : State) : Prop :=
  s.platform = u.platform ∧
  match i with
  | .count | .setup =>
    s.latch.srcAddr = u.latch.srcAddr ∧ s.latch.srcLen = u.latch.srcLen ∧ s.sourceData = u.sourceData
  | .build => s.table.freq = u.table.freq
  | .generate => s.tree = u.tree
  | .encode =>
    s.latch.srcAddr = u.latch.srcAddr ∧ s.latch.srcLen = u.latch.srcLen ∧ s.latch.dstAddr = u.latch.dstAddr ∧
      s.latch.dstCap = u.latch.dstCap ∧ s.sourceData = u.sourceData ∧ s.book = u.book
  | .bitlen =>
    s.latch.srcAddr = u.latch.srcAddr ∧ s.latch.srcLen = u.latch.srcLen ∧ s.sourceData = u.sourceData ∧
      s.book.len = u.book.len
  | .decode =>
    s.latch.srcAddr = u.latch.srcAddr ∧ s.latch.srcLen = u.latch.srcLen ∧ s.latch.dstAddr = u.latch.dstAddr ∧
      s.latch.dstCap = u.latch.dstCap ∧ s.latch.bitcnt = u.latch.bitcnt ∧
      (∀ j < bytesFor s.bitCount, s.mem.read (s.src + j) = u.mem.read (s.src + j)) ∧ s.tree = u.tree
  | .clear => True

end Sys2Proof.Machine
end

