-- ==== Sys2Proof/Certificates/Slice0/Obligations.lean ====
section
/-! DEFINITION. The statements about the model, for the provers. Each says what a rule of the spec says the machine does;
`SameHostSide`, `SucceededWith` and the other terms are in Safety.lean. -/

section Statements

open Sys2Proof Sys2Proof.Machine

/-! ### Command words and the register map -/

/-- R102: each of the eight words of the opcode map, written bit by bit, decodes to its command. -/
def Obligations.CommandWordsAreDecoded : Prop :=
  decode 0b00000000000000000000000000000001 = .ok .count ∧
  decode 0b00000000000000000000000000000010 = .ok .build ∧
  decode 0b00000000000000000000000000000011 = .ok .generate ∧
  decode 0b00000000000000000000000000000100 = .ok .setup ∧
  decode 0b00000000000000000000000000000101 = .ok .encode ∧
  decode 0b00000000000000000000000000000110 = .ok .bitlen ∧
  decode 0b00000000000000000000000000000111 = .ok .decode ∧
  decode 0b00000000000000000000000000001000 = .ok .clear

/-- R103: a command word w is legal iff w[31:8] = 0 and 0x01 ≤ w[7:0] ≤ 0x08; the decoder accepts exactly the legal
words, and each command is matched by its own word of R102 alone, so that decoding inverts encoding. -/
def Obligations.DecoderAcceptsExactlyLegalWords : Prop :=
  ∀ w : Word,
    ((∃ i, decode w = .ok i) ↔
      w.extractLsb' 8 24 = 0 ∧ 1 ≤ (w.extractLsb' 0 8).toNat ∧ (w.extractLsb' 0 8).toNat ≤ 8) ∧
    ∀ i : Instr, i.wf = true → (decode w = .ok i ↔ w = encode i)

/-- R24: the offsets of the map, register by register and window by window; every register has its own aligned offset
inside the block, and an offset that reaches a register is that register's. -/
def Obligations.RegisterMapHasOnePlacePerRegister : Prop :=
  [Reg.id, .cmd, .status, .ctrl, .srcAddr, .srcLen, .dstAddr, .dstCap, .bitcntLo, .bitcntHi, .resBitsLo, .resBitsHi,
      .resBytes, .errInfoLo, .errInfoHi, .errSym, .total, .nsym, .nnodes, .root].map Reg.offset =
    [0x000, 0x004, 0x008, 0x00C, 0x010, 0x014, 0x018, 0x01C, 0x020, 0x024, 0x028, 0x02C, 0x030, 0x034, 0x038, 0x03C,
      0x040, 0x044, 0x048, 0x04C] ∧
  (∀ c : Byte, (Reg.freq c).offset = 0x400 + 4 * c.toNat ∧ (Reg.codeLen c).offset = 0x800 + 4 * c.toNat ∧
    ∀ j : Fin 8, (Reg.codeBits c j).offset = 0x1000 + 32 * c.toNat + 4 * j.val) ∧
  (∀ i : Fin 511, (Reg.nodeA i).offset = 0x4000 + 8 * i.val ∧ (Reg.nodeW i).offset = 0x4004 + 8 * i.val) ∧
  (∀ r : Reg, r ≠ .reserved → regAt r.offset = r ∧ r.offset % 4 = 0 ∧ r.offset < 0x5000) ∧
  ∀ o : Nat, o % 4 = 0 → o < 0x5000 → regAt o ≠ .reserved → (regAt o).offset = o

/-- R44: the reserved offsets are those listed; at every time a read of one returns 0 and a write changes nothing. The
record of a read is the model's own (notes/assumptions/10.md). -/
def Obligations.ReservedOffsetsReadZeroIgnoreWrites : Prop :=
  (∀ o : Nat, o % 4 = 0 → o < 0x5000 →
    (regAt o = .reserved ↔ (0x050 ≤ o ∧ o ≤ 0x3FC) ∨ (0xC00 ≤ o ∧ o ≤ 0xFFC) ∨ (0x3000 ≤ o ∧ o ≤ 0x3FFC) ∨
      (0x4FF8 ≤ o ∧ o ≤ 0x4FFC))) ∧
  ∀ (s : State) (o : Nat) (v : Word), o % 4 = 0 → o < 0x5000 → regAt o = .reserved →
    State.hostOp s (.regRead .word (s.platform.regBase + o)) = .next { s with reads := s.reads ++ [.reg o 0] } ∧
    State.hostOp s (.regWrite .word (s.platform.regBase + o) v) = .next s

/-! ### The step -/

/-- R135, R139: when BUSY = 1 and the latched word decodes to a command, the step is that command's meaning, at the
state with the turn used up where a turn order is given; whatever the latched word is, the step without a turn order
is the engine's move. A word issued by `withFetchWord` is what the next step runs. The turn order and `withFetchWord`
are the model's own (notes/assumptions/6.md and 8.md). -/
def Obligations.StepRunsTheLatchedCommand : Prop :=
  (∀ (s : State) (i : Instr), s.busy = true → decode s.latch.cmd = .ok i → s.turns = [] → step s = exec i s) ∧
  (∀ (s : State) (i : Instr) (ts : List Agent), s.busy = true → decode s.latch.cmd = .ok i →
    s.turns = .engine :: ts → step s = exec i { s with turns := ts }) ∧
  (∀ s : State, s.busy = true → s.turns = [] → step s = s.engineMove) ∧
  ∀ (s : State) (i : Instr), step (s.withFetchWord 32 (encode i).toNat) = exec i (s.issue (encode i))

/-- R303: the engine step on a latched word that is not legal by R103 completes as IllegalCommand (code 4) with
ERR_INFO = zext_64(w), ERR_SYM = 0 and no other effect. -/
def Obligations.IllegalWordCompletesWithItsError : Prop :=
  ∀ s : State, s.busy = true → wordLegal s.latch.cmd = false →
    ∃ t, s.engineMove = .next t ∧ t.FailedWith 4 s.latch.cmd.toNat 0 ∧ s.SameStructures t ∧ t.mem = s.mem ∧
      s.SameHostSide t

/-- R135, R137, R138: an engine step with BUSY = 1 that goes on ends in a completion: BUSY = 0, DONE = 1, and irq is
CTRL.IE. -/
def Obligations.EngineStepEndsInCompletion : Prop :=
  ∀ s t : State, s.busy = true → s.engineMove = .next t → t.busy = false ∧ t.done = true ∧ t.irq = s.ie

/-- R135, R136: on a coherent platform whose memory is all idempotent, every command completes from every state. -/
def Obligations.EveryCommandCompletes : Prop :=
  ∀ (i : Instr) (s : State), s.platform.coherent = true → s.platform.devices = [] → ∃ t, exec i s = .next t

/-- R136: a command that stays issued is completed once the engine is given its turn, however many turns an idle host
is given first. The turn order is the model's own (notes/assumptions/6.md). -/
def Obligations.FairRunCompletesTheCommand : Prop :=
  ∀ (n : Nat) (s : State), s.platform.coherent = true → s.platform.devices = [] → s.busy = true → s.host = [] →
    s.turns = List.replicate n .host →
    ∃ t, Host.Core.run Sys2Proof.core (n + 1) s = .next t ∧ t.busy = false ∧ t.done = true

/-- R325, R135: with BUSY = 0 and no host move left nothing changes, and the engine has no step while BUSY = 0. The
host's list of moves and the turn order are the model's own (notes/assumptions/6.md). -/
def Obligations.IdleMachineKeepsEveryElement : Prop :=
  ∀ s : State, s.busy = false →
    s.engineMove = .next s ∧ (s.host = [] → s.turns = [] → step s = .next s)

/-- R48, R132, R137, R138, R340: BUSY is set by an issue alone, and cleared by a completion or by reset alone; the
OPEN parameters (R6) never change. The host's list of moves is the model's own (notes/assumptions/6.md). -/
def Obligations.BusyChangesOnlyByIssueCompletionReset : Prop :=
  ∀ s t : State, step s = .next t →
    t.platform = s.platform ∧
    (s.busy = false → t.busy = true →
      ∃ w ops, s.host = .regWrite .word (s.platform.regBase + 0x004) w :: ops ∧ t.cmd = w ∧ t.latch.cmd = w) ∧
    (s.busy = true → t.busy = false → t.done = true ∨ ∃ ops, s.host = .assertReset :: ops)

/-! ### Host register access -/

/-- R132: a CMD write while BUSY = 0 latches the word and the argument registers, sets BUSY and clears DONE and ERR,
so irq falls, whatever the word is; everything else stays. -/
def Obligations.IssueLatchesTheArguments : Prop :=
  ∀ (s : State) (w : Word), s.busy = false →
    ∃ t, State.hostOp s (.regWrite .word (s.platform.regBase + 0x004) w) = .next t ∧ t.cmd = w ∧
      t.latch.cmd = w ∧ t.latch.srcAddr = s.srcAddr ∧ t.latch.srcLen = s.srcLen ∧ t.latch.dstAddr = s.dstAddr ∧
      t.latch.dstCap = s.dstCap ∧ t.latch.bitcnt.toNat = s.bitcntHi.toNat * 2 ^ 32 + s.bitcntLo.toNat ∧
      t.busy = true ∧ t.done = false ∧ t.err = 0 ∧ t.irq = false ∧
      t = { s with cmd := w, latch := t.latch, busy := true, done := false, err := 0 }

/-- R133: a host write to CMD while BUSY = 1 is dropped: STATUS.OVERRUN <- 1 and nothing else changes. -/
def Obligations.CommandWriteWhileBusyIsDropped : Prop :=
  ∀ (s : State) (w : Word), s.busy = true →
    State.hostOp s (.regWrite .word (s.platform.regBase + 0x004) w) = .next { s with overrun := true }

/-- R27, R131: a write to STATUS acts only on bits 1 and 2: a 1 clears DONE or OVERRUN, a 0 leaves it; nothing else
changes. -/
def Obligations.StatusWriteClearsDoneAndOverrun : Prop :=
  ∀ (s : State) (v : Word),
    State.hostOp s (.regWrite .word (s.platform.regBase + 0x008) v) =
      .next { s with done := if v.getLsbD 1 then false else s.done
                     overrun := if v.getLsbD 2 then false else s.overrun }

/-- R49, R311, R28: irq is DONE AND IE and reads as STATUS bit 10; it drives IRQ_LINE alone; it is 0 at reset;
clearing DONE by W1C or by issue, or writing IE = 0, takes it down, and writing IE = 1 lets it follow DONE, with CTRL
reading IE back in bit 0 and 0 above. -/
def Obligations.IrqIsDoneAndEnable : Prop :=
  (∀ (p : Platform) (m : Memory), (State.resetOn p m).irq = false) ∧
  ∀ s : State,
    s.status.getLsbD 10 = (s.done && s.ie) ∧
    (∀ line, s.interruptLine line = true ↔ line = s.platform.irqLine ∧ s.done = true ∧ s.ie = true) ∧
    (∃ t, State.hostOp s (.regWrite .word (s.platform.regBase + 0x008) 0x2) = .next t ∧ t.irq = false) ∧
    (s.busy = false → ∀ w : Word,
      ∃ t, State.hostOp s (.regWrite .word (s.platform.regBase + 0x004) w) = .next t ∧ t.irq = false) ∧
    ∀ v : Word, ∃ t, State.hostOp s (.regWrite .word (s.platform.regBase + 0x00C) v) = .next t ∧
      t = { s with ie := v.getLsbD 0 } ∧ t.irq = (s.done && v.getLsbD 0) ∧ t.readReg .ctrl = v &&& 1

/-- R21, R23, R29 to R31, R131: an argument register takes the value written, at any BUSY, and reads it back; no other
register, and nothing else, changes. -/
def Obligations.ArgumentRegistersHoldWhatIsWritten : Prop :=
  ∀ (s : State) (r : Reg) (v : Word), r ∈ [Reg.srcAddr, .srcLen, .dstAddr, .dstCap, .bitcntLo, .bitcntHi] →
    ∃ t, State.hostOp s (.regWrite .word (s.platform.regBase + r.offset) v) = .next t ∧ t.readReg r = v ∧
      (∀ q, q ≠ r → t.regValue q = s.regValue q) ∧
      t = { s with srcAddr := t.srcAddr, srcLen := t.srcLen, dstAddr := t.dstAddr, dstCap := t.dstCap,
                   bitcntLo := t.bitcntLo, bitcntHi := t.bitcntHi }

/-- R23, R131, R4 (c): a write to a read-only register or a window word changes nothing, so the host cannot write the
table, the tree or the codebook. -/
def Obligations.ReadOnlyRegistersIgnoreWrites : Prop :=
  ∀ (s : State) (r : Reg) (v : Word),
    r ∉ [Reg.cmd, .status, .ctrl, .srcAddr, .srcLen, .dstAddr, .dstCap, .bitcntLo, .bitcntHi, .reserved] →
    State.hostOp s (.regWrite .word (s.platform.regBase + r.offset) v) = .next s

/-- R87, R134: a register read records the value the register reads at that time, and changes no element of the machine;
while BUSY = 0 that value is the register's own. The record and the count of draws are the model's own
(notes/assumptions/5.md and 10.md). -/
def Obligations.RegisterReadsHaveNoSideEffect : Prop :=
  ∀ (s : State) (r : Reg), r ≠ .reserved →
    ∃ t, State.hostOp s (.regRead .word (s.platform.regBase + r.offset)) = .next t ∧
      t = { s with reads := s.reads ++ [.reg r.offset (s.readReg r)], draws := t.draws } ∧
      (∀ q, t.regValue q = s.regValue q) ∧ (s.busy = false → s.readReg r = s.regValue r ∧ t.draws = s.draws)

/-- R27, R28, R32 to R37, R134: at every time ID, CMD, CTRL and the argument registers read their defined values, and
STATUS reads BUSY, DONE, OVERRUN, ERR and IRQ as they stand, its reserved bits 0. While BUSY = 0 the two derived bits of
STATUS, the result and error registers (each 64-bit pair split at bit 32), TOTAL, NSYM, NNODES, ROOT and FREQ read what
they hold. -/
def Obligations.DefinedRegistersReadAtEveryTime : Prop :=
  ∀ s : State,
    s.readReg .id = 0x48554631 ∧ s.readReg .cmd = s.cmd ∧ (s.readReg .ctrl = if s.ie then 1 else 0) ∧
    s.readReg .srcAddr = s.srcAddr ∧ s.readReg .srcLen = s.srcLen ∧ s.readReg .dstAddr = s.dstAddr ∧
    s.readReg .dstCap = s.dstCap ∧ s.readReg .bitcntLo = s.bitcntLo ∧ s.readReg .bitcntHi = s.bitcntHi ∧
    (s.readReg .status).getLsbD 0 = s.busy ∧ (s.readReg .status).getLsbD 1 = s.done ∧
    (s.readReg .status).getLsbD 2 = s.overrun ∧ (s.readReg .status).getLsbD 3 = false ∧
    (s.readReg .status).extractLsb' 4 4 = s.err ∧ (s.readReg .status).getLsbD 10 = s.irq ∧
    (s.readReg .status).extractLsb' 11 21 = 0 ∧
    (s.busy = false →
      ((s.readReg .status).getLsbD 8 = true ↔ s.tree.nnodes ≠ 0) ∧
      ((s.readReg .status).getLsbD 9 = true ↔ ∃ c : Byte, Table.look s.book.len c ≠ 0) ∧
      (s.readReg .resBitsLo).toNat = s.resBits.toNat % 2 ^ 32 ∧
      (s.readReg .resBitsHi).toNat = s.resBits.toNat / 2 ^ 32 ∧ s.readReg .resBytes = s.resBytes ∧
      (s.readReg .errInfoLo).toNat = s.errInfo.toNat % 2 ^ 32 ∧
      (s.readReg .errInfoHi).toNat = s.errInfo.toNat / 2 ^ 32 ∧ (s.readReg .errSym).toNat = s.errSym.toNat ∧
      s.readReg .total = s.table.total ∧ (s.readReg .nsym).toNat = s.table.nsym.toNat ∧
      (s.readReg .nnodes).toNat = s.tree.nnodes.toNat ∧ (s.readReg .root).toNat = s.tree.root.toNat ∧
      ∀ c : Byte, s.readReg (.freq c) = Table.look s.table.freq c)

/-- R106: WAIT reads STATUS until BUSY reads 0: while BUSY = 1 it stays the host's next move and changes no element of
the machine, and with BUSY = 0 it is done. The host's list of moves and the count of draws are the model's own
(notes/assumptions/5.md and 6.md). -/
def Obligations.WaitRepeatsWhileBusy : Prop :=
  ∀ s : State,
    (s.busy = false → State.hostOp s .wait = .next s) ∧
    (s.busy = true → ∃ t, State.hostOp s .wait = .next t ∧ t = { s with host := .wait :: s.host, draws := t.draws } ∧
      ∀ r, t.regValue r = s.regValue r)

/-- R130: a register access is refused exactly when it is not an aligned 32-bit access inside the block. -/
def Obligations.RegisterAccessRefusedIffIllFormed : Prop :=
  ∀ (s : State) (width : AccessWidth) (addr : Nat) (v : Word),
    ((∃ r, State.hostOp s (.regRead width addr) = .refused r) ↔ s.platform.registerAccessWf width addr = false) ∧
    ((∃ r, State.hostOp s (.regWrite width addr v) = .refused r) ↔ s.platform.registerAccessWf width addr = false)

/-- R40, R41: what the node window reads: 0 for an invalid slot; for a leaf VALID, LEAF and its symbol; for an
internal node VALID and its children's indices, every other bit 0; and the node's weight. -/
def Obligations.NodeWindowShowsTheArena : Prop :=
  ∀ (s : State) (i : Fin 511), s.busy = false →
    (s.tree.nnodes.toNat ≤ i.val → s.readReg (.nodeA i) = 0 ∧ s.readReg (.nodeW i) = 0) ∧
    (i.val < s.tree.nnodes.toNat →
      (∀ sym w, Arena.slot s.tree.node i.val = .leaf sym w →
        (s.readReg (.nodeA i)).toNat = 2 ^ 31 + 2 ^ 30 + sym.toNat ∧ s.readReg (.nodeW i) = w) ∧
      ∀ l r w, Arena.slot s.tree.node i.val = .internal l r w →
        (s.readReg (.nodeA i)).toNat = 2 ^ 31 + r.toNat * 2 ^ 17 + l.toNat * 2 ^ 8 ∧ s.readReg (.nodeW i) = w)

/-- R42, R43, R204: CODE_LEN[s] reads the length; bit k of CODE_BITS[s][j] is bit 32·j + k of CODE_VAL[s]; and code(s)
is the string of CODE_LEN[s] bits whose bit m is bit CODE_LEN[s] − 1 − m of CODE_VAL[s]. -/
def Obligations.CodeWindowsShowTheCodebook : Prop :=
  ∀ (s : State) (c : Byte), s.busy = false →
    (s.readReg (.codeLen c)).toNat = (Table.look s.book.len c).toNat ∧
    (∀ (j : Fin 8) (k : Nat), k < 32 →
      (s.readReg (.codeBits c j)).getLsbD k = (Table.look s.book.val c).getLsbD (32 * j.val + k)) ∧
    (s.book.code c).length = (Table.look s.book.len c).toNat ∧
    ∀ m < (Table.look s.book.len c).toNat,
      (s.book.code c)[m]? = some ((Table.look s.book.val c).getLsbD ((Table.look s.book.len c).toNat - 1 - m))

/-! ### Host access to data memory -/

/-- R82 (c), R351, R77: a host read or write of a byte in the running command's read or write range is HOST_BUFFER_RACE.
The read range of COUNT, SETUP, ENCODE and BITLEN is [L.SRC_ADDR, L.SRC_ADDR + L.SRC_LEN), that of DECODE
[L.SRC_ADDR, L.SRC_ADDR + ceil_div(N, 8)); what ENCODE and DECODE write when they succeed starts at L.DST_ADDR and is
RES_BYTES long. What the ranges are for a command that will end in an error, and that the race is reported first, are the
model's reading (notes/assumptions/9.md and 21.md). -/
def Obligations.TouchingALiveBufferIsARace : Prop :=
  ∀ (s : State) (i : Instr), s.busy = true → decode s.latch.cmd = .ok i →
    (∀ (a : Word) (v : Byte), a.toNat < s.platform.memSize →
      (i ∈ [Instr.count, .setup, .encode, .bitlen] ∧ s.src ≤ a.toNat ∧ a.toNat < s.src + s.srcCount ∨
        i = .decode ∧ s.src ≤ a.toNat ∧ a.toNat < s.src + bytesFor s.bitCount ∨
        (s.writeRange i).1 ≤ a.toNat ∧ a.toNat < (s.writeRange i).1 + (s.writeRange i).2) →
      State.hostOp s (.memRead a) = .fault .hostBufferRace ∧ State.hostOp s (.memWrite a v) = .fault .hostBufferRace) ∧
    ((i = .encode ∨ i = .decode) → ∀ t, exec i s = .next t → t.err = 0 → s.writeRange i = (s.dst, t.resBytes.toNat))

/-- R82 (d), R70: any other access of the host's to a byte that exists goes on: a read records the byte, a write changes
that byte and no other, and neither touches a register. Where the byte is outside the contract of R72 and R83 the value
read is unspecified, and so is what the byte holds after a write. Which bytes a command that will end in an error uses, the
record of a read, and what happens outside the contract are the model's own (notes/assumptions/9.md, 10.md and 21.md). -/
def Obligations.OtherHostMemoryAccessGoesOn : Prop :=
  ∀ (s : State) (a : Word) (v : Byte), Memory.wf s.mem → a.toNat < s.platform.memSize → s.live a.toNat = false →
    (s.platform.usable a.toNat 1 = true →
      State.hostOp s (.memRead a) = .next { s with reads := s.reads ++ [.mem a (s.mem.read a.toNat)] } ∧
      ∃ t, State.hostOp s (.memWrite a v) = .next t ∧ t.mem.read a.toNat = v ∧ s.SameBytesOutside t a.toNat 1 ∧
        t = { s with mem := t.mem }) ∧
    (s.platform.usable a.toNat 1 = false →
      (∃ t w, State.hostOp s (.memRead a) = .next t ∧ t = { s with reads := s.reads ++ [.mem a w], draws := t.draws }) ∧
      ∃ t, State.hostOp s (.memWrite a v) = .next t ∧ s.SameBytesOutside t a.toNat 1 ∧
        t = { s with mem := t.mem, draws := t.draws })

/-- R72: memory returns the last value written, and a write leaves every other byte alone; the canonical form is kept,
and two memories in canonical form that read alike are one. The canonical form is the model's own
(notes/assumptions/13.md). -/
def Obligations.MemoryReturnsTheLastByteWritten : Prop :=
  (∀ (m : Memory) (a b : Nat) (v : Byte), Memory.wf m →
    Memory.wf (m.write a v) ∧ (m.write a v).read b = if b = a then v else m.read b) ∧
  ∀ m m' : Memory, Memory.wf m → Memory.wf m' → (∀ a, m.read a = m'.read a) → m = m'

/-! ### Reset -/

/-- R24, R340: after reset ID reads 0x48554631 and every other word of the block reads 0; irq = 0. -/
def Obligations.ResetRegistersReadTheirResetValues : Prop :=
  ∀ (p : Platform) (m : Memory),
    (∀ r : Reg, (State.resetOn p m).readReg r = if r = .id then 0x48554631 else 0) ∧ (State.resetOn p m).irq = false

/-- R340: reset from any state puts every register at its reset value and irq at 0, so that the block waits for an
issue with its interrupt masked; with BUSY = 0 data memory is unchanged, byte for byte. -/
def Obligations.HardResetFromEveryState : Prop :=
  ∀ s : State,
    ∃ t, State.hostOp s .assertReset = .next t ∧ (∀ r : Reg, t.readReg r = if r = .id then 0x48554631 else 0) ∧
      t.irq = false ∧ t.busy = false ∧ t.ie = false ∧ (s.busy = false → s.SameBytes t)

/-- R341, R71: reset leaves every byte outside the write range of the command it abandons; the bytes inside are free
values, of which nothing is said (notes/assumptions/7.md and 9.md). The platform and the host's remaining program go
on. -/
def Obligations.ResetUnspecifiesOnlyTheAbandonedRange : Prop :=
  ∀ s : State, Memory.wf s.mem →
    ∃ t, State.hostOp s .assertReset = .next t ∧
      (∀ i, s.busy = true → decode s.latch.cmd = .ok i → s.SameBytesOutside t (s.writeRange i).1 (s.writeRange i).2) ∧
      ((∀ i, decode s.latch.cmd ≠ .ok i) → s.SameBytes t) ∧ Memory.wf t.mem ∧ t.platform = s.platform ∧
      t.host = s.host ∧ t.turns = s.turns

/-- R340, R46: the state after reset meets the invariant, on every platform and launch memory that meet R6 and R70. -/
def Obligations.ResetStateMeetsTheInvariant : Prop :=
  ∀ (p : Platform) (m : Memory), p.wf = true → Memory.wf m → (∀ c ∈ m, c.1 < p.memSize) → (State.resetOn p m).Inv

/-! ### The commands -/

/-- R160: COUNT on a source in range, inside the contract of R72 and R83, replaces the table by the counts of the
source's bytes, with TOTAL = SRC_LEN and NSYM the number of distinct bytes, empties the tree and the codebook, and
leaves memory and the host's registers alone. -/
def Obligations.CountReplacesTheTable : Prop :=
  ∀ s : State, inRange s.platform.memSize s.src s.srcCount = true → s.platform.usable s.src s.srcCount = true →
    ∃ t, exec .count s = .next t ∧ t.SucceededWith 0 0 ∧
      (∀ c : Byte, (Table.look t.table.freq c).toNat = s.sourceData.count c) ∧ t.table.total = s.latch.srcLen ∧
      t.table.nsym.toNat = (allSymbols.filter fun c => decide (c ∈ s.sourceData)).length ∧
      t.tree = CodeTree.absent ∧ t.book = CodeBook.empty ∧ t.mem = s.mem ∧ s.SameHostSide t

/-- R180: BUILD leaves build(FREQ) as the tree and an empty codebook; TREE_PRESENT = 1 iff a symbol is present and
CB_PRESENT = 0; the table, memory and the host's registers stay. It raises nothing. -/
def Obligations.BuildReplacesTheTree : Prop :=
  ∀ s : State, ∃ t, exec .build s = .next t ∧ t.SucceededWith 0 0 ∧ t.tree = buildTree s.table.freq ∧
    t.book = CodeBook.empty ∧ (t.tree.present = true ↔ ∃ c : Byte, Table.look s.table.freq c ≠ 0) ∧
    t.book.present = false ∧ t.table = s.table ∧ t.mem = s.mem ∧ s.SameHostSide t

/-- R200: GENERATE fills the codebook from the tree and raises nothing. From a built tree each leaf's symbol gets its
root-to-leaf path, "0" for a single leaf, and every other symbol no code; CB_PRESENT = 1 iff NNODES ≥ 1. -/
def Obligations.GenerateFillsTheCodebook : Prop :=
  ∀ s : State, ∃ t, exec .generate s = .next t ∧ t.SucceededWith 0 0 ∧ t.book = generateBook s.tree ∧
    (∀ F : Table Word, s.tree = buildTree F →
      (∀ c ∈ s.tree.codes, t.book.code c.1 = c.2 ∧ (Table.look t.book.len c.1).toNat = c.2.length) ∧
      (∀ c : Byte, Table.look F c = 0 → Table.look t.book.len c = 0) ∧
      (t.book.present = true ↔ s.tree.nnodes ≠ 0)) ∧
    t.table = s.table ∧ t.tree = s.tree ∧ t.mem = s.mem ∧ s.SameHostSide t

/-- R280, R107: on a source in range, inside the contract of R72 and R83, SETUP completes, and leaves the state that
COUNT, BUILD and GENERATE leave one after the other. -/
def Obligations.SetupIsCountBuildGenerate : Prop :=
  ∀ s : State, inRange s.platform.memSize s.src s.srcCount = true → s.platform.usable s.src s.srcCount = true →
    ∃ t a b, exec .setup s = .next t ∧ exec .count s = .next a ∧ exec .build a = .next b ∧
      exec .generate b = .next t ∧ t.SucceededWith 0 0 ∧ t.mem = s.mem ∧ s.SameHostSide t

/-- R220, R221, R74: ENCODE of bytes that all have codes, into a destination with room, in range and apart from the
source, both buffers inside the contract of R72 and R83, writes the concatenated codes bit by bit, most significant
first, with the padding bits 0; RES_BITS is their number and RES_BYTES the bytes written. No other byte, and none of
the structures or the host's registers, changes. -/
def Obligations.EncodePacksTheCodes : Prop :=
  ∀ s : State, Memory.wf s.mem → inRange s.platform.memSize s.src s.srcCount = true →
    s.platform.usable s.src s.srcCount = true → (∀ c ∈ s.sourceData, Table.look s.book.len c ≠ 0) →
    bytesFor (s.book.bitLength s.sourceData) ≤ s.capacity →
    inRange s.platform.memSize s.dst (bytesFor (s.book.bitLength s.sourceData)) = true →
    overlap s.src s.srcCount s.dst (bytesFor (s.book.bitLength s.sourceData)) = false →
    s.platform.usable s.dst (bytesFor (s.book.bitLength s.sourceData)) = true →
    ∃ t, exec .encode s = .next t ∧
      t.SucceededWith (s.book.bitLength s.sourceData) (bytesFor (s.book.bitLength s.sourceData)) ∧
      (∀ k < s.book.bitLength s.sourceData,
        (s.sourceData.flatMap s.book.code)[k]? = some (t.mem.payloadBit s.dst k)) ∧
      (∀ k, s.book.bitLength s.sourceData ≤ k → k < 8 * bytesFor (s.book.bitLength s.sourceData) →
        t.mem.payloadBit s.dst k = false) ∧
      s.SameBytesOutside t s.dst (bytesFor (s.book.bitLength s.sourceData)) ∧ s.SameStructures t ∧ s.SameHostSide t

/-- R230: BITLEN of bytes that all have codes, in range and inside the contract of R72 and R83, reports the sum of
their code lengths in RES_BITS, with RES_BYTES = 0, and changes nothing else. -/
def Obligations.BitlenSumsTheCodeLengths : Prop :=
  ∀ s : State, inRange s.platform.memSize s.src s.srcCount = true → s.platform.usable s.src s.srcCount = true →
    (∀ c ∈ s.sourceData, Table.look s.book.len c ≠ 0) →
    ∃ t, exec .bitlen s = .next t ∧ t.SucceededWith (s.book.bitLength s.sourceData) 0 ∧ s.SameStructures t ∧
      t.mem = s.mem ∧ s.SameHostSide t

/-- R301: ENCODE and BITLEN of a source in range, inside the contract of R72 and R83, raise UnknownSymbol at the
lowest index whose byte has no code, with ERR_INFO the index and ERR_SYM the byte, before any check of the
destination; memory and the structures stay. -/
def Obligations.UnknownSymbolAtTheLowestIndex : Prop :=
  ∀ (s : State) (i : Instr) (k : Nat) (c : Byte), i = .encode ∨ i = .bitlen →
    inRange s.platform.memSize s.src s.srcCount = true → s.platform.usable s.src s.srcCount = true →
    s.sourceData[k]? = some c → Table.look s.book.len c = 0 →
    (∀ j < k, ∀ d, s.sourceData[j]? = some d → Table.look s.book.len d ≠ 0) →
    ∃ t, exec i s = .next t ∧ t.FailedWith 1 k c ∧ s.SameStructures t ∧ t.mem = s.mem ∧ s.SameHostSide t

/-- R250, R252: over a built tree with k ≥ 2 leaves, DECODE of a payload that is a sequence of the tree's codewords,
into a destination with room, in range and apart from the payload, both buffers inside the contract of R72 and R83,
writes their symbols in order, RES_BITS = N and RES_BYTES their number; nothing outside the bytes written, and none of
the structures or the host's registers, changes. An empty payload (N = 0) is the empty sequence. -/
def Obligations.DecodeWritesTheSymbolsOfTheCodewords : Prop :=
  ∀ (s : State) (F : Table Word) (cs : List (Byte × List Bool)), Memory.wf s.mem → s.tree = buildTree F →
    2 ≤ (presentSymbols F).length → (∀ c ∈ cs, c ∈ s.tree.codes) →
    s.mem.payloadBits s.src s.bitCount = cs.flatMap Prod.snd →
    inRange s.platform.memSize s.src s.srcCount = true → s.bitCount ≤ 8 * s.srcCount →
    s.platform.usable s.src (bytesFor s.bitCount) = true → cs.length ≤ s.capacity →
    inRange s.platform.memSize s.dst cs.length = true →
    overlap s.src (bytesFor s.bitCount) s.dst cs.length = false → s.platform.usable s.dst cs.length = true →
    ∃ t, exec .decode s = .next t ∧ t.SucceededWith s.bitCount cs.length ∧
      (∀ j < cs.length, (cs.map Prod.fst)[j]? = some (t.mem.read (s.dst + j))) ∧
      s.SameBytesOutside t s.dst cs.length ∧ s.SameStructures t ∧ s.SameHostSide t

/-- R251, R250: with a single-leaf tree DECODE emits the leaf's symbol for each of the N payload bits, whatever their
values, into a destination with room, in range and apart from the payload, both buffers inside the contract of R72 and
R83; no other byte, and none of the structures or the host's registers, changes. -/
def Obligations.SingleLeafDecodeEmitsPerBit : Prop :=
  ∀ (s : State) (sym : Byte) (w : Word), Memory.wf s.mem → s.tree.nnodes = 1 →
    Arena.slot s.tree.node 0 = .leaf sym w → inRange s.platform.memSize s.src s.srcCount = true →
    s.bitCount ≤ 8 * s.srcCount → s.platform.usable s.src (bytesFor s.bitCount) = true → s.bitCount ≤ s.capacity →
    inRange s.platform.memSize s.dst s.bitCount = true →
    overlap s.src (bytesFor s.bitCount) s.dst s.bitCount = false → s.platform.usable s.dst s.bitCount = true →
    ∃ t, exec .decode s = .next t ∧ t.SucceededWith s.bitCount s.bitCount ∧
      (∀ j < s.bitCount, t.mem.read (s.dst + j) = sym) ∧ s.SameBytesOutside t s.dst s.bitCount ∧
      s.SameStructures t ∧ s.SameHostSide t

/-- R250, R252, R302: over a built tree with k ≥ 2 leaves every payload, in range and inside the contract of R72 and R83, is
a sequence of codewords, and then it decodes to their symbols in order; or it ends inside one, and then DECODE raises
TruncatedStream with ERR_INFO the bit at which that codeword began. No other decode error exists. -/
def Obligations.PayloadIsCodewordsOrTruncated : Prop :=
  ∀ (s : State) (F : Table Word), s.tree = buildTree F → 2 ≤ (presentSymbols F).length →
    inRange s.platform.memSize s.src s.srcCount = true → s.bitCount ≤ 8 * s.srcCount →
    s.platform.usable s.src (bytesFor s.bitCount) = true →
    ∃ (cs : List (Byte × List Bool)) (rest : List Bool), (∀ c ∈ cs, c ∈ s.tree.codes) ∧
      s.mem.payloadBits s.src s.bitCount = cs.flatMap Prod.snd ++ rest ∧
      (rest = [] ∧ s.decodeStream = .ok (cs.map Prod.fst) ∨
        (∃ c ∈ s.tree.codes, rest <+: c.2 ∧ rest ≠ c.2) ∧
        ∃ t, exec .decode s = .next t ∧ t.FailedWith 2 (cs.flatMap Prod.snd).length 0 ∧ s.SameStructures t ∧
          t.mem = s.mem ∧ s.SameHostSide t)

/-- R250, R302: with an absent tree DECODE of a payload of N ≥ 1 bits raises CorruptTree, and DECODE of N = 0 bits
succeeds with nothing written, as it does with any tree. -/
def Obligations.DecodeWithAbsentTree : Prop :=
  ∀ s : State, inRange s.platform.memSize s.src s.srcCount = true → s.bitCount ≤ 8 * s.srcCount →
    (s.tree.nnodes = 0 → s.bitCount ≠ 0 →
      ∃ t, exec .decode s = .next t ∧ t.FailedWith 3 0 0 ∧ s.SameStructures t ∧ t.mem = s.mem ∧ s.SameHostSide t) ∧
    (s.bitCount = 0 →
      ∃ t, exec .decode s = .next t ∧ t.SucceededWith 0 0 ∧ s.SameStructures t ∧ t.mem = s.mem ∧ s.SameHostSide t)

/-- R285: CLEAR returns the table, tree and codebook to their reset values and zeroes the result registers; it changes
no host register and no byte, and raises nothing. -/
def Obligations.ClearEmptiesTheEngine : Prop :=
  ∀ s : State, ∃ t, exec .clear s = .next t ∧ t.SucceededWith 0 0 ∧
    (∀ r : Reg, r ∈ [Reg.total, .nsym, .nnodes, .root] ∨ (∃ c, r = .freq c) ∨ (∃ c, r = .codeLen c) ∨
      (∃ c j, r = .codeBits c j) ∨ (∃ i, r = .nodeA i) ∨ (∃ i, r = .nodeW i) → t.readReg r = 0) ∧
    t.tree.present = false ∧ t.book.present = false ∧ t.mem = s.mem ∧ s.SameHostSide t

/-- R305: an empty source is no error: whatever the addresses, the capacity and the codebook, COUNT and SETUP leave an
empty table and an absent tree, ENCODE and BITLEN give 0 bits, and DECODE with N = 0 gives empty output, each with ERR
= 0 and no byte written. -/
def Obligations.EmptyInputIsNotAnError : Prop :=
  ∀ s : State,
    (s.srcCount = 0 → ∀ i ∈ [Instr.count, .setup],
      ∃ t, exec i s = .next t ∧ t.SucceededWith 0 0 ∧ t.table.total = 0 ∧ t.table.nsym = 0 ∧
        (∀ c : Byte, Table.look t.table.freq c = 0) ∧ t.tree.nnodes = 0 ∧ t.tree.root = 0 ∧ t.book.present = false ∧
        t.mem = s.mem) ∧
    (s.srcCount = 0 → ∀ i ∈ [Instr.encode, .bitlen],
      ∃ t, exec i s = .next t ∧ t.SucceededWith 0 0 ∧ t.mem = s.mem) ∧
    (s.bitCount = 0 → inRange s.platform.memSize s.src s.srcCount = true →
      ∃ t, exec .decode s = .next t ∧ t.SucceededWith 0 0 ∧ t.mem = s.mem)

/-- R352: BUILD empties the codebook and COUNT the tree and the codebook, so that an ENCODE or BITLEN of a non-empty
source in range issued next raises UnknownSymbol at index 0, and after COUNT a DECODE of a non-empty payload raises
CorruptTree: the hazard is never silent. -/
def Obligations.StaleCodebookIsReported : Prop :=
  ∀ (s t : State) (i : Instr) (le : Latch), i = .build ∨ i = .count → exec i s = .next t → t.err = 0 →
    inRange s.platform.memSize le.srcAddr.toNat le.srcLen.toNat = true →
    (s.platform.usable le.srcAddr.toNat le.srcLen.toNat = true → le.srcLen ≠ 0 → ∀ j ∈ [Instr.encode, .bitlen],
      ∃ u, exec j { t with latch := le } = .next u ∧ u.FailedWith 1 0 (s.mem.read le.srcAddr.toNat)) ∧
    (i = .count → le.bitcnt ≠ 0 → le.bitcnt.toNat ≤ 8 * le.srcLen.toNat →
      ∃ u, exec .decode { t with latch := le } = .next u ∧ u.FailedWith 3 0 0)

/-! ### Errors -/

/-- R304 detail 1: a source out of range ends COUNT, SETUP, ENCODE, BITLEN and DECODE with RangeError (code 5),
ERR_INFO = 1, before any other check; the table, tree, codebook and memory stay. -/
def Obligations.SourceOutOfRangeIsRangeErrorOne : Prop :=
  ∀ (s : State) (i : Instr), i ∈ [Instr.count, .setup, .encode, .bitlen, .decode] →
    inRange s.platform.memSize s.src s.srcCount = false →
    ∃ t, exec i s = .next t ∧ t.FailedWith 5 1 0 ∧ s.SameStructures t ∧ t.mem = s.mem ∧ s.SameHostSide t

/-- R304, R310: once ENCODE's data checks pass, on a source inside the contract of R72 and R83, its destination errors
come in the order capacity (3), range (4), overlap (5), each with nothing written. -/
def Obligations.EncodeDestinationErrorsInOrder : Prop :=
  ∀ s : State, inRange s.platform.memSize s.src s.srcCount = true → s.platform.usable s.src s.srcCount = true →
    (∀ c ∈ s.sourceData, Table.look s.book.len c ≠ 0) →
    (s.capacity < bytesFor (s.book.bitLength s.sourceData) →
      ∃ t, exec .encode s = .next t ∧ t.FailedWith 5 3 0 ∧ s.SameStructures t ∧ t.mem = s.mem) ∧
    (bytesFor (s.book.bitLength s.sourceData) ≤ s.capacity →
      inRange s.platform.memSize s.dst (bytesFor (s.book.bitLength s.sourceData)) = false →
      ∃ t, exec .encode s = .next t ∧ t.FailedWith 5 4 0 ∧ s.SameStructures t ∧ t.mem = s.mem) ∧
    (bytesFor (s.book.bitLength s.sourceData) ≤ s.capacity →
      inRange s.platform.memSize s.dst (bytesFor (s.book.bitLength s.sourceData)) = true →
      overlap s.src s.srcCount s.dst (bytesFor (s.book.bitLength s.sourceData)) = true →
      ∃ t, exec .encode s = .next t ∧ t.FailedWith 5 5 0 ∧ s.SameStructures t ∧ t.mem = s.mem)

/-- R304, R310: DECODE's RangeErrors in order: a payload shorter than its bit count (2) before the data is decoded,
and once it is decoded to `out`, capacity (3), range (4) and overlap (5), each with nothing written. -/
def Obligations.DecodeRangeErrorsInOrder : Prop :=
  ∀ s : State, inRange s.platform.memSize s.src s.srcCount = true →
    (8 * s.srcCount < s.bitCount →
      ∃ t, exec .decode s = .next t ∧ t.FailedWith 5 2 0 ∧ s.SameStructures t ∧ t.mem = s.mem) ∧
    ∀ out, s.bitCount ≤ 8 * s.srcCount → s.decodeStream = .ok out →
      (s.capacity < out.length →
        ∃ t, exec .decode s = .next t ∧ t.FailedWith 5 3 0 ∧ s.SameStructures t ∧ t.mem = s.mem) ∧
      (out.length ≤ s.capacity → inRange s.platform.memSize s.dst out.length = false →
        ∃ t, exec .decode s = .next t ∧ t.FailedWith 5 4 0 ∧ s.SameStructures t ∧ t.mem = s.mem) ∧
      (out.length ≤ s.capacity → inRange s.platform.memSize s.dst out.length = true →
        overlap s.src (bytesFor s.bitCount) s.dst out.length = true →
        ∃ t, exec .decode s = .next t ∧ t.FailedWith 5 5 0 ∧ s.SameStructures t ∧ t.mem = s.mem)

/-- R315, R138, R300: whichever command ends in an error, the state is the state at issue plus the error record: ERR
(1 to 5), ERR_INFO and ERR_SYM, with RES_BITS and RES_BYTES 0, BUSY = 0 and DONE = 1. CMD, and every other element, is
as it was. -/
def Obligations.ErrorCompletionLeavesTheStateAtIssue : Prop :=
  ∀ (i : Instr) (s t : State), exec i s = .next t → t.err ≠ 0 →
    1 ≤ t.err.toNat ∧ t.err.toNat ≤ 5 ∧
      t = { s with err := t.err, errInfo := t.errInfo, errSym := t.errSym, resBits := 0, resBytes := 0, busy := false,
                   done := true }

/-! ### What every command leaves alone -/

/-- R21, R34, R137, R138, R315: no command writes CMD, OVERRUN, CTRL, an argument register or L; only COUNT, SETUP and
CLEAR write the table, only these and BUILD the tree, only these and GENERATE the codebook (R35, R36, R38, R42, R281).
-/
def Obligations.CommandsWriteOnlyTheirOwnState : Prop :=
  ∀ (i : Instr) (s t : State), exec i s = .next t →
    s.SameHostSide t ∧
    (i ∉ [Instr.count, .setup, .clear] → t.table = s.table) ∧
    (i ∉ [Instr.count, .setup, .clear, .build] → t.tree = s.tree) ∧
    (i ∉ [Instr.count, .setup, .clear, .build, .generate] → t.book = s.book)

/-- R77, R78, R79: a command changes no byte outside its write range, which does not overlap its read range; every
command but ENCODE and DECODE leaves memory as it is. -/
def Obligations.CommandsWriteOnlyTheirWriteRange : Prop :=
  ∀ (i : Instr) (s t : State), Memory.wf s.mem → exec i s = .next t →
    s.SameBytesOutside t (s.writeRange i).1 (s.writeRange i).2 ∧
    overlap (s.readRange i).1 (s.readRange i).2 (s.writeRange i).1 (s.writeRange i).2 = false ∧
    (i ≠ .encode → i ≠ .decode → t.mem = s.mem)

/-- R34, R101, R136: a command's result is a function of its operands: from two states that agree on them, whatever
else differs (the live argument registers, the rest of memory, the other structures), it ends the same way, with the
same result and error registers, and, when it succeeds, the same structures written and the same bytes in its write
range. -/
def Obligations.CommandResultDependsOnlyOnItsOperands : Prop :=
  ∀ (i : Instr) (s u t : State), Memory.wf s.mem → Memory.wf u.mem → AgreeOnOperands i s u → exec i s = .next t →
    ∃ v, exec i u = .next v ∧ t.resBits = v.resBits ∧ t.resBytes = v.resBytes ∧ t.errInfo = v.errInfo ∧
      t.errSym = v.errSym ∧ t.err = v.err ∧
      (t.err = 0 →
        (i ∈ [Instr.count, .setup, .clear] → t.table = v.table) ∧
        (i ∈ [Instr.count, .setup, .clear, .build] → t.tree = v.tree) ∧
        (i ∈ [Instr.count, .setup, .clear, .build, .generate] → t.book = v.book) ∧
        (i ∈ [Instr.encode, .decode] → ∀ j < t.resBytes.toNat, t.mem.read (s.dst + j) = v.mem.read (s.dst + j)))

/-! ### Headline statements -/

/-- R12, R35, R46, R27, R70: every step that goes on keeps the invariant: memory in canonical form and inside
MEM_SIZE, TOTAL and NSYM the sum and count of FREQ, the tree build(FREQ) or absent, the codebook generate(tree) or
empty, ERR at most 5, and DONE and ERR clear while BUSY. -/
def Obligations.StepKeepsTheInvariant : Prop :=
  ∀ s t : State, s.Inv → step s = .next t → t.Inv

/-- R37, R38, R39, R181 to R184, R186: for a table with TOTAL and NSYM as R35 says and a symbol present, build(FREQ) is the
CodeTree of the table, each internal node combines the two least of the nodes not yet combined, by weight and then index,
the least being the left child, and the weight of ROOT is TOTAL. -/
def Obligations.BuiltTreeIsTheCodeTree : Prop :=
  ∀ t : FreqTable, t.Consistent → t.nsym ≠ 0 →
    (buildTree t.freq).TreeOf t.freq ∧
      (Arena.slot (buildTree t.freq).node (buildTree t.freq).root.toNat).weight = t.total

/-- R202, R203: in the codebook generated from a built tree a symbol has a code iff it is present, no code is a prefix
of another's, each has 1 to k − 1 bits (one when k = 1), and the Kraft sum is 1 for k ≥ 2 and 1/2 for k = 1 (here
scaled by 2^255). -/
def Obligations.CodesArePrefixFreeAndComplete : Prop :=
  ∀ F : Table Word,
    (∀ c : Byte, Table.look (generateBook (buildTree F)).len c ≠ 0 ↔ Table.look F c ≠ 0) ∧
    (∀ c d : Byte, Table.look F c ≠ 0 → Table.look F d ≠ 0 → c ≠ d →
      ¬ (generateBook (buildTree F)).code c <+: (generateBook (buildTree F)).code d) ∧
    (∀ c : Byte, Table.look F c ≠ 0 → 1 ≤ ((generateBook (buildTree F)).code c).length ∧
      ((generateBook (buildTree F)).code c).length ≤ max 1 ((presentSymbols F).length - 1)) ∧
    ((presentSymbols F).map fun c => 2 ^ (255 - ((generateBook (buildTree F)).code c).length)).sum =
      if 2 ≤ (presentSymbols F).length then 2 ^ 255 else if (presentSymbols F).length = 1 then 2 ^ 254 else 0

/-- R254: SETUP on the bytes of a source in range, ENCODE of the same bytes to a destination in range, large enough
and apart from them, then DECODE of the payload with the bit count ENCODE reported, to a destination of capacity at
least n, in range and apart from the payload, every buffer inside the contract of R72 and R83: each succeeds, and
DECODE writes exactly the source's bytes, RES_BYTES = n. -/
def Obligations.DecodeOfEncodeIsTheInput : Prop :=
  ∀ s : State, Memory.wf s.mem → inRange s.platform.memSize s.src s.srcCount = true →
    s.platform.usable s.src s.srcCount = true →
    ∃ t, exec .setup s = .next t ∧ t.err = 0 ∧
      ∀ le : Latch, le.srcAddr = s.latch.srcAddr → le.srcLen = s.latch.srcLen →
        bytesFor (t.book.bitLength s.sourceData) ≤ le.dstCap.toNat →
        inRange s.platform.memSize le.dstAddr.toNat (bytesFor (t.book.bitLength s.sourceData)) = true →
        overlap s.src s.srcCount le.dstAddr.toNat (bytesFor (t.book.bitLength s.sourceData)) = false →
        s.platform.usable le.dstAddr.toNat (bytesFor (t.book.bitLength s.sourceData)) = true →
        ∃ u, exec .encode { t with latch := le } = .next u ∧ u.err = 0 ∧
          ∀ ld : Latch, ld.srcAddr = le.dstAddr → ld.bitcnt = u.resBits → u.resBytes.toNat ≤ ld.srcLen.toNat →
            inRange s.platform.memSize ld.srcAddr.toNat ld.srcLen.toNat = true → s.srcCount ≤ ld.dstCap.toNat →
            inRange s.platform.memSize ld.dstAddr.toNat s.srcCount = true →
            overlap ld.srcAddr.toNat u.resBytes.toNat ld.dstAddr.toNat s.srcCount = false →
            s.platform.usable ld.dstAddr.toNat s.srcCount = true →
            ∃ v, exec .decode { u with latch := ld } = .next v ∧ v.err = 0 ∧ v.resBytes.toNat = s.srcCount ∧
              v.resBits = u.resBits ∧
              ∀ j < s.srcCount, v.mem.read (ld.dstAddr.toNat + j) = s.mem.read (s.src + j)

/-- R231: BITLEN succeeds iff ENCODE's pass 1 does, and fails as it does; when ENCODE completes without error BITLEN
reports the same RES_BITS. -/
def Obligations.BitlenAgreesWithEncode : Prop :=
  ∀ s t : State, exec .encode s = .next t →
    (t.err = 0 → ∃ u, exec .bitlen s = .next u ∧ u.err = 0 ∧ u.resBits = t.resBits) ∧
    (t.err ≠ 0 → (t.err ≠ 5 ∨ t.errInfo = 1) → ∃ u, exec .bitlen s = .next u ∧ u.err = t.err ∧ u.errInfo = t.errInfo ∧
      u.errSym = t.errSym) ∧
    (t.err = 5 → t.errInfo ≠ 1 → ∃ u, exec .bitlen s = .next u ∧ u.err = 0 ∧
      u.resBits.toNat = s.book.bitLength s.sourceData)

/-- R231: when the source bytes are the sample the table was counted from, BITLEN's RES_BITS is the sum over s of
FREQ[s]·CODE_LEN[s]. -/
def Obligations.SampleBitLengthIsTheWeightedSum : Prop :=
  ∀ s t : State, exec .setup s = .next t → t.err = 0 →
    ∃ u, exec .bitlen t = .next u ∧ u.err = 0 ∧
      u.resBits.toNat = (allSymbols.map fun c =>
        (Table.look t.table.freq c).toNat * (Table.look t.book.len c).toNat).sum

/-- R185, R12 (j): the tree and codebook depend on the table alone: SETUP on two sources that hold the same bytes in
any order leaves the same table, tree and codebook. -/
def Obligations.SetupIgnoresTheOrderOfTheSample : Prop :=
  ∀ s u t v : State, s.sourceData.Perm u.sourceData → exec .setup s = .next t → exec .setup u = .next v → t.err = 0 →
    v.err = 0 → t.table = v.table ∧ t.tree = v.tree ∧ t.book = v.book

/-- R181, R182: the queue yields the unique least entry by weight and then index: the queue of the leaves holds an entry for
each, in key order; inserting an entry whose index is not queued keeps the entries and the order; and each turn of the
combine loop extracts the head as the left child and the next entry as the right, and inserts the node made of them. The
queue held as a list in key order is the model's choice (notes/assumptions/16.md). -/
def Obligations.QueueYieldsLeastWeightThenLeastIndex : Prop :=
  (∀ F : Table Word, ((leafEntries F).foldr queueInsert []).Perm (leafEntries F) ∧
    ((leafEntries F).foldr queueInsert []).Pairwise
      fun x y => x.1.toNat < y.1.toNat ∨ x.1 = y.1 ∧ x.2.toNat < y.2.toNat) ∧
  (∀ (e : QueueEntry) (q : List QueueEntry),
    q.Pairwise (fun x y => x.1.toNat < y.1.toNat ∨ x.1 = y.1 ∧ x.2.toNat < y.2.toNat) → (∀ x ∈ q, e.2 ≠ x.2) →
    (queueInsert e q).Perm (e :: q) ∧
      (queueInsert e q).Pairwise fun x y => x.1.toNat < y.1.toNat ∨ x.1 = y.1 ∧ x.2.toNat < y.2.toNat) ∧
  ∀ (fuel : Nat) (nodes : List Node) (x y : QueueEntry) (q : List QueueEntry),
    combine (fuel + 1) nodes (x :: y :: q) =
      combine fuel (nodes ++ [.internal x.2 y.2 (x.1 + y.1)])
        (queueInsert (x.1 + y.1, BitVec.ofNat 9 nodes.length) q)

/-! ### Outside the contract of R72 and R83 -/

/-- R72, R83: a command that comes to access a buffer outside the contract is refused, as platformIncoherent where the
platform is not coherent and as deviceMemory where the buffer meets a range that is not idempotent memory; it comes to a
buffer only once the checks before it have passed, in the order of R310. The refusals' names and their place among the
checks are the model's reading (notes/assumptions/2.md and 14.md). -/
def Obligations.BufferOutsideTheContractIsRefused : Prop :=
  ∀ (s : State) (r : Refusal), r = (if s.platform.coherent then .deviceMemory else .platformIncoherent) →
    inRange s.platform.memSize s.src s.srcCount = true →
    (∀ i ∈ [Instr.count, .setup, .encode, .bitlen], s.platform.usable s.src s.srcCount = false →
      exec i s = .refused r) ∧
    (s.bitCount ≤ 8 * s.srcCount → s.bitCount ≠ 0 → s.tree.nnodes ≠ 0 →
      s.platform.usable s.src (bytesFor s.bitCount) = false → exec .decode s = .refused r) ∧
    (s.platform.usable s.src s.srcCount = true → (∀ c ∈ s.sourceData, Table.look s.book.len c ≠ 0) →
      bytesFor (s.book.bitLength s.sourceData) ≤ s.capacity →
      inRange s.platform.memSize s.dst (bytesFor (s.book.bitLength s.sourceData)) = true →
      overlap s.src s.srcCount s.dst (bytesFor (s.book.bitLength s.sourceData)) = false →
      s.platform.usable s.dst (bytesFor (s.book.bitLength s.sourceData)) = false → exec .encode s = .refused r) ∧
    ∀ out, s.bitCount ≤ 8 * s.srcCount → s.decodeStream = .ok out → out.length ≤ s.capacity →
      inRange s.platform.memSize s.dst out.length = true →
      overlap s.src (bytesFor s.bitCount) s.dst out.length = false → s.platform.usable s.dst out.length = false →
      exec .decode s = .refused r

end Statements
end

