-- ==== Sys2Proof/Laws/State.lean ====
section
/-! SUPPORT. One lemma per field of `State` and per update of it, so that no later proof unfolds a record update. -/

namespace Sys2Proof.Machine

/-! ### `State.issue` -/

@[simp] theorem State.issue_cmd (s : State) (w : Word) : (s.issue w).cmd = w := rfl
@[simp] theorem State.issue_busy (s : State) (w : Word) : (s.issue w).busy = true := rfl
@[simp] theorem State.issue_done (s : State) (w : Word) : (s.issue w).done = false := rfl
@[simp] theorem State.issue_overrun (s : State) (w : Word) : (s.issue w).overrun = s.overrun := rfl
@[simp] theorem State.issue_err (s : State) (w : Word) : (s.issue w).err = 0 := rfl
@[simp] theorem State.issue_ie (s : State) (w : Word) : (s.issue w).ie = s.ie := rfl
@[simp] theorem State.issue_srcAddr (s : State) (w : Word) : (s.issue w).srcAddr = s.srcAddr := rfl
@[simp] theorem State.issue_srcLen (s : State) (w : Word) : (s.issue w).srcLen = s.srcLen := rfl
@[simp] theorem State.issue_dstAddr (s : State) (w : Word) : (s.issue w).dstAddr = s.dstAddr := rfl
@[simp] theorem State.issue_dstCap (s : State) (w : Word) : (s.issue w).dstCap = s.dstCap := rfl
@[simp] theorem State.issue_bitcntLo (s : State) (w : Word) : (s.issue w).bitcntLo = s.bitcntLo := rfl
@[simp] theorem State.issue_bitcntHi (s : State) (w : Word) : (s.issue w).bitcntHi = s.bitcntHi := rfl
@[simp] theorem State.issue_resBits (s : State) (w : Word) : (s.issue w).resBits = s.resBits := rfl
@[simp] theorem State.issue_resBytes (s : State) (w : Word) : (s.issue w).resBytes = s.resBytes := rfl
@[simp] theorem State.issue_errInfo (s : State) (w : Word) : (s.issue w).errInfo = s.errInfo := rfl
@[simp] theorem State.issue_errSym (s : State) (w : Word) : (s.issue w).errSym = s.errSym := rfl
@[simp] theorem State.issue_latch (s : State) (w : Word) :
    (s.issue w).latch = { cmd := w, srcAddr := s.srcAddr, srcLen := s.srcLen, dstAddr := s.dstAddr, dstCap := s.dstCap, bitcnt := s.bitcnt } := rfl
@[simp] theorem State.issue_table (s : State) (w : Word) : (s.issue w).table = s.table := rfl
@[simp] theorem State.issue_tree (s : State) (w : Word) : (s.issue w).tree = s.tree := rfl
@[simp] theorem State.issue_book (s : State) (w : Word) : (s.issue w).book = s.book := rfl
@[simp] theorem State.issue_mem (s : State) (w : Word) : (s.issue w).mem = s.mem := rfl
@[simp] theorem State.issue_platform (s : State) (w : Word) : (s.issue w).platform = s.platform := rfl
@[simp] theorem State.issue_host (s : State) (w : Word) : (s.issue w).host = s.host := rfl
@[simp] theorem State.issue_turns (s : State) (w : Word) : (s.issue w).turns = s.turns := rfl
@[simp] theorem State.issue_reads (s : State) (w : Word) : (s.issue w).reads = s.reads := rfl
@[simp] theorem State.issue_draws (s : State) (w : Word) : (s.issue w).draws = s.draws := rfl

/-! ### `State.dropCommand` -/

@[simp] theorem State.dropCommand_cmd (s : State) : (s.dropCommand).cmd = s.cmd := rfl
@[simp] theorem State.dropCommand_busy (s : State) : (s.dropCommand).busy = s.busy := rfl
@[simp] theorem State.dropCommand_done (s : State) : (s.dropCommand).done = s.done := rfl
@[simp] theorem State.dropCommand_overrun (s : State) : (s.dropCommand).overrun = true := rfl
@[simp] theorem State.dropCommand_err (s : State) : (s.dropCommand).err = s.err := rfl
@[simp] theorem State.dropCommand_ie (s : State) : (s.dropCommand).ie = s.ie := rfl
@[simp] theorem State.dropCommand_srcAddr (s : State) : (s.dropCommand).srcAddr = s.srcAddr := rfl
@[simp] theorem State.dropCommand_srcLen (s : State) : (s.dropCommand).srcLen = s.srcLen := rfl
@[simp] theorem State.dropCommand_dstAddr (s : State) : (s.dropCommand).dstAddr = s.dstAddr := rfl
@[simp] theorem State.dropCommand_dstCap (s : State) : (s.dropCommand).dstCap = s.dstCap := rfl
@[simp] theorem State.dropCommand_bitcntLo (s : State) : (s.dropCommand).bitcntLo = s.bitcntLo := rfl
@[simp] theorem State.dropCommand_bitcntHi (s : State) : (s.dropCommand).bitcntHi = s.bitcntHi := rfl
@[simp] theorem State.dropCommand_resBits (s : State) : (s.dropCommand).resBits = s.resBits := rfl
@[simp] theorem State.dropCommand_resBytes (s : State) : (s.dropCommand).resBytes = s.resBytes := rfl
@[simp] theorem State.dropCommand_errInfo (s : State) : (s.dropCommand).errInfo = s.errInfo := rfl
@[simp] theorem State.dropCommand_errSym (s : State) : (s.dropCommand).errSym = s.errSym := rfl
@[simp] theorem State.dropCommand_latch (s : State) : (s.dropCommand).latch = s.latch := rfl
@[simp] theorem State.dropCommand_table (s : State) : (s.dropCommand).table = s.table := rfl
@[simp] theorem State.dropCommand_tree (s : State) : (s.dropCommand).tree = s.tree := rfl
@[simp] theorem State.dropCommand_book (s : State) : (s.dropCommand).book = s.book := rfl
@[simp] theorem State.dropCommand_mem (s : State) : (s.dropCommand).mem = s.mem := rfl
@[simp] theorem State.dropCommand_platform (s : State) : (s.dropCommand).platform = s.platform := rfl
@[simp] theorem State.dropCommand_host (s : State) : (s.dropCommand).host = s.host := rfl
@[simp] theorem State.dropCommand_turns (s : State) : (s.dropCommand).turns = s.turns := rfl
@[simp] theorem State.dropCommand_reads (s : State) : (s.dropCommand).reads = s.reads := rfl
@[simp] theorem State.dropCommand_draws (s : State) : (s.dropCommand).draws = s.draws := rfl

/-! ### `State.succeed` -/

@[simp] theorem State.succeed_cmd (s : State) (m n : Nat) : (s.succeed m n).cmd = s.cmd := rfl
@[simp] theorem State.succeed_busy (s : State) (m n : Nat) : (s.succeed m n).busy = false := rfl
@[simp] theorem State.succeed_done (s : State) (m n : Nat) : (s.succeed m n).done = true := rfl
@[simp] theorem State.succeed_overrun (s : State) (m n : Nat) : (s.succeed m n).overrun = s.overrun := rfl
@[simp] theorem State.succeed_err (s : State) (m n : Nat) : (s.succeed m n).err = 0 := rfl
@[simp] theorem State.succeed_ie (s : State) (m n : Nat) : (s.succeed m n).ie = s.ie := rfl
@[simp] theorem State.succeed_srcAddr (s : State) (m n : Nat) : (s.succeed m n).srcAddr = s.srcAddr := rfl
@[simp] theorem State.succeed_srcLen (s : State) (m n : Nat) : (s.succeed m n).srcLen = s.srcLen := rfl
@[simp] theorem State.succeed_dstAddr (s : State) (m n : Nat) : (s.succeed m n).dstAddr = s.dstAddr := rfl
@[simp] theorem State.succeed_dstCap (s : State) (m n : Nat) : (s.succeed m n).dstCap = s.dstCap := rfl
@[simp] theorem State.succeed_bitcntLo (s : State) (m n : Nat) : (s.succeed m n).bitcntLo = s.bitcntLo := rfl
@[simp] theorem State.succeed_bitcntHi (s : State) (m n : Nat) : (s.succeed m n).bitcntHi = s.bitcntHi := rfl
@[simp] theorem State.succeed_resBits (s : State) (m n : Nat) : (s.succeed m n).resBits = BitVec.ofNat 64 m := rfl
@[simp] theorem State.succeed_resBytes (s : State) (m n : Nat) : (s.succeed m n).resBytes = BitVec.ofNat 32 n := rfl
@[simp] theorem State.succeed_errInfo (s : State) (m n : Nat) : (s.succeed m n).errInfo = 0 := rfl
@[simp] theorem State.succeed_errSym (s : State) (m n : Nat) : (s.succeed m n).errSym = 0 := rfl
@[simp] theorem State.succeed_latch (s : State) (m n : Nat) : (s.succeed m n).latch = s.latch := rfl
@[simp] theorem State.succeed_table (s : State) (m n : Nat) : (s.succeed m n).table = s.table := rfl
@[simp] theorem State.succeed_tree (s : State) (m n : Nat) : (s.succeed m n).tree = s.tree := rfl
@[simp] theorem State.succeed_book (s : State) (m n : Nat) : (s.succeed m n).book = s.book := rfl
@[simp] theorem State.succeed_mem (s : State) (m n : Nat) : (s.succeed m n).mem = s.mem := rfl
@[simp] theorem State.succeed_platform (s : State) (m n : Nat) : (s.succeed m n).platform = s.platform := rfl
@[simp] theorem State.succeed_host (s : State) (m n : Nat) : (s.succeed m n).host = s.host := rfl
@[simp] theorem State.succeed_turns (s : State) (m n : Nat) : (s.succeed m n).turns = s.turns := rfl
@[simp] theorem State.succeed_reads (s : State) (m n : Nat) : (s.succeed m n).reads = s.reads := rfl
@[simp] theorem State.succeed_draws (s : State) (m n : Nat) : (s.succeed m n).draws = s.draws := rfl

/-! ### `State.raise` -/

@[simp] theorem State.raise_cmd (s : State) (e : CmdError) : (s.raise e).cmd = s.cmd := rfl
@[simp] theorem State.raise_busy (s : State) (e : CmdError) : (s.raise e).busy = false := rfl
@[simp] theorem State.raise_done (s : State) (e : CmdError) : (s.raise e).done = true := rfl
@[simp] theorem State.raise_overrun (s : State) (e : CmdError) : (s.raise e).overrun = s.overrun := rfl
@[simp] theorem State.raise_err (s : State) (e : CmdError) : (s.raise e).err = e.code := rfl
@[simp] theorem State.raise_ie (s : State) (e : CmdError) : (s.raise e).ie = s.ie := rfl
@[simp] theorem State.raise_srcAddr (s : State) (e : CmdError) : (s.raise e).srcAddr = s.srcAddr := rfl
@[simp] theorem State.raise_srcLen (s : State) (e : CmdError) : (s.raise e).srcLen = s.srcLen := rfl
@[simp] theorem State.raise_dstAddr (s : State) (e : CmdError) : (s.raise e).dstAddr = s.dstAddr := rfl
@[simp] theorem State.raise_dstCap (s : State) (e : CmdError) : (s.raise e).dstCap = s.dstCap := rfl
@[simp] theorem State.raise_bitcntLo (s : State) (e : CmdError) : (s.raise e).bitcntLo = s.bitcntLo := rfl
@[simp] theorem State.raise_bitcntHi (s : State) (e : CmdError) : (s.raise e).bitcntHi = s.bitcntHi := rfl
@[simp] theorem State.raise_resBits (s : State) (e : CmdError) : (s.raise e).resBits = 0 := rfl
@[simp] theorem State.raise_resBytes (s : State) (e : CmdError) : (s.raise e).resBytes = 0 := rfl
@[simp] theorem State.raise_errInfo (s : State) (e : CmdError) : (s.raise e).errInfo = e.info := rfl
@[simp] theorem State.raise_errSym (s : State) (e : CmdError) : (s.raise e).errSym = e.sym := rfl
@[simp] theorem State.raise_latch (s : State) (e : CmdError) : (s.raise e).latch = s.latch := rfl
@[simp] theorem State.raise_table (s : State) (e : CmdError) : (s.raise e).table = s.table := rfl
@[simp] theorem State.raise_tree (s : State) (e : CmdError) : (s.raise e).tree = s.tree := rfl
@[simp] theorem State.raise_book (s : State) (e : CmdError) : (s.raise e).book = s.book := rfl
@[simp] theorem State.raise_mem (s : State) (e : CmdError) : (s.raise e).mem = s.mem := rfl
@[simp] theorem State.raise_platform (s : State) (e : CmdError) : (s.raise e).platform = s.platform := rfl
@[simp] theorem State.raise_host (s : State) (e : CmdError) : (s.raise e).host = s.host := rfl
@[simp] theorem State.raise_turns (s : State) (e : CmdError) : (s.raise e).turns = s.turns := rfl
@[simp] theorem State.raise_reads (s : State) (e : CmdError) : (s.raise e).reads = s.reads := rfl
@[simp] theorem State.raise_draws (s : State) (e : CmdError) : (s.raise e).draws = s.draws := rfl

/-! ### `State.resetOn` -/

@[simp] theorem State.resetOn_cmd (p : Platform) (m : Memory) : (State.resetOn p m).cmd = 0 := rfl
@[simp] theorem State.resetOn_busy (p : Platform) (m : Memory) : (State.resetOn p m).busy = false := rfl
@[simp] theorem State.resetOn_done (p : Platform) (m : Memory) : (State.resetOn p m).done = false := rfl
@[simp] theorem State.resetOn_overrun (p : Platform) (m : Memory) : (State.resetOn p m).overrun = false := rfl
@[simp] theorem State.resetOn_err (p : Platform) (m : Memory) : (State.resetOn p m).err = 0 := rfl
@[simp] theorem State.resetOn_ie (p : Platform) (m : Memory) : (State.resetOn p m).ie = false := rfl
@[simp] theorem State.resetOn_srcAddr (p : Platform) (m : Memory) : (State.resetOn p m).srcAddr = 0 := rfl
@[simp] theorem State.resetOn_srcLen (p : Platform) (m : Memory) : (State.resetOn p m).srcLen = 0 := rfl
@[simp] theorem State.resetOn_dstAddr (p : Platform) (m : Memory) : (State.resetOn p m).dstAddr = 0 := rfl
@[simp] theorem State.resetOn_dstCap (p : Platform) (m : Memory) : (State.resetOn p m).dstCap = 0 := rfl
@[simp] theorem State.resetOn_bitcntLo (p : Platform) (m : Memory) : (State.resetOn p m).bitcntLo = 0 := rfl
@[simp] theorem State.resetOn_bitcntHi (p : Platform) (m : Memory) : (State.resetOn p m).bitcntHi = 0 := rfl
@[simp] theorem State.resetOn_resBits (p : Platform) (m : Memory) : (State.resetOn p m).resBits = 0 := rfl
@[simp] theorem State.resetOn_resBytes (p : Platform) (m : Memory) : (State.resetOn p m).resBytes = 0 := rfl
@[simp] theorem State.resetOn_errInfo (p : Platform) (m : Memory) : (State.resetOn p m).errInfo = 0 := rfl
@[simp] theorem State.resetOn_errSym (p : Platform) (m : Memory) : (State.resetOn p m).errSym = 0 := rfl
@[simp] theorem State.resetOn_latch (p : Platform) (m : Memory) : (State.resetOn p m).latch = Latch.atReset := rfl
@[simp] theorem State.resetOn_table (p : Platform) (m : Memory) : (State.resetOn p m).table = FreqTable.empty := rfl
@[simp] theorem State.resetOn_tree (p : Platform) (m : Memory) : (State.resetOn p m).tree = CodeTree.absent := rfl
@[simp] theorem State.resetOn_book (p : Platform) (m : Memory) : (State.resetOn p m).book = CodeBook.empty := rfl
@[simp] theorem State.resetOn_mem (p : Platform) (m : Memory) : (State.resetOn p m).mem = m := rfl
@[simp] theorem State.resetOn_platform (p : Platform) (m : Memory) : (State.resetOn p m).platform = p := rfl
@[simp] theorem State.resetOn_host (p : Platform) (m : Memory) : (State.resetOn p m).host = [] := rfl
@[simp] theorem State.resetOn_turns (p : Platform) (m : Memory) : (State.resetOn p m).turns = [] := rfl
@[simp] theorem State.resetOn_reads (p : Platform) (m : Memory) : (State.resetOn p m).reads = [] := rfl
@[simp] theorem State.resetOn_draws (p : Platform) (m : Memory) : (State.resetOn p m).draws = 0 := rfl

/-! ### `State.countDraw`: only the count of draws changes -/

@[simp] theorem State.countDraw_cmd (s : State) (r : Reg) : (s.countDraw r).cmd = s.cmd := by
  unfold State.countDraw; split <;> rfl
@[simp] theorem State.countDraw_busy (s : State) (r : Reg) : (s.countDraw r).busy = s.busy := by
  unfold State.countDraw; split <;> rfl
@[simp] theorem State.countDraw_done (s : State) (r : Reg) : (s.countDraw r).done = s.done := by
  unfold State.countDraw; split <;> rfl
@[simp] theorem State.countDraw_overrun (s : State) (r : Reg) : (s.countDraw r).overrun = s.overrun := by
  unfold State.countDraw; split <;> rfl
@[simp] theorem State.countDraw_err (s : State) (r : Reg) : (s.countDraw r).err = s.err := by
  unfold State.countDraw; split <;> rfl
@[simp] theorem State.countDraw_ie (s : State) (r : Reg) : (s.countDraw r).ie = s.ie := by
  unfold State.countDraw; split <;> rfl
@[simp] theorem State.countDraw_srcAddr (s : State) (r : Reg) : (s.countDraw r).srcAddr = s.srcAddr := by
  unfold State.countDraw; split <;> rfl
@[simp] theorem State.countDraw_srcLen (s : State) (r : Reg) : (s.countDraw r).srcLen = s.srcLen := by
  unfold State.countDraw; split <;> rfl
@[simp] theorem State.countDraw_dstAddr (s : State) (r : Reg) : (s.countDraw r).dstAddr = s.dstAddr := by
  unfold State.countDraw; split <;> rfl
@[simp] theorem State.countDraw_dstCap (s : State) (r : Reg) : (s.countDraw r).dstCap = s.dstCap := by
  unfold State.countDraw; split <;> rfl
@[simp] theorem State.countDraw_bitcntLo (s : State) (r : Reg) : (s.countDraw r).bitcntLo = s.bitcntLo := by
  unfold State.countDraw; split <;> rfl
@[simp] theorem State.countDraw_bitcntHi (s : State) (r : Reg) : (s.countDraw r).bitcntHi = s.bitcntHi := by
  unfold State.countDraw; split <;> rfl
@[simp] theorem State.countDraw_resBits (s : State) (r : Reg) : (s.countDraw r).resBits = s.resBits := by
  unfold State.countDraw; split <;> rfl
@[simp] theorem State.countDraw_resBytes (s : State) (r : Reg) : (s.countDraw r).resBytes = s.resBytes := by
  unfold State.countDraw; split <;> rfl
@[simp] theorem State.countDraw_errInfo (s : State) (r : Reg) : (s.countDraw r).errInfo = s.errInfo := by
  unfold State.countDraw; split <;> rfl
@[simp] theorem State.countDraw_errSym (s : State) (r : Reg) : (s.countDraw r).errSym = s.errSym := by
  unfold State.countDraw; split <;> rfl
@[simp] theorem State.countDraw_latch (s : State) (r : Reg) : (s.countDraw r).latch = s.latch := by
  unfold State.countDraw; split <;> rfl
@[simp] theorem State.countDraw_table (s : State) (r : Reg) : (s.countDraw r).table = s.table := by
  unfold State.countDraw; split <;> rfl
@[simp] theorem State.countDraw_tree (s : State) (r : Reg) : (s.countDraw r).tree = s.tree := by
  unfold State.countDraw; split <;> rfl
@[simp] theorem State.countDraw_book (s : State) (r : Reg) : (s.countDraw r).book = s.book := by
  unfold State.countDraw; split <;> rfl
@[simp] theorem State.countDraw_mem (s : State) (r : Reg) : (s.countDraw r).mem = s.mem := by
  unfold State.countDraw; split <;> rfl
@[simp] theorem State.countDraw_platform (s : State) (r : Reg) : (s.countDraw r).platform = s.platform := by
  unfold State.countDraw; split <;> rfl
@[simp] theorem State.countDraw_host (s : State) (r : Reg) : (s.countDraw r).host = s.host := by
  unfold State.countDraw; split <;> rfl
@[simp] theorem State.countDraw_turns (s : State) (r : Reg) : (s.countDraw r).turns = s.turns := by
  unfold State.countDraw; split <;> rfl
@[simp] theorem State.countDraw_reads (s : State) (r : Reg) : (s.countDraw r).reads = s.reads := by
  unfold State.countDraw; split <;> rfl

/-! ### `State.recordByte` -/

@[simp] theorem State.recordByte_cmd (s : State) (a : Word) (v : Byte) : (s.recordByte a v).cmd = s.cmd := rfl
@[simp] theorem State.recordByte_busy (s : State) (a : Word) (v : Byte) : (s.recordByte a v).busy = s.busy := rfl
@[simp] theorem State.recordByte_done (s : State) (a : Word) (v : Byte) : (s.recordByte a v).done = s.done := rfl
@[simp] theorem State.recordByte_overrun (s : State) (a : Word) (v : Byte) : (s.recordByte a v).overrun = s.overrun := rfl
@[simp] theorem State.recordByte_err (s : State) (a : Word) (v : Byte) : (s.recordByte a v).err = s.err := rfl
@[simp] theorem State.recordByte_ie (s : State) (a : Word) (v : Byte) : (s.recordByte a v).ie = s.ie := rfl
@[simp] theorem State.recordByte_srcAddr (s : State) (a : Word) (v : Byte) : (s.recordByte a v).srcAddr = s.srcAddr := rfl
@[simp] theorem State.recordByte_srcLen (s : State) (a : Word) (v : Byte) : (s.recordByte a v).srcLen = s.srcLen := rfl
@[simp] theorem State.recordByte_dstAddr (s : State) (a : Word) (v : Byte) : (s.recordByte a v).dstAddr = s.dstAddr := rfl
@[simp] theorem State.recordByte_dstCap (s : State) (a : Word) (v : Byte) : (s.recordByte a v).dstCap = s.dstCap := rfl
@[simp] theorem State.recordByte_bitcntLo (s : State) (a : Word) (v : Byte) : (s.recordByte a v).bitcntLo = s.bitcntLo := rfl
@[simp] theorem State.recordByte_bitcntHi (s : State) (a : Word) (v : Byte) : (s.recordByte a v).bitcntHi = s.bitcntHi := rfl
@[simp] theorem State.recordByte_resBits (s : State) (a : Word) (v : Byte) : (s.recordByte a v).resBits = s.resBits := rfl
@[simp] theorem State.recordByte_resBytes (s : State) (a : Word) (v : Byte) : (s.recordByte a v).resBytes = s.resBytes := rfl
@[simp] theorem State.recordByte_errInfo (s : State) (a : Word) (v : Byte) : (s.recordByte a v).errInfo = s.errInfo := rfl
@[simp] theorem State.recordByte_errSym (s : State) (a : Word) (v : Byte) : (s.recordByte a v).errSym = s.errSym := rfl
@[simp] theorem State.recordByte_latch (s : State) (a : Word) (v : Byte) : (s.recordByte a v).latch = s.latch := rfl
@[simp] theorem State.recordByte_table (s : State) (a : Word) (v : Byte) : (s.recordByte a v).table = s.table := rfl
@[simp] theorem State.recordByte_tree (s : State) (a : Word) (v : Byte) : (s.recordByte a v).tree = s.tree := rfl
@[simp] theorem State.recordByte_book (s : State) (a : Word) (v : Byte) : (s.recordByte a v).book = s.book := rfl
@[simp] theorem State.recordByte_mem (s : State) (a : Word) (v : Byte) : (s.recordByte a v).mem = s.mem := rfl
@[simp] theorem State.recordByte_platform (s : State) (a : Word) (v : Byte) : (s.recordByte a v).platform = s.platform := rfl
@[simp] theorem State.recordByte_host (s : State) (a : Word) (v : Byte) : (s.recordByte a v).host = s.host := rfl
@[simp] theorem State.recordByte_turns (s : State) (a : Word) (v : Byte) : (s.recordByte a v).turns = s.turns := rfl
@[simp] theorem State.recordByte_reads (s : State) (a : Word) (v : Byte) : (s.recordByte a v).reads = s.reads ++ [.mem a v] := rfl
@[simp] theorem State.recordByte_draws (s : State) (a : Word) (v : Byte) : (s.recordByte a v).draws = s.draws := rfl

/-! ### `State.storeByte` -/

@[simp] theorem State.storeByte_cmd (s : State) (a : Word) (v : Byte) : (s.storeByte a v).cmd = s.cmd := rfl
@[simp] theorem State.storeByte_busy (s : State) (a : Word) (v : Byte) : (s.storeByte a v).busy = s.busy := rfl
@[simp] theorem State.storeByte_done (s : State) (a : Word) (v : Byte) : (s.storeByte a v).done = s.done := rfl
@[simp] theorem State.storeByte_overrun (s : State) (a : Word) (v : Byte) : (s.storeByte a v).overrun = s.overrun := rfl
@[simp] theorem State.storeByte_err (s : State) (a : Word) (v : Byte) : (s.storeByte a v).err = s.err := rfl
@[simp] theorem State.storeByte_ie (s : State) (a : Word) (v : Byte) : (s.storeByte a v).ie = s.ie := rfl
@[simp] theorem State.storeByte_srcAddr (s : State) (a : Word) (v : Byte) : (s.storeByte a v).srcAddr = s.srcAddr := rfl
@[simp] theorem State.storeByte_srcLen (s : State) (a : Word) (v : Byte) : (s.storeByte a v).srcLen = s.srcLen := rfl
@[simp] theorem State.storeByte_dstAddr (s : State) (a : Word) (v : Byte) : (s.storeByte a v).dstAddr = s.dstAddr := rfl
@[simp] theorem State.storeByte_dstCap (s : State) (a : Word) (v : Byte) : (s.storeByte a v).dstCap = s.dstCap := rfl
@[simp] theorem State.storeByte_bitcntLo (s : State) (a : Word) (v : Byte) : (s.storeByte a v).bitcntLo = s.bitcntLo := rfl
@[simp] theorem State.storeByte_bitcntHi (s : State) (a : Word) (v : Byte) : (s.storeByte a v).bitcntHi = s.bitcntHi := rfl
@[simp] theorem State.storeByte_resBits (s : State) (a : Word) (v : Byte) : (s.storeByte a v).resBits = s.resBits := rfl
@[simp] theorem State.storeByte_resBytes (s : State) (a : Word) (v : Byte) : (s.storeByte a v).resBytes = s.resBytes := rfl
@[simp] theorem State.storeByte_errInfo (s : State) (a : Word) (v : Byte) : (s.storeByte a v).errInfo = s.errInfo := rfl
@[simp] theorem State.storeByte_errSym (s : State) (a : Word) (v : Byte) : (s.storeByte a v).errSym = s.errSym := rfl
@[simp] theorem State.storeByte_latch (s : State) (a : Word) (v : Byte) : (s.storeByte a v).latch = s.latch := rfl
@[simp] theorem State.storeByte_table (s : State) (a : Word) (v : Byte) : (s.storeByte a v).table = s.table := rfl
@[simp] theorem State.storeByte_tree (s : State) (a : Word) (v : Byte) : (s.storeByte a v).tree = s.tree := rfl
@[simp] theorem State.storeByte_book (s : State) (a : Word) (v : Byte) : (s.storeByte a v).book = s.book := rfl
@[simp] theorem State.storeByte_mem (s : State) (a : Word) (v : Byte) : (s.storeByte a v).mem = s.mem.write a.toNat v := rfl
@[simp] theorem State.storeByte_platform (s : State) (a : Word) (v : Byte) : (s.storeByte a v).platform = s.platform := rfl
@[simp] theorem State.storeByte_host (s : State) (a : Word) (v : Byte) : (s.storeByte a v).host = s.host := rfl
@[simp] theorem State.storeByte_turns (s : State) (a : Word) (v : Byte) : (s.storeByte a v).turns = s.turns := rfl
@[simp] theorem State.storeByte_reads (s : State) (a : Word) (v : Byte) : (s.storeByte a v).reads = s.reads := rfl
@[simp] theorem State.storeByte_draws (s : State) (a : Word) (v : Byte) : (s.storeByte a v).draws = s.draws := rfl

/-! ### `State.takeFreeByte` -/

@[simp] theorem State.takeFreeByte_cmd (s : State) : (s.takeFreeByte).cmd = s.cmd := rfl
@[simp] theorem State.takeFreeByte_busy (s : State) : (s.takeFreeByte).busy = s.busy := rfl
@[simp] theorem State.takeFreeByte_done (s : State) : (s.takeFreeByte).done = s.done := rfl
@[simp] theorem State.takeFreeByte_overrun (s : State) : (s.takeFreeByte).overrun = s.overrun := rfl
@[simp] theorem State.takeFreeByte_err (s : State) : (s.takeFreeByte).err = s.err := rfl
@[simp] theorem State.takeFreeByte_ie (s : State) : (s.takeFreeByte).ie = s.ie := rfl
@[simp] theorem State.takeFreeByte_srcAddr (s : State) : (s.takeFreeByte).srcAddr = s.srcAddr := rfl
@[simp] theorem State.takeFreeByte_srcLen (s : State) : (s.takeFreeByte).srcLen = s.srcLen := rfl
@[simp] theorem State.takeFreeByte_dstAddr (s : State) : (s.takeFreeByte).dstAddr = s.dstAddr := rfl
@[simp] theorem State.takeFreeByte_dstCap (s : State) : (s.takeFreeByte).dstCap = s.dstCap := rfl
@[simp] theorem State.takeFreeByte_bitcntLo (s : State) : (s.takeFreeByte).bitcntLo = s.bitcntLo := rfl
@[simp] theorem State.takeFreeByte_bitcntHi (s : State) : (s.takeFreeByte).bitcntHi = s.bitcntHi := rfl
@[simp] theorem State.takeFreeByte_resBits (s : State) : (s.takeFreeByte).resBits = s.resBits := rfl
@[simp] theorem State.takeFreeByte_resBytes (s : State) : (s.takeFreeByte).resBytes = s.resBytes := rfl
@[simp] theorem State.takeFreeByte_errInfo (s : State) : (s.takeFreeByte).errInfo = s.errInfo := rfl
@[simp] theorem State.takeFreeByte_errSym (s : State) : (s.takeFreeByte).errSym = s.errSym := rfl
@[simp] theorem State.takeFreeByte_latch (s : State) : (s.takeFreeByte).latch = s.latch := rfl
@[simp] theorem State.takeFreeByte_table (s : State) : (s.takeFreeByte).table = s.table := rfl
@[simp] theorem State.takeFreeByte_tree (s : State) : (s.takeFreeByte).tree = s.tree := rfl
@[simp] theorem State.takeFreeByte_book (s : State) : (s.takeFreeByte).book = s.book := rfl
@[simp] theorem State.takeFreeByte_mem (s : State) : (s.takeFreeByte).mem = s.mem := rfl
@[simp] theorem State.takeFreeByte_platform (s : State) : (s.takeFreeByte).platform = s.platform := rfl
@[simp] theorem State.takeFreeByte_host (s : State) : (s.takeFreeByte).host = s.host := rfl
@[simp] theorem State.takeFreeByte_turns (s : State) : (s.takeFreeByte).turns = s.turns := rfl
@[simp] theorem State.takeFreeByte_reads (s : State) : (s.takeFreeByte).reads = s.reads := rfl
@[simp] theorem State.takeFreeByte_draws (s : State) : (s.takeFreeByte).draws = s.draws + 1 := rfl

end Sys2Proof.Machine
end

