-- ==== Sys2Proof/Laws/Memory.lean ====
section
/-! SUPPORT. The laws of data memory: a read after a write, and that every operation keeps the canonical form. -/

namespace Sys2Proof.Machine

/-! ### One byte -/

theorem Memory.read_of_lt (m : Memory) (a : Nat) (h : ∀ c ∈ m, a < c.1) : Memory.read m a = Memory.launchByte := by
  induction m with
  | nil => rfl
  | cons c m ih =>
    have hc := h c List.mem_cons_self
    rw [Memory.read, if_neg (by omega), ih fun d hd => h d (List.mem_cons_of_mem c hd)]

theorem Memory.read_cons_cell (a : Nat) (v : Byte) (m : Memory) (b : Nat) (h : ∀ c ∈ m, a < c.1) :
    Memory.read (Memory.cons a v m) b = if b = a then v else Memory.read m b := by
  unfold Memory.cons
  split
  · next hv =>
    split
    · next hb => rw [hb, hv, Memory.read_of_lt m a h]
    · rfl
  · simp only [Memory.read, eq_comm]

/-- A read after a write: the byte written at its own address, and every other byte as before. -/
theorem Memory.read_write (m : Memory) (hm : Memory.wf m) (a : Nat) (v : Byte) (b : Nat) :
    Memory.read (Memory.write m a v) b = if b = a then v else Memory.read m b := by
  induction m with
  | nil => rw [Memory.write, Memory.read_cons_cell _ _ _ _ (by simp)]
  | cons c m ih =>
    obtain ⟨hp, hv⟩ := hm
    rw [List.pairwise_cons] at hp
    have ih := ih ⟨hp.2, fun d hd => hv d (List.mem_cons_of_mem c hd)⟩
    rw [Memory.write]
    split
    · next h =>
      rw [Memory.read_cons_cell]
      intro d hd
      rcases List.mem_cons.1 hd with rfl | hd
      · exact h
      · exact Nat.lt_trans h (hp.1 d hd)
    · split
      · next h =>
        rw [Memory.read_cons_cell _ _ _ _ (fun d hd => h ▸ hp.1 d hd), Memory.read]
        split
        · rfl
        · next hb => rw [if_neg (fun hc => hb (h.trans hc).symm)]
      · next h1 h2 =>
        rw [Memory.read, ih, Memory.read]
        split
        · next hc => rw [if_neg (by omega)]
        · rfl

theorem Memory.mem_cons_cell {a : Nat} {v : Byte} {m : Memory} {d : Host.Cell} (h : d ∈ Memory.cons a v m) :
    d = (a, v) ∧ v ≠ Memory.launchByte ∨ d ∈ m := by
  unfold Memory.cons at h
  split at h
  · exact .inr h
  · next hv =>
    rcases List.mem_cons.1 h with rfl | h
    · exact .inl ⟨rfl, hv⟩
    · exact .inr h

/-- The cells of a written memory: the one written, or one that was there. -/
theorem Memory.mem_write {m : Memory} {a : Nat} {v : Byte} {d : Host.Cell} (h : d ∈ Memory.write m a v) :
    d = (a, v) ∧ v ≠ Memory.launchByte ∨ d ∈ m := by
  induction m with
  | nil => exact Memory.mem_cons_cell h
  | cons c m ih =>
    rw [Memory.write] at h
    split at h
    · exact Memory.mem_cons_cell h
    · split at h
      · exact (Memory.mem_cons_cell h).imp_right (List.mem_cons_of_mem c)
      · rcases List.mem_cons.1 h with rfl | h
        · exact .inr List.mem_cons_self
        · exact (ih h).imp_right (List.mem_cons_of_mem c)

theorem Memory.wf_cons_cell {a : Nat} {v : Byte} {m : Memory} (hm : Memory.wf m) (h : ∀ c ∈ m, a < c.1) :
    Memory.wf (Memory.cons a v m) := by
  unfold Memory.cons
  split
  · exact hm
  · next hv =>
    refine ⟨List.pairwise_cons.2 ⟨h, hm.1⟩, fun c hc => ?_⟩
    rcases List.mem_cons.1 hc with rfl | hc
    · exact hv
    · exact hm.2 c hc

/-- A write keeps the canonical form. -/
theorem Memory.wf_write {m : Memory} (hm : Memory.wf m) (a : Nat) (v : Byte) : Memory.wf (Memory.write m a v) := by
  induction m with
  | nil => exact Memory.wf_cons_cell hm (by simp)
  | cons c m ih =>
    have hp := List.pairwise_cons.1 hm.1
    have hm' : Memory.wf m := ⟨hp.2, fun d hd => hm.2 d (List.mem_cons_of_mem c hd)⟩
    rw [Memory.write]
    split
    · next h =>
      refine Memory.wf_cons_cell hm fun d hd => ?_
      rcases List.mem_cons.1 hd with rfl | hd
      · exact h
      · exact Nat.lt_trans h (hp.1 d hd)
    · split
      · next h => exact Memory.wf_cons_cell hm' fun d hd => h ▸ hp.1 d hd
      · next h1 h2 =>
        refine ⟨List.pairwise_cons.2 ⟨fun d hd => ?_, (ih hm').1⟩, fun d hd => ?_⟩
        · rcases Memory.mem_write hd with ⟨rfl, -⟩ | hd
          · show c.1 < a; omega
          · exact hp.1 d hd
        · rcases List.mem_cons.1 hd with rfl | hd
          · exact hm.2 _ List.mem_cons_self
          · exact (ih hm').2 d hd

theorem Memory.wf_tail {c : Host.Cell} {m : Memory} (h : Memory.wf (c :: m)) : Memory.wf m :=
  ⟨(List.pairwise_cons.1 h.1).2, fun d hd => h.2 d (List.mem_cons_of_mem c hd)⟩

/-- Memories in canonical form that read alike are equal. -/
theorem Memory.ext_read {m m' : Memory} (hm : Memory.wf m) (hm' : Memory.wf m') (h : ∀ a, m.read a = m'.read a) : m = m' := by
  induction m generalizing m' with
  | nil =>
    cases m' with
    | nil => rfl
    | cons c m' =>
      have := h c.1
      simp [Memory.read] at this
      exact absurd this.symm (hm'.2 c List.mem_cons_self)
  | cons c m ih =>
    cases m' with
    | nil =>
      have := h c.1
      simp [Memory.read] at this
      exact absurd this (hm.2 c List.mem_cons_self)
    | cons d m' =>
      have hc := List.pairwise_cons.1 hm.1
      have hd := List.pairwise_cons.1 hm'.1
      have h1 : c.1 = d.1 := by
        by_contra hne
        rcases Nat.lt_or_gt_of_ne hne with hl | hl
        · have h2 := h c.1
          rw [Memory.read, if_pos rfl, Memory.read_of_lt] at h2
          · exact hm.2 c List.mem_cons_self h2
          · intro e he
            rcases List.mem_cons.1 he with rfl | he
            · exact hl
            · exact hl.trans (hd.1 e he)
        · have h2 := h d.1
          rw [Memory.read_of_lt, Memory.read, if_pos rfl] at h2
          · exact hm'.2 d List.mem_cons_self h2.symm
          · intro e he
            rcases List.mem_cons.1 he with rfl | he
            · exact hl
            · exact Nat.lt_trans hl (hc.1 e he)
      have h2 : c.2 = d.2 := by
        have h2 := h c.1
        rwa [Memory.read, if_pos rfl, Memory.read, if_pos h1.symm] at h2
      have hcd : c = d := Prod.ext h1 h2
      subst hcd
      congr 1
      refine ih (Memory.wf_tail hm) (Memory.wf_tail hm') fun a => ?_
      by_cases ha : a ≤ c.1
      · rw [Memory.read_of_lt, Memory.read_of_lt]
        · intro e he; have := hd.1 e he; omega
        · intro e he; have := hc.1 e he; omega
      · have := h a
        rwa [Memory.read, if_neg (by omega), Memory.read, if_neg (by omega)] at this

/-! ### Buffers -/

/-- Writing a buffer keeps the canonical form. -/
theorem Memory.wf_writeBytes {m : Memory} (hm : Memory.wf m) (a : Nat) (vs : List Byte) :
    Memory.wf (Memory.writeBytes m a vs) := by
  induction vs generalizing m a with
  | nil => exact hm
  | cons v vs ih => exact ih (Memory.wf_write hm a v) (a + 1)

/-- A written buffer reads as written, and every byte outside it as before. -/
theorem Memory.read_writeBytes {m : Memory} (hm : Memory.wf m) (a : Nat) (vs : List Byte) (b : Nat) :
    Memory.read (Memory.writeBytes m a vs) b =
      if a ≤ b ∧ b < a + vs.length then vs.getD (b - a) 0 else Memory.read m b := by
  induction vs generalizing m a with
  | nil => rw [Memory.writeBytes, if_neg (by simp)]
  | cons v vs ih =>
    rw [Memory.writeBytes, ih (Memory.wf_write hm a v), Memory.read_write m hm]
    rcases Nat.lt_trichotomy b a with h | rfl | h
    · rw [if_neg (by omega), if_neg (by omega), if_neg (by omega)]
    · rw [if_neg (by omega), if_pos rfl, if_pos (by simp), Nat.sub_self, List.getD_cons_zero]
    · obtain ⟨k, rfl⟩ : ∃ k, b = a + 1 + k := ⟨b - (a + 1), by omega⟩
      have e1 : a + 1 + k - (a + 1) = k := by omega
      have e2 : a + 1 + k - a = k + 1 := by omega
      simp only [List.length_cons, e1, e2, List.getD_cons_succ]
      by_cases hk : k < vs.length
      · rw [if_pos (by omega), if_pos (by omega)]
      · rw [if_neg (by omega), if_neg (by omega), if_neg (by omega)]

/-- Every byte outside a written buffer reads as before. -/
theorem Memory.read_writeBytes_outside {m : Memory} (hm : Memory.wf m) (a : Nat) (vs : List Byte) (b : Nat)
    (h : ¬ (a ≤ b ∧ b < a + vs.length)) : Memory.read (Memory.writeBytes m a vs) b = Memory.read m b := by
  rw [Memory.read_writeBytes hm, if_neg h]

/-- The addresses of a written buffer's memory: those it had, and those of the buffer. -/
theorem Memory.mem_writeBytes {m : Memory} {a : Nat} {vs : List Byte} {d : Host.Cell}
    (h : d ∈ Memory.writeBytes m a vs) : d ∈ m ∨ a ≤ d.1 ∧ d.1 < a + vs.length := by
  induction vs generalizing m a with
  | nil => exact .inl h
  | cons v vs ih =>
    rcases ih h with h | h
    · rcases Memory.mem_write h with ⟨rfl, -⟩ | h
      · exact .inr (by simp)
      · exact .inl h
    · exact .inr (by simp only [List.length_cons]; omega)

@[simp] theorem Memory.length_readBytes (m : Memory) (a n : Nat) : (Memory.readBytes m a n).length = n := by
  simp [Memory.readBytes]

/-- A buffer whose bytes did not change reads the same. -/
theorem Memory.readBytes_congr {m m' : Memory} {a n : Nat} (h : ∀ i < n, Memory.read m (a + i) = Memory.read m' (a + i)) :
    Memory.readBytes m a n = Memory.readBytes m' a n := by
  unfold Memory.readBytes
  exact List.map_congr_left fun i hi => h i (List.mem_range.1 hi)

/-- A buffer just written reads back as written. -/
theorem Memory.readBytes_writeBytes {m : Memory} (hm : Memory.wf m) (a : Nat) (vs : List Byte) :
    Memory.readBytes (Memory.writeBytes m a vs) a vs.length = vs := by
  refine List.ext_getElem (by simp) fun i h1 h2 => ?_
  simp only [Memory.readBytes, List.getElem_map, List.getElem_range]
  rw [Memory.read_writeBytes hm, if_pos (by omega), Nat.add_sub_cancel_left, List.getD_eq_getElem _ _ h2]

/-- The launch memory of a host's `MEM` lines is in canonical form. -/
theorem Memory.wf_empty : Memory.wf [] := by simp [Memory.wf]

end Sys2Proof.Machine
end

