-- ==== Sys2Proof/Laws/Bits.lean ====
section
/-! SUPPORT. The laws of bit strings: their value as binary numbers (R42), and packing and unpacking (R74). -/

namespace Sys2Proof.Machine

@[simp] theorem bitsValue_nil : bitsValue [] = 0 := rfl

theorem bitsValue_append_singleton (l : List Bool) (b : Bool) :
    bitsValue (l ++ [b]) = 2 * bitsValue l + b.toNat := by
  simp [bitsValue]

theorem bitsValue_lt (l : List Bool) : bitsValue l < 2 ^ l.length := by
  induction l using List.reverseRecOn with
  | nil => simp
  | append_singleton l b ih =>
    rw [bitsValue_append_singleton, List.length_append, List.length_singleton, Nat.pow_succ]
    have := b.toNat_le
    omega

/-- The bits of the value, the first the most significant. -/
theorem testBit_bitsValue (l : List Bool) (m : Nat) (h : m < l.length) :
    (bitsValue l).testBit (l.length - 1 - m) = l[m] := by
  induction l using List.reverseRecOn with
  | nil => simp at h
  | append_singleton l b ih =>
    rw [bitsValue_append_singleton, List.length_append, List.length_singleton, Nat.add_sub_cancel]
    have hd : (2 * bitsValue l + b.toNat) / 2 = bitsValue l := by have := b.toNat_le; omega
    rcases Nat.lt_or_ge m l.length with hm | hm
    · obtain ⟨k, hk⟩ : ∃ k, l.length - m = k + 1 := ⟨l.length - m - 1, by omega⟩
      rw [hk, Nat.testBit_succ, hd, List.getElem_append_left hm, ← ih hm]
      congr 1
      omega
    · have hm : m = l.length := by
        rw [List.length_append, List.length_singleton] at h
        omega
      subst hm
      rw [Nat.sub_self, Nat.testBit_zero]
      cases b <;> simp

/-- CODE_LEN and CODE_VAL give the code back (R42, R204). -/
theorem range_map_getLsbD_bitsValue (l : List Bool) (h : l.length ≤ 255) :
    ((List.range l.length).map fun m => (BitVec.ofNat 255 (bitsValue l)).getLsbD (l.length - 1 - m)) = l := by
  refine List.ext_getElem (by simp) fun m h1 h2 => ?_
  rw [List.getElem_map, List.getElem_range, BitVec.getLsbD_ofNat, testBit_bitsValue l m h2]
  simp only [Bool.and_eq_right_iff_imp, decide_eq_true_eq]
  intro _
  omega

/-! ### The bit packer -/

@[simp] theorem length_packBits (bits : List Bool) : (packBits bits).length = bytesFor bits.length := by
  simp [packBits]

theorem bytesFor_bounds (n : Nat) : n ≤ 8 * bytesFor n ∧ 8 * bytesFor n < n + 8 := by
  unfold bytesFor
  omega

/-- Bit 7 − m of byte j is payload bit 8·j + m, and 0 past the last bit (R74). -/
theorem getLsbD_packByte (bits : List Bool) (j m : Nat) (hm : m < 8) :
    (packByte bits j).getLsbD (7 - m) = bits.getD (8 * j + m) false := by
  unfold packByte
  generalize hb : (List.range 8).map (fun m => bits.getD (8 * j + m) false) = l
  have hl : l.length = 8 := by simp [← hb]
  have hg : l[m]'(by omega) = bits.getD (8 * j + m) false := by simp [← hb]
  have ht := testBit_bitsValue l m (by omega)
  rw [show l.length - 1 - m = 7 - m by omega] at ht
  rw [BitVec.getLsbD_ofNat, ht, hg, decide_eq_true (by omega), Bool.true_and]

/-- A payload written to memory reads back bit by bit; the padding bits read 0 (R74, R221). -/
theorem Memory.payloadBit_writeBytes {m : Memory} (hm : Memory.wf m) (d : Nat) (bits : List Bool) (t : Nat)
    (ht : t < 8 * bytesFor bits.length) :
    Memory.payloadBit (Memory.writeBytes m d (packBits bits)) d t = bits.getD t false := by
  have hj : t / 8 < bytesFor bits.length := by omega
  unfold Memory.payloadBit
  rw [Memory.read_writeBytes hm, if_pos (by rw [length_packBits]; omega), Nat.add_sub_cancel_left,
    List.getD_eq_getElem _ _ (by rwa [length_packBits])]
  simp only [packBits, List.getElem_map, List.getElem_range]
  rw [getLsbD_packByte _ _ _ (Nat.mod_lt _ (by omega)), Nat.div_add_mod]

theorem length_payloadBits (m : Memory) (a n : Nat) : (Memory.payloadBits m a n).length = n := by
  simp [Memory.payloadBits]

/-- The packed payload unpacks to the bit string it was packed from. -/
theorem Memory.payloadBits_writeBytes {m : Memory} (hm : Memory.wf m) (d : Nat) (bits : List Bool) :
    Memory.payloadBits (Memory.writeBytes m d (packBits bits)) d bits.length = bits := by
  refine List.ext_getElem (length_payloadBits _ _ _) fun t h1 h2 => ?_
  simp only [Memory.payloadBits, List.getElem_map, List.getElem_range]
  rw [Memory.payloadBit_writeBytes hm d bits t (by have := bytesFor_bounds bits.length; omega),
    List.getD_eq_getElem _ _ h2]

/-- The payload's bits depend on its ceil_div(n, 8) bytes alone (R77). -/
theorem Memory.payloadBits_congr {m m' : Memory} {a n : Nat}
    (h : ∀ i < bytesFor n, Memory.read m (a + i) = Memory.read m' (a + i)) :
    Memory.payloadBits m a n = Memory.payloadBits m' a n := by
  refine List.map_congr_left fun t ht => ?_
  have ht := List.mem_range.1 ht
  unfold Memory.payloadBit
  rw [h (t / 8) (by unfold bytesFor; omega)]

end Sys2Proof.Machine
end

