-- ==== Sys2Proof/Laws/Table.lean ====
section
/-! SUPPORT. The laws of the symbol tables and of counting (R160 to R162). -/

namespace Sys2Proof.Machine

@[simp] theorem Table.look_replicate {α : Type} (v : α) (s : Byte) :
    Table.look (Vector.replicate 256 v : Table α) s = v := by
  simp [Table.look]

theorem Table.look_put {α : Type} (t : Table α) (s x : Byte) (v : α) :
    Table.look (Table.put t s v) x = if x = s then v else Table.look t x := by
  unfold Table.look Table.put
  rw [Vector.getElem_set]
  simp only [BitVec.toNat_inj, eq_comm]

@[simp] theorem Table.look_put_self {α : Type} (t : Table α) (s : Byte) (v : α) :
    Table.look (Table.put t s v) s = v := by
  rw [Table.look_put, if_pos rfl]

theorem Table.look_put_of_ne {α : Type} (t : Table α) {s x : Byte} (v : α) (h : x ≠ s) :
    Table.look (Table.put t s v) x = Table.look t x := by
  rw [Table.look_put, if_neg h]

/-- Two tables with the same entries are the same. -/
theorem Table.ext_look {α : Type} {t u : Table α} (h : ∀ s, Table.look t s = Table.look u s) : t = u := by
  refine Vector.ext fun i hi => ?_
  have := h (BitVec.ofNat 8 i)
  simpa only [Table.look, BitVec.toNat_ofNat, Nat.mod_eq_of_lt (show i < 2 ^ 8 from hi)] using this

/-! ### The list of all symbols -/

@[simp] theorem mem_allSymbols (s : Byte) : s ∈ allSymbols := by
  refine List.mem_map.2 ⟨s.toNat, List.mem_range.2 s.isLt, ?_⟩
  simp

theorem allSymbols_nodup : allSymbols.Nodup := by
  refine List.Nodup.map_on (fun x hx y hy h => ?_) List.nodup_range
  have h := congrArg BitVec.toNat h
  rwa [BitVec.toNat_ofNat, BitVec.toNat_ofNat, Nat.mod_eq_of_lt (List.mem_range.1 hx),
    Nat.mod_eq_of_lt (List.mem_range.1 hy)] at h

theorem toList_eq_map_look {α : Type} (t : Table α) : t.toList = allSymbols.map (Table.look t) := by
  refine List.ext_getElem (by simp [allSymbols]) fun i h1 h2 => ?_
  have hi : i < 2 ^ 8 := by simpa using h1
  have hm : i % 256 = i := Nat.mod_eq_of_lt hi
  simp [allSymbols, Table.look, hm]

/-- CB_PRESENT: some symbol has a code (R27). -/
theorem CodeBook.present_iff (b : CodeBook) : b.present = true ↔ ∃ c : Byte, Table.look b.len c ≠ 0 := by
  simp [CodeBook.present, toList_eq_map_look, List.any_map]

theorem CodeBook.present_empty : CodeBook.empty.present = false := by
  rw [Bool.eq_false_iff, Ne, CodeBook.present_iff]
  simp [CodeBook.empty]

/-- The present symbols are those with a nonzero entry, ascending (R36). -/
theorem presentSymbols_eq (F : Table Word) : presentSymbols F = allSymbols.filter fun s => Table.look F s != 0 := by
  unfold presentSymbols
  rw [toList_eq_map_look]
  induction allSymbols with
  | nil => rfl
  | cons s l ih =>
    simp only [List.map_cons, List.zip_cons_cons, List.filter_cons]
    split
    · rw [List.map_cons, ih]
    · exact ih

@[simp] theorem mem_presentSymbols (F : Table Word) (s : Byte) : s ∈ presentSymbols F ↔ Table.look F s ≠ 0 := by
  simp [presentSymbols_eq]

theorem presentSymbols_nodup (F : Table Word) : (presentSymbols F).Nodup := by
  rw [presentSymbols_eq]
  exact allSymbols_nodup.filter _

theorem presentSymbols_length_le (F : Table Word) : (presentSymbols F).length ≤ 256 := by
  rw [presentSymbols_eq]
  exact (List.length_filter_le _ _).trans allSymbols_length.le

/-! ### Counting -/

theorem look_foldl_count (bytes : List Byte) (F : Table Word) (s : Byte) :
    Table.look (bytes.foldl (fun F s => Table.put F s (Table.look F s + 1)) F) s =
      Table.look F s + BitVec.ofNat 32 (bytes.count s) := by
  induction bytes generalizing F with
  | nil => simp
  | cons b bytes ih =>
    rw [List.foldl_cons, ih, Table.look_put, List.count_cons]
    by_cases h : s = b
    · subst h
      rw [if_pos rfl, beq_self_eq_true, if_pos rfl, BitVec.add_assoc, BitVec.ofNat_add,
        BitVec.add_comm (BitVec.ofNat 32 _)]
      rfl
    · rw [if_neg h, if_neg (by simpa using Ne.symm h), Nat.add_zero]

/-- The entry of a symbol is the number of its occurrences (R160). -/
theorem look_countBytes (bytes : List Byte) (s : Byte) :
    Table.look (countBytes bytes) s = BitVec.ofNat 32 (bytes.count s) := by
  rw [countBytes, look_foldl_count]
  simp

/-- No counter overflows (R161). -/
theorem toNat_look_countBytes {bytes : List Byte} (h : bytes.length < 2 ^ 32) (s : Byte) :
    (Table.look (countBytes bytes) s).toNat = bytes.count s := by
  rw [look_countBytes, BitVec.toNat_ofNat, Nat.mod_eq_of_lt (lt_of_le_of_lt List.count_le_length h)]

theorem look_countBytes_ne_zero {bytes : List Byte} (h : bytes.length < 2 ^ 32) (s : Byte) :
    Table.look (countBytes bytes) s ≠ 0 ↔ s ∈ bytes := by
  rw [← List.count_pos_iff, ← toNat_look_countBytes h, Ne, ← BitVec.toNat_inj]
  simp [Nat.pos_iff_ne_zero]

theorem sum_map_count_of_nodup {l : List Byte} (hl : l.Nodup) (bytes : List Byte) :
    (l.map fun s => bytes.count s).sum = (bytes.filter fun b => decide (b ∈ l)).length := by
  induction l with
  | nil => simp
  | cons s l ih =>
    obtain ⟨hs, hl⟩ := List.nodup_cons.1 hl
    rw [List.map_cons, List.sum_cons, ih hl]
    clear ih
    induction bytes with
    | nil => rfl
    | cons b bytes ih =>
      simp only [List.count_cons, List.filter_cons, List.mem_cons]
      by_cases hb : b = s
      · subst hb
        simp only [hs, beq_self_eq_true, if_true, decide_false, true_or, decide_true, List.length_cons]
        simp only [Bool.false_eq_true, if_false]
        simp only [List.mem_cons] at ih
        omega
      · simp only [List.mem_cons] at ih
        simp only [beq_iff_eq, hb, if_false, false_or]
        split
        · simp only [List.length_cons]; omega
        · omega

theorem sum_ite_single (l : List Byte) (hl : l.Nodup) (x : Byte) (n : Nat) :
    (l.map fun c => if c = x then n else 0).sum = if x ∈ l then n else 0 := by
  induction l with
  | nil => simp
  | cons y l ih =>
    obtain ⟨h1, h2⟩ := List.nodup_cons.1 hl
    rw [List.map_cons, List.sum_cons, ih h2]
    by_cases h : y = x
    · subst h; simp [h1]
    · simp [h, Ne.symm h]

/-- A sum over a byte sequence, taken symbol by symbol (R231). -/
theorem sum_map_eq_sum_count (f : Byte → Nat) (l : List Byte) (hl : l.Nodup) (bytes : List Byte) (hb : ∀ c ∈ bytes, c ∈ l) :
    (bytes.map f).sum = (l.map fun c => bytes.count c * f c).sum := by
  induction bytes with
  | nil => simp
  | cons x bytes ih =>
    rw [List.map_cons, List.sum_cons, ih fun c hc => hb c (List.mem_cons_of_mem x hc)]
    have h : (l.map fun c => (x :: bytes).count c * f c) = l.map fun c => bytes.count c * f c + if c = x then f x else 0 := by
      refine List.map_congr_left fun c _ => ?_
      rw [List.count_cons]
      by_cases h : c = x
      · subst h; simp [Nat.add_mul]
      · simp [h, Ne.symm h]
    rw [h, List.sum_map_add, sum_ite_single l hl, if_pos (hb x List.mem_cons_self), Nat.add_comm]

/-- The sum of the counts is the input's length (R162). -/
theorem sum_counts (bytes : List Byte) : (allSymbols.map fun s => bytes.count s).sum = bytes.length := by
  rw [sum_map_count_of_nodup allSymbols_nodup]
  simp

/-- The table of a byte sequence no longer than SRC_LEN can say satisfies R35 (R162). -/
theorem FreqTable.ofBytes_consistent {bytes : List Byte} (h : bytes.length < 2 ^ 32) :
    FreqTable.Consistent (FreqTable.ofBytes bytes) := by
  constructor
  · simp only [FreqTable.ofBytes, BitVec.toNat_ofNat, Nat.mod_eq_of_lt h]
    rw [← sum_counts bytes]
    congr 1
    exact List.map_congr_left fun s _ => (toNat_look_countBytes h s).symm
  · have := presentSymbols_length_le (countBytes bytes)
    simp only [FreqTable.ofBytes, BitVec.toNat_ofNat]
    rw [Nat.mod_eq_of_lt (by omega), presentSymbols_eq]

theorem FreqTable.empty_consistent : FreqTable.Consistent FreqTable.empty := by
  constructor <;> simp [FreqTable.empty]

end Sys2Proof.Machine
end

