-- ==== Sys2Proof/Laws/Tree.lean ====
section
/-! SUPPORT. The code tree as a recursive tree: its codes, their lengths and the Kraft sum (R186, R202, R203), and what
it means for an arena to hold such a tree under an index (R38, R39). -/

namespace Sys2Proof.Machine

/-- A full binary tree with symbols and weights at its leaves and weights at its inner nodes. -/
inductive PTree where
  | leaf (sym : Byte) (w : Word)
  | node (left right : PTree) (w : Word)

def PTree.weight : PTree → Word
  | .leaf _ w => w
  | .node _ _ w => w

/-- The (symbol, weight) pairs of the leaves, left to right. -/
def PTree.leaves : PTree → List (Byte × Word)
  | .leaf s w => [(s, w)]
  | .node l r _ => l.leaves ++ r.leaves

def PTree.depth : PTree → Nat
  | .leaf _ _ => 0
  | .node l r _ => max l.depth r.depth + 1

/-- The (symbol, code) pairs, left to right, each code the path `p` to this tree and on to the leaf. -/
def PTree.codes : PTree → List Bool → List (Byte × List Bool)
  | .leaf s _, p => [(s, p)]
  | .node l r _, p => l.codes (p ++ [false]) ++ r.codes (p ++ [true])

/-- Every inner weight is the sum of its children's. -/
def PTree.Sound : PTree → Prop
  | .leaf _ _ => True
  | .node l r w => w = l.weight + r.weight ∧ l.Sound ∧ r.Sound

/-- The sum of the leaves' weights, over the unbounded integers. -/
def PTree.total (t : PTree) : Nat := (t.leaves.map fun x => x.2.toNat).sum

theorem PTree.leaves_length_pos (t : PTree) : 0 < t.leaves.length := by
  induction t with
  | leaf => simp [PTree.leaves]
  | node l r w ihl ihr => simp only [PTree.leaves, List.length_append]; omega

/-- A leaf's depth is at most the number of leaves less one (R202). -/
theorem PTree.depth_lt_leaves (t : PTree) : t.depth < t.leaves.length := by
  induction t with
  | leaf => simp [PTree.leaves, PTree.depth]
  | node l r w ihl ihr =>
    have := l.leaves_length_pos
    have := r.leaves_length_pos
    simp only [PTree.leaves, PTree.depth, List.length_append]
    omega

theorem PTree.total_node (l r : PTree) (w : Word) : (PTree.node l r w).total = l.total + r.total := by
  simp [PTree.total, PTree.leaves]

/-- The weight of a sound tree is the sum of its leaves' weights when that sum fits 32 bits (R184). -/
theorem PTree.toNat_weight {t : PTree} (hs : t.Sound) (h : t.total < 2 ^ 32) : t.weight.toNat = t.total := by
  induction t with
  | leaf => simp [PTree.weight, PTree.total, PTree.leaves]
  | node l r w ihl ihr =>
    obtain ⟨hw, hl, hr⟩ := hs
    rw [PTree.total_node] at h ⊢
    rw [PTree.weight, hw, BitVec.toNat_add, ihl hl (by omega), ihr hr (by omega), Nat.mod_eq_of_lt h]

/-! ### Codes -/

theorem PTree.codes_eq_map (t : PTree) (p : List Bool) :
    t.codes p = (t.codes []).map fun c => (c.1, p ++ c.2) := by
  induction t generalizing p with
  | leaf => simp [PTree.codes]
  | node l r w ihl ihr =>
    rw [PTree.codes, ihl, ihr, PTree.codes, ihl ([] ++ [false]), ihr ([] ++ [true])]
    simp [Function.comp_def]

theorem PTree.codes_symbols (t : PTree) (p : List Bool) : (t.codes p).map Prod.fst = t.leaves.map Prod.fst := by
  induction t generalizing p with
  | leaf => simp [PTree.codes, PTree.leaves]
  | node l r w ihl ihr => simp [PTree.codes, PTree.leaves, ihl, ihr]

theorem PTree.codes_length_le (t : PTree) (p : List Bool) {c : Byte × List Bool} (h : c ∈ t.codes p) :
    c.2.length ≤ p.length + t.depth := by
  induction t generalizing p with
  | leaf => simp only [PTree.codes, List.mem_singleton] at h; simp [h]
  | node l r w ihl ihr =>
    rw [PTree.codes, List.mem_append] at h
    rw [PTree.depth]
    rcases h with h | h
    · have := ihl _ h; simp at this; omega
    · have := ihr _ h; simp at this; omega

theorem PTree.codes_prefix (t : PTree) (p : List Bool) {c : Byte × List Bool} (h : c ∈ t.codes p) : p <+: c.2 := by
  rw [PTree.codes_eq_map] at h
  obtain ⟨d, -, rfl⟩ := List.mem_map.1 h
  exact List.prefix_append _ _

theorem PTree.node_codes_length_pos (l r : PTree) (w : Word) (p : List Bool) {c : Byte × List Bool}
    (h : c ∈ (PTree.node l r w).codes p) : p.length < c.2.length := by
  rw [PTree.codes, List.mem_append] at h
  rcases h with h | h
  · have := (PTree.codes_prefix _ _ h).length_le; simp at this; omega
  · have := (PTree.codes_prefix _ _ h).length_le; simp at this; omega

/-- The codes are mutually prefix-free (R186, R203). -/
theorem PTree.codes_prefixFree (t : PTree) (p : List Bool) :
    (t.codes p).Pairwise fun c d => ¬ c.2 <+: d.2 ∧ ¬ d.2 <+: c.2 := by
  induction t generalizing p with
  | leaf => simp [PTree.codes]
  | node l r w ihl ihr =>
    rw [PTree.codes, List.pairwise_append]
    refine ⟨ihl _, ihr _, fun c hc d hd => ?_⟩
    have hc := PTree.codes_prefix _ _ hc
    have hd := PTree.codes_prefix _ _ hd
    have key : ∀ x y : List Bool, p ++ [false] <+: x → p ++ [true] <+: y → ∀ z, x <+: z → y <+: z → False := by
      intro x y hx hy z hxz hyz
      obtain ⟨u, rfl⟩ := hx.trans hxz
      obtain ⟨v, hv⟩ := hy.trans hyz
      simp at hv
    exact ⟨fun h => key _ _ hc hd _ h (List.prefix_refl _), fun h => key _ _ hc hd _ (List.prefix_refl _) h⟩

/-- The Kraft sum of the codes under a path `p` is 2^(−len p) (R203), scaled by 2^n to stay in the integers. -/
theorem PTree.kraft (t : PTree) (p : List Bool) (n : Nat) (h : p.length + t.depth ≤ n) :
    ((t.codes p).map fun c => 2 ^ (n - c.2.length)).sum = 2 ^ (n - p.length) := by
  induction t generalizing p with
  | leaf => simp [PTree.codes]
  | node l r w ihl ihr =>
    rw [PTree.depth] at h
    rw [PTree.codes, List.map_append, List.sum_append, ihl _ (by simp; omega), ihr _ (by simp; omega)]
    simp only [List.length_append, List.length_singleton]
    rw [← Nat.two_mul, ← Nat.pow_succ']
    congr 1
    omega

/-! ### Arenas that hold a tree -/

/-- The nodes hold the tree `t` under the index `i`, every child below its parent (R38). -/
inductive Represents (nodes : List Node) : Nat → PTree → Prop where
  | leaf {i : Nat} {s : Byte} {w : Word} (h : nodes[i]? = some (.leaf s w)) : Represents nodes i (.leaf s w)
  | node {i : Nat} {l r : NodeIndex} {w : Word} {tl tr : PTree} (h : nodes[i]? = some (.internal l r w))
      (hl : l.toNat < i) (hr : r.toNat < i) (left : Represents nodes l.toNat tl) (right : Represents nodes r.toNat tr) :
      Represents nodes i (.node tl tr w)

theorem Represents.lt {nodes : List Node} {i : Nat} {t : PTree} (h : Represents nodes i t) : i < nodes.length := by
  cases h with
  | leaf h => exact (List.getElem?_eq_some_iff.1 h).1
  | node h => exact (List.getElem?_eq_some_iff.1 h).1

theorem Represents.append {nodes : List Node} {i : Nat} {t : PTree} (h : Represents nodes i t) (more : List Node) :
    Represents (nodes ++ more) i t := by
  induction h with
  | leaf h => exact .leaf (by rw [List.getElem?_append_left (List.getElem?_eq_some_iff.1 h).1, h])
  | node h hl hr _ _ ihl ihr =>
    exact .node (by rw [List.getElem?_append_left (List.getElem?_eq_some_iff.1 h).1, h]) hl hr ihl ihr

theorem Represents.depth_le {nodes : List Node} {i : Nat} {t : PTree} (h : Represents nodes i t) : t.depth ≤ i := by
  induction h with
  | leaf => simp [PTree.depth]
  | node _ hl hr _ _ ihl ihr => rw [PTree.depth]; omega

theorem Arena.slot_ofNodes (nodes : List Node) (i : Nat) (hi : i < 511) :
    Arena.slot (Arena.ofNodes nodes) i = nodes.getD i Node.blank := by
  rw [Arena.slot, dif_pos hi]
  have hb : i < (nodes ++ List.replicate 511 Node.blank).length := by
    rw [List.length_append, List.length_replicate]; omega
  have : (Arena.ofNodes nodes)[i] = (nodes ++ List.replicate 511 Node.blank)[i] := by
    simp only [Arena.ofNodes, Vector.getElem_mk, List.getElem_toArray, List.getElem_take]
  rw [this]
  rcases Nat.lt_or_ge i nodes.length with h | h
  · rw [List.getElem_append_left h, List.getD_eq_getElem _ _ h]
  · rw [List.getElem_append_right h, List.getElem_replicate, List.getD_eq_default _ _ h]

theorem Arena.slot_of_getElem? {nodes : List Node} (hn : nodes.length ≤ 511) {i : Nat} {x : Node}
    (h : nodes[i]? = some x) : Arena.slot (Arena.ofNodes nodes) i = x := by
  obtain ⟨hi, rfl⟩ := List.getElem?_eq_some_iff.1 h
  rw [Arena.slot_ofNodes nodes i (by omega), List.getD_eq_getElem _ _ hi]

/-- The walk of R200 over an arena that holds a tree assigns the tree's codes. -/
theorem walkCodes_of_represents {nodes : List Node} (hn : nodes.length ≤ 511) {t : PTree} {i : NodeIndex}
    (h : Represents nodes i.toNat t) (fuel : Nat) (hf : t.depth < fuel) (p : List Bool) :
    walkCodes (Arena.ofNodes nodes) fuel i p = t.codes p := by
  induction t generalizing i fuel p with
  | leaf s w =>
    obtain ⟨f, rfl⟩ : ∃ f, fuel = f + 1 := ⟨fuel - 1, by omega⟩
    cases h with
    | leaf h => simp only [walkCodes, Arena.slot_of_getElem? hn h, PTree.codes]
  | node tl tr w ihl ihr =>
    rw [PTree.depth] at hf
    obtain ⟨f, rfl⟩ : ∃ f, fuel = f + 1 := ⟨fuel - 1, by omega⟩
    cases h with
    | node h hl hr left right =>
      simp only [walkCodes, Arena.slot_of_getElem? hn h, PTree.codes]
      rw [ihl left f (by omega), ihr right f (by omega)]

end Sys2Proof.Machine
end

