-- ==== Sys2Proof/Laws/Build.lean ====
section
/-! SUPPORT. The priority queue and the combine loop (R181, R182): what build(F) makes is a tree over the present
symbols in which every node but the root is the child of exactly one node (R39, R183, R184, R186). -/

namespace Sys2Proof.Machine

/-! ### The priority queue -/

theorem queueInsert_perm (e : QueueEntry) (q : List QueueEntry) : (queueInsert e q).Perm (e :: q) := by
  induction q with
  | nil => exact List.Perm.refl _
  | cons x q ih =>
    rw [queueInsert]
    split
    · exact List.Perm.refl _
    · exact (List.Perm.cons x ih).trans (List.Perm.swap e x q)

@[simp] theorem length_queueInsert (e : QueueEntry) (q : List QueueEntry) :
    (queueInsert e q).length = q.length + 1 := by
  simpa using (queueInsert_perm e q).length_eq

theorem foldr_queueInsert_perm (es : List QueueEntry) : (es.foldr queueInsert []).Perm es := by
  induction es with
  | nil => exact List.Perm.refl _
  | cons e es ih => exact (queueInsert_perm e _).trans (ih.cons e)

theorem QueueEntry.before_iff (x y : QueueEntry) :
    QueueEntry.before x y = true ↔ x.1.toNat < y.1.toNat ∨ x.1 = y.1 ∧ x.2.toNat < y.2.toNat := by
  simp [QueueEntry.before, BitVec.lt_def]

/-- Two entries with different indices are in order one way or the other (R181). -/
theorem QueueEntry.before_total {x y : QueueEntry} (h : x.2 ≠ y.2) (hn : ¬ QueueEntry.before x y = true) :
    QueueEntry.before y x = true := by
  rw [QueueEntry.before_iff] at *
  have h : x.2.toNat ≠ y.2.toNat := fun h' => h (BitVec.eq_of_toNat_eq h')
  by_cases hx : x.1 = y.1
  · have := congrArg BitVec.toNat hx
    have : ¬ x.2.toNat < y.2.toNat := fun h => hn (.inr ⟨hx, h⟩)
    exact .inr ⟨hx.symm, by omega⟩
  · have : x.1.toNat ≠ y.1.toNat := fun h => hx (BitVec.eq_of_toNat_eq h)
    have : ¬ x.1.toNat < y.1.toNat := fun h => hn (.inl h)
    exact .inl (by omega)

theorem QueueEntry.before_trans {x y z : QueueEntry} (hx : QueueEntry.before x y = true)
    (hy : QueueEntry.before y z = true) : QueueEntry.before x z = true := by
  rw [QueueEntry.before_iff] at *
  rcases hx with hx | ⟨hx, hx'⟩ <;> rcases hy with hy | ⟨hy, hy'⟩
  · exact .inl (by omega)
  · exact .inl (hy ▸ hx)
  · exact .inl (hx ▸ hy)
  · exact .inr ⟨hx.trans hy, by omega⟩

/-- Inserting keeps the queue in key order, so its head is the entry `extract_min` returns (R181). -/
theorem queueInsert_sorted {e : QueueEntry} {q : List QueueEntry} (hq : q.Pairwise fun x y => QueueEntry.before x y = true)
    (hne : ∀ x ∈ q, e.2 ≠ x.2) : (queueInsert e q).Pairwise fun x y => QueueEntry.before x y = true := by
  induction q with
  | nil => simp [queueInsert]
  | cons x q ih =>
    obtain ⟨hx, hq⟩ := List.pairwise_cons.1 hq
    rw [queueInsert]
    split
    · next h =>
      refine List.pairwise_cons.2 ⟨fun y hy => ?_, List.pairwise_cons.2 ⟨hx, hq⟩⟩
      rcases List.mem_cons.1 hy with rfl | hy
      · exact h
      · exact QueueEntry.before_trans h (hx y hy)
    · next h =>
      refine List.pairwise_cons.2 ⟨fun y hy => ?_, ih hq fun y hy => hne y (List.mem_cons_of_mem x hy)⟩
      rcases List.mem_cons.1 ((queueInsert_perm e q).mem_iff.1 hy) with rfl | hy
      · exact QueueEntry.before_total (hne x List.mem_cons_self) h
      · exact hx y hy

/-! ### The combine loop -/

/-- What holds of the nodes and the queue at every turn of the combine loop, `L` being the (symbol, weight) pairs of the
table: each queue entry is the weight and index of a tree the nodes hold, the trees' leaves are together `L`, and every
index is either queued or the child of exactly one node. -/
structure BuildInv (L : List (Byte × Word)) (nodes : List Node) (q : List QueueEntry) : Prop where
  bound : nodes.length + q.length ≤ 512
  count : nodes.length + q.length = 2 * L.length
  forest : ∃ ps : List (QueueEntry × PTree), ps.map Prod.fst = q ∧
    (∀ p ∈ ps, Represents nodes p.1.2.toNat p.2 ∧ p.2.weight = p.1.1 ∧ p.2.Sound) ∧
    (ps.flatMap fun p => p.2.leaves).Perm L
  children : (nodes.flatMap Node.childList ++ q.map fun e => e.2.toNat).Perm (List.range nodes.length)
  sound : ∀ i : Nat, i < nodes.length → ∃ t, Represents nodes i t ∧ t.Sound ∧
    ∃ rest, (t.leaves ++ rest).Perm L
  shape : ∃ inner, nodes = L.map (fun x => Node.leaf x.1 x.2) ++ inner ∧ ∀ x ∈ inner, ∃ l r w, x = Node.internal l r w

theorem exists_map_fst_queueInsert (e : QueueEntry) (t : PTree) (ps : List (QueueEntry × PTree)) :
    ∃ ps' : List (QueueEntry × PTree),
      ps'.map Prod.fst = queueInsert e (ps.map Prod.fst) ∧ ps'.Perm ((e, t) :: ps) := by
  induction ps with
  | nil => exact ⟨[(e, t)], rfl, List.Perm.refl _⟩
  | cons p ps ih =>
    rw [List.map_cons, queueInsert]
    split
    · exact ⟨(e, t) :: p :: ps, rfl, List.Perm.refl _⟩
    · obtain ⟨ps', h1, h2⟩ := ih
      exact ⟨p :: ps', by rw [List.map_cons, h1], (List.Perm.cons p h2).trans (List.Perm.swap _ _ _)⟩

/-- A node appended at the end holds the two trees it combines. -/
theorem Represents.combine {nodes : List Node} {x y : QueueEntry} {tx ty : PTree}
    (hx : Represents nodes x.2.toNat tx) (hy : Represents nodes y.2.toNat ty) (w : Word) :
    Represents (nodes ++ [.internal x.2 y.2 w]) nodes.length (.node tx ty w) :=
  .node (by simp) hx.lt hy.lt (hx.append _) (hy.append _)

theorem BuildInv.step {L : List (Byte × Word)} {nodes : List Node} {x y : QueueEntry} {q : List QueueEntry}
    (h : BuildInv L nodes (x :: y :: q)) :
    BuildInv L (nodes ++ [.internal x.2 y.2 (x.1 + y.1)])
      (queueInsert (x.1 + y.1, BitVec.ofNat 9 nodes.length) q) := by
  obtain ⟨bound, count, ⟨ps, hq, hps, hL⟩, children, sound, inner, hsh, hin⟩ := h
  obtain ⟨px, ps, rfl⟩ : ∃ px ps', ps = px :: ps' := by cases ps <;> simp_all
  obtain ⟨py, ps, rfl⟩ : ∃ py ps', ps = py :: ps' := by cases ps <;> simp_all
  simp only [List.map_cons, List.cons.injEq] at hq
  obtain ⟨rfl, rfl, rfl⟩ := hq
  simp only [List.length_cons, List.length_map] at bound count
  have hn : (BitVec.ofNat 9 nodes.length).toNat = nodes.length := by
    rw [BitVec.toNat_ofNat, Nat.mod_eq_of_lt (by omega)]
  obtain ⟨rx, wx, sx⟩ := hps px List.mem_cons_self
  obtain ⟨ry, wy, sy⟩ := hps py (List.mem_cons_of_mem _ List.mem_cons_self)
  have hnew := Represents.combine rx ry (px.1.1 + py.1.1)
  have snew : (PTree.node px.2 py.2 (px.1.1 + py.1.1)).Sound := ⟨by rw [wx, wy], sx, sy⟩
  have hL' : (PTree.leaves (.node px.2 py.2 (px.1.1 + py.1.1)) ++ ps.flatMap fun p => p.2.leaves).Perm L := by
    simpa [PTree.leaves] using hL
  refine ⟨by simp; omega, by simp; omega, ?_, ?_, ?_, ?_⟩
  · obtain ⟨ps', h1, h2⟩ := exists_map_fst_queueInsert (px.1.1 + py.1.1, BitVec.ofNat 9 nodes.length)
      (.node px.2 py.2 (px.1.1 + py.1.1)) ps
    refine ⟨ps', h1, fun p hp => ?_, (h2.flatMap_right _).trans (by simpa using hL')⟩
    rcases List.mem_cons.1 (h2.mem_iff.1 hp) with rfl | hp
    · exact ⟨by rw [hn]; exact hnew, rfl, snew⟩
    · obtain ⟨h1, h2, h3⟩ := hps p (by simp [hp])
      exact ⟨h1.append _, h2, h3⟩
  · rw [List.length_append, List.length_singleton, List.range_succ, List.flatMap_append]
    have h1 : ((queueInsert (px.1.1 + py.1.1, BitVec.ofNat 9 nodes.length) (ps.map Prod.fst)).map
        fun e => e.2.toNat).Perm (nodes.length :: (ps.map Prod.fst).map fun e => e.2.toNat) := by
      simpa [hn] using (queueInsert_perm (px.1.1 + py.1.1, BitVec.ofNat 9 nodes.length) (ps.map Prod.fst)).map
        (fun e : QueueEntry => e.2.toNat)
    refine (List.Perm.append_left _ h1).trans ?_
    refine (List.Perm.trans ?_ (children.append_right [nodes.length]))
    simp only [List.flatMap_cons, List.flatMap_nil, Node.childList, List.append_nil, List.map_cons, List.append_assoc]
    refine List.Perm.append_left _ ?_
    simp only [List.cons_append, List.nil_append]
    refine (List.Perm.cons _ (List.Perm.cons _ ?_))
    exact (List.perm_append_singleton _ _).symm
  · intro i hi
    rw [List.length_append, List.length_singleton] at hi
    rcases Nat.lt_or_ge i nodes.length with hlt | hge
    · obtain ⟨t, h1, h2, h3⟩ := sound i hlt
      exact ⟨t, h1.append _, h2, h3⟩
    · obtain rfl : i = nodes.length := by omega
      exact ⟨_, hnew, snew, _, hL'⟩
  · refine ⟨inner ++ [.internal px.1.2 py.1.2 (px.1.1 + py.1.1)], by rw [hsh, List.append_assoc], fun z hz => ?_⟩
    rcases List.mem_append.1 hz with hz | hz
    · exact hin z hz
    · exact ⟨_, _, _, List.mem_singleton.1 hz⟩

/-- The loop ends with one entry in the queue (R183). -/
theorem BuildInv.combine {L : List (Byte × Word)} (fuel : Nat) {nodes : List Node} {q : List QueueEntry}
    (h : BuildInv L nodes q) (hq : 0 < q.length) (hf : q.length ≤ fuel + 1) :
    ∃ e, BuildInv L (combine fuel nodes q) [e] := by
  induction fuel generalizing nodes q with
  | zero =>
    obtain ⟨e, rfl⟩ := List.length_eq_one_iff.1 (show q.length = 1 by omega)
    exact ⟨e, h⟩
  | succ fuel ih =>
    match q, h, hq, hf with
    | [e], h, _, _ => exact ⟨e, h⟩
    | x :: y :: q, h, _, hf =>
      exact ih h.step (by simp) (by simp at hf ⊢; omega)

/-! ### The greedy choice -/

/-- The weight of node `i` of a list of nodes. -/
def weightAt (nodes : List Node) (i : Nat) : Nat := ((nodes[i]?.map Node.weight).getD 0).toNat

/-- Node `i` comes out of the queue before node `j`: R181's key (w, i). -/
def keyLt (nodes : List Node) (i j : Nat) : Prop :=
  weightAt nodes i < weightAt nodes j ∨ weightAt nodes i = weightAt nodes j ∧ i < j

/-- Each internal node combines the two least of the nodes that were queued when it was made, the least as its left child
(R182). -/
def Greedy (nodes : List Node) : Prop :=
  ∀ i l r w, nodes[i]? = some (.internal l r w) → l.toNat < i ∧ r.toNat < i ∧ keyLt nodes l.toNat r.toNat ∧
    ∀ j < i, j ≠ l.toNat → j ≠ r.toNat → (∀ m x, m < i → nodes[m]? = some x → j ∉ x.childList) →
      keyLt nodes l.toNat j ∧ keyLt nodes r.toNat j

theorem weightAt_append {nodes more : List Node} {i : Nat} (h : i < nodes.length) :
    weightAt (nodes ++ more) i = weightAt nodes i := by
  rw [weightAt, List.getElem?_append_left h]; rfl

theorem keyLt_append {nodes more : List Node} {i j : Nat} (hi : i < nodes.length) (hj : j < nodes.length) :
    keyLt (nodes ++ more) i j ↔ keyLt nodes i j := by
  rw [keyLt, weightAt_append hi, weightAt_append hj]; rfl

/-- The queue is in key order, and each entry carries the weight of the node it names. -/
structure QueueInv (nodes : List Node) (q : List QueueEntry) : Prop where
  sorted : q.Pairwise fun x y => QueueEntry.before x y = true
  keyed : ∀ e ∈ q, e.2.toNat < nodes.length ∧ weightAt nodes e.2.toNat = e.1.toNat
  greedy : Greedy nodes

theorem QueueInv.keyLt {nodes : List Node} {q : List QueueEntry} {x y : QueueEntry} (h : QueueInv nodes q) (hx : x ∈ q)
    (hy : y ∈ q) (hb : QueueEntry.before x y = true) : keyLt nodes x.2.toNat y.2.toNat := by
  rw [Machine.keyLt, (h.keyed x hx).2, (h.keyed y hy).2]
  exact ((QueueEntry.before_iff x y).1 hb).imp_right fun ⟨h1, h2⟩ => ⟨congrArg BitVec.toNat h1, h2⟩

/-- A node that is no child is queued. -/
theorem BuildInv.queued {L : List (Byte × Word)} {nodes : List Node} {q : List QueueEntry} (h : BuildInv L nodes q) {j : Nat}
    (hj : j < nodes.length) (hn : ∀ m x, m < nodes.length → nodes[m]? = some x → j ∉ x.childList) :
    ∃ e ∈ q, e.2.toNat = j := by
  rcases List.mem_append.1 (h.children.mem_iff.2 (List.mem_range.2 hj)) with hc | hq
  · obtain ⟨x, hx, hjx⟩ := List.mem_flatMap.1 hc
    obtain ⟨m, hm⟩ := List.getElem?_of_mem hx
    exact absurd hjx (hn m x (List.getElem?_eq_some_iff.1 hm).1 hm)
  · simpa using hq

/-- One turn of the combine loop keeps the queue in order and makes the greedy choice (R181, R182). -/
theorem QueueInv.step {L : List (Byte × Word)} {nodes : List Node} {x y : QueueEntry} {q : List QueueEntry}
    (hb : BuildInv L nodes (x :: y :: q)) (h : QueueInv nodes (x :: y :: q)) :
    QueueInv (nodes ++ [.internal x.2 y.2 (x.1 + y.1)])
      (queueInsert (x.1 + y.1, BitVec.ofNat 9 nodes.length) q) := by
  have hlen := hb.bound
  simp only [List.length_cons] at hlen
  have hn : (BitVec.ofNat 9 nodes.length).toNat = nodes.length := by
    rw [BitVec.toNat_ofNat, Nat.mod_eq_of_lt (by omega)]
  obtain ⟨hx, hyq⟩ := List.pairwise_cons.1 h.sorted
  obtain ⟨hy, hq⟩ := List.pairwise_cons.1 hyq
  have mx : x ∈ x :: y :: q := List.mem_cons_self
  have my : y ∈ x :: y :: q := List.mem_cons_of_mem _ List.mem_cons_self
  have mq : ∀ e ∈ q, e ∈ x :: y :: q := fun e he => List.mem_cons_of_mem _ (List.mem_cons_of_mem _ he)
  have lx := (h.keyed x mx).1
  have ly := (h.keyed y my).1
  refine ⟨queueInsert_sorted hq fun e he heq => ?_, fun e he => ?_, fun i l r w hi => ?_⟩
  · have := (h.keyed e (mq e he)).1
    rw [← heq, hn] at this
    omega
  · rw [List.length_append, List.length_singleton]
    rcases List.mem_cons.1 ((queueInsert_perm _ _).mem_iff.1 he) with rfl | he
    · refine ⟨by rw [hn]; omega, ?_⟩
      rw [hn, weightAt, List.getElem?_append_right (Nat.le_refl _), Nat.sub_self]
      rfl
    · obtain ⟨h1, h2⟩ := h.keyed e (mq e he)
      exact ⟨by omega, by rw [weightAt_append h1, h2]⟩
  · rcases Nat.lt_or_ge i nodes.length with hlt | hge
    · rw [List.getElem?_append_left hlt] at hi
      obtain ⟨hl, hr, hlr, hj⟩ := h.greedy i l r w hi
      refine ⟨hl, hr, (keyLt_append (by omega) (by omega)).2 hlr, fun j hji h1 h2 hc => ?_⟩
      have := hj j hji h1 h2 fun m z hm hz =>
        hc m z hm (by rwa [List.getElem?_append_left (Nat.lt_trans hm hlt)])
      exact ⟨(keyLt_append (by omega) (by omega)).2 this.1, (keyLt_append (by omega) (by omega)).2 this.2⟩
    · have hin : i < (nodes ++ [Node.internal x.2 y.2 (x.1 + y.1)]).length := (List.getElem?_eq_some_iff.1 hi).1
      rw [List.length_append, List.length_singleton] at hin
      obtain rfl : i = nodes.length := by omega
      rw [List.getElem?_append_right (Nat.le_refl _), Nat.sub_self] at hi
      obtain ⟨rfl, rfl, rfl⟩ := Node.internal.inj (Option.some.inj hi)
      refine ⟨lx, ly, (keyLt_append lx ly).2 (h.keyLt mx my (hx y List.mem_cons_self)), fun j hj h1 h2 hc => ?_⟩
      obtain ⟨e, he, rfl⟩ := hb.queued hj fun m z hm hz => hc m z hm (by rwa [List.getElem?_append_left hm])
      have heq : e ∈ q := by
        rcases List.mem_cons.1 he with rfl | he
        · exact absurd rfl h1
        · rcases List.mem_cons.1 he with rfl | he
          · exact absurd rfl h2
          · exact he
      exact ⟨(keyLt_append lx hj).2 (h.keyLt mx he (hx e (List.mem_cons_of_mem _ heq))),
        (keyLt_append ly hj).2 (h.keyLt my he (hy e heq))⟩

theorem Greedy.combine {L : List (Byte × Word)} (fuel : Nat) {nodes : List Node} {q : List QueueEntry}
    (hb : BuildInv L nodes q) (h : QueueInv nodes q) : Greedy (combine fuel nodes q) := by
  induction fuel generalizing nodes q with
  | zero => exact h.greedy
  | succ fuel ih =>
    match q, hb, h with
    | [], _, h => exact h.greedy
    | [e], _, h => exact h.greedy
    | x :: y :: q, hb, h => exact ih hb.step (h.step hb)

/-! ### build(F) -/

/-- The (symbol, weight) pairs of a table, in ascending symbol order (R182). -/
def leafPairs (F : Table Word) : List (Byte × Word) := (presentSymbols F).map fun s => (s, Table.look F s)

theorem leafNodes_eq (F : Table Word) : leafNodes F = (leafPairs F).map fun x => Node.leaf x.1 x.2 := by
  simp [leafNodes, leafPairs]

theorem length_leafPairs_le (F : Table Word) : (leafPairs F).length ≤ 256 := by
  simpa [leafPairs] using presentSymbols_length_le F

theorem BuildInv.start (L : List (Byte × Word)) (hL : L.length ≤ 256) :
    BuildInv L (L.map fun x => Node.leaf x.1 x.2)
      ((((L.map fun x => Node.leaf x.1 x.2).zipIdx.map fun p =>
        ((p.1.weight, BitVec.ofNat 9 p.2) : QueueEntry))).foldr queueInsert []) := by
  have hperm := foldr_queueInsert_perm ((L.map fun x => Node.leaf x.1 x.2).zipIdx.map fun p =>
        ((p.1.weight, BitVec.ofNat 9 p.2) : QueueEntry))
  have hlen := hperm.length_eq
  simp only [List.length_map, List.length_zipIdx] at hlen
  have hrep : ∀ i (hi : i < L.length), Represents (L.map fun x => Node.leaf x.1 x.2) i (.leaf L[i].1 L[i].2) :=
    fun i hi => .leaf (by simp [hi])
  have hmod : ∀ i < L.length, (BitVec.ofNat 9 i).toNat = i := fun i hi => by
    rw [BitVec.toNat_ofNat, Nat.mod_eq_of_lt (by omega)]
  refine ⟨by rw [hlen, List.length_map]; omega, by rw [hlen, List.length_map]; omega, ?_, ?_, ?_, [], by simp, by simp⟩
  · -- the forest of single leaves
    have : ∀ es : List (QueueEntry × PTree), ∃ ps : List (QueueEntry × PTree),
        ps.map Prod.fst = (es.map Prod.fst).foldr queueInsert [] ∧ ps.Perm es := by
      intro es
      induction es with
      | nil => exact ⟨[], rfl, List.Perm.refl _⟩
      | cons e es ih =>
        obtain ⟨ps, h1, h2⟩ := ih
        obtain ⟨ps', h3, h4⟩ := exists_map_fst_queueInsert e.1 e.2 ps
        exact ⟨ps', by rw [h3, h1]; rfl, h4.trans (h2.cons _)⟩
    obtain ⟨ps, h1, h2⟩ := this (L.zipIdx.map fun p => ((p.1.2, BitVec.ofNat 9 p.2), PTree.leaf p.1.1 p.1.2))
    refine ⟨ps, ?_, fun p hp => ?_, (h2.flatMap_right _).trans ?_⟩
    · rw [h1, List.zipIdx_map, List.map_map, List.map_map]
      rfl
    · obtain ⟨x, hx, rfl⟩ := List.mem_map.1 (h2.mem_iff.1 hp)
      obtain ⟨hi, hx2⟩ := List.mem_zipIdx' hx
      refine ⟨?_, rfl, trivial⟩
      show Represents _ (BitVec.ofNat 9 x.2).toNat (.leaf x.1.1 x.1.2)
      rw [hmod _ hi, hx2]
      exact hrep _ hi
    · rw [List.flatMap_map]
      simp only [PTree.leaves]
      rw [show (L.zipIdx.flatMap fun p => [(p.1.1, p.1.2)]) = L.zipIdx.map Prod.fst by
        induction L.zipIdx with
        | nil => rfl
        | cons a l ih => simp [ih], List.zipIdx_map_fst]
  · have h0 : (L.map fun x => Node.leaf x.1 x.2).flatMap Node.childList = [] := by
      rw [List.flatMap_eq_nil_iff]
      intro x hx
      obtain ⟨y, -, rfl⟩ := List.mem_map.1 hx
      rfl
    rw [h0, List.nil_append]
    refine (hperm.map _).trans (List.Perm.of_eq ?_)
    refine List.ext_getElem (by simp) fun i h1 h2 => ?_
    have hi : i < L.length := by simpa using h2
    simp [hmod i hi]
  · intro i hi
    have hi : i < L.length := by simpa using hi
    refine ⟨_, hrep i hi, trivial, L.eraseIdx i, ?_⟩
    simpa [PTree.leaves] using (List.getElem_cons_eraseIdx_perm hi)

/-- What build(F) makes of a table with at least one present symbol (R182, R183). -/
theorem buildNodes_spec (F : Table Word) (hF : 0 < (presentSymbols F).length) :
    ∃ e, BuildInv (leafPairs F) (buildNodes F) [e] := by
  have hk : (leafNodes F).length = (leafPairs F).length := by rw [leafNodes_eq, List.length_map]
  have hpos : 0 < (leafPairs F).length := by simpa [leafPairs] using hF
  have hs := BuildInv.start (leafPairs F) (length_leafPairs_le F)
  rw [← leafNodes_eq] at hs
  change BuildInv _ (leafNodes F) ((leafEntries F).foldr queueInsert []) at hs
  have hc := hs.count
  rw [← hk] at hc
  exact BuildInv.combine _ hs (by omega) (by omega)

/-- The queue of the leaves: in key order, and an entry for each leaf (R182). -/
theorem leafQueue_spec (F : Table Word) :
    ((leafEntries F).foldr queueInsert []).Perm (leafEntries F) ∧
      ((leafEntries F).foldr queueInsert []).Pairwise fun x y => QueueEntry.before x y = true := by
  refine ⟨foldr_queueInsert_perm _, ?_⟩
  have hd : (leafEntries F).Pairwise fun x y => x.2 ≠ y.2 := by
    rw [List.pairwise_iff_getElem]
    intro i j hi hj hij
    have hk : (leafEntries F).length ≤ 256 := by
      simpa [leafEntries, leafNodes] using presentSymbols_length_le F
    simp only [leafEntries, List.getElem_map, List.getElem_zipIdx, Nat.zero_add, ne_eq, ← BitVec.toNat_inj,
      BitVec.toNat_ofNat]
    omega
  generalize leafEntries F = es at hd
  induction es with
  | nil => exact List.Pairwise.nil
  | cons e es ih =>
    obtain ⟨h1, h2⟩ := List.pairwise_cons.1 hd
    exact queueInsert_sorted (ih h2) fun x hx => h1 x ((foldr_queueInsert_perm es).mem_iff.1 hx)

/-- build(F) makes the greedy choice at every internal node (R181, R182). -/
theorem buildNodes_greedy (F : Table Word) : Greedy (buildNodes F) := by
  have hs := BuildInv.start (leafPairs F) (length_leafPairs_le F)
  rw [← leafNodes_eq] at hs
  change BuildInv _ (leafNodes F) ((leafEntries F).foldr queueInsert []) at hs
  have hk : (leafNodes F).length ≤ 256 := by simpa [leafNodes] using presentSymbols_length_le F
  refine Greedy.combine _ hs ⟨(leafQueue_spec F).2, fun e he => ?_, fun i l r w hi => ?_⟩
  · obtain ⟨p, hp, rfl⟩ := List.mem_map.1 ((leafQueue_spec F).1.mem_iff.1 he)
    obtain ⟨hi, hx⟩ := List.mem_zipIdx' hp
    have hm : (BitVec.ofNat 9 p.2).toNat = p.2 := by rw [BitVec.toNat_ofNat, Nat.mod_eq_of_lt (by omega)]
    refine ⟨by rw [hm]; exact hi, ?_⟩
    rw [hm, weightAt, List.getElem?_eq_getElem hi, ← hx]
    rfl
  · obtain ⟨x, -, hx⟩ := List.mem_map.1 (List.mem_of_getElem? hi)
    cases hx

theorem buildNodes_empty (F : Table Word) (hF : presentSymbols F = []) : buildNodes F = [] := by
  simp [buildNodes, leafNodes, leafEntries, hF, combine]

end Sys2Proof.Machine
end

