-- ==== Sys2Proof/Laws/Codes.lean ====
section
/-! SUPPORT. The codes of a built tree (R200, R202, R203) and the codebook that holds them (R42, R204). -/

namespace Sys2Proof.Machine

/-! ### The shape of build(F) -/

theorem leafPairs_fst (F : Table Word) : (leafPairs F).map Prod.fst = presentSymbols F := by
  simp [leafPairs, Function.comp_def]

/-- With no symbol present the tree is absent (R182). -/
theorem buildTree_of_empty {F : Table Word} (hF : presentSymbols F = []) : buildTree F = CodeTree.absent := by
  rw [buildTree, buildNodes_empty F hF]
  have : Arena.ofNodes [] = Vector.replicate 511 Node.blank := by
    refine Vector.ext fun i hi => ?_
    have := Arena.slot_ofNodes [] i hi
    rw [Arena.slot, dif_pos hi] at this
    rw [this, Vector.getElem_replicate]
    rfl
  rw [CodeTree.ofNodes, this]
  rfl

/-- The one entry left in the queue is the last node: it is no one's child (R183). -/
theorem BuildInv.queued_last {L : List (Byte × Word)} {nodes : List Node} {e : QueueEntry} (h : BuildInv L nodes [e])
    (hn : 0 < nodes.length) : e.2.toNat = nodes.length - 1 := by
  have hlast : nodes.length - 1 ∈ List.range nodes.length := List.mem_range.2 (by omega)
  have hmem := h.children.symm.mem_iff.1 hlast
  rw [List.mem_append] at hmem
  rcases hmem with hmem | hmem
  · exfalso
    obtain ⟨x, hx, hxc⟩ := List.mem_flatMap.1 hmem
    obtain ⟨i, hi, rfl⟩ := List.getElem_of_mem hx
    obtain ⟨t, ht, -⟩ := h.sound i hi
    cases ht with
    | leaf hg =>
      obtain ⟨_, hg⟩ := List.getElem?_eq_some_iff.1 hg
      simp [hg, Node.childList] at hxc
    | node hg hl hr =>
      obtain ⟨_, hg⟩ := List.getElem?_eq_some_iff.1 hg
      simp only [hg, Node.childList, List.mem_cons, List.not_mem_nil, or_false] at hxc
      omega
  · rw [List.map_singleton, List.mem_singleton] at hmem
    exact hmem.symm

/-- The arena of a table with k ≥ 1 present symbols: 2k − 1 nodes, which hold under the last index a tree whose leaves
are the table's (symbol, weight) pairs (R183, R186). -/
theorem exists_tree {F : Table Word} (hF : 0 < (presentSymbols F).length) :
    (buildNodes F).length + 1 = 2 * (presentSymbols F).length ∧ (buildNodes F).length ≤ 511 ∧
      ∃ t, Represents (buildNodes F) ((buildNodes F).length - 1) t ∧ t.leaves.Perm (leafPairs F) ∧ t.Sound := by
  obtain ⟨e, h⟩ := buildNodes_spec F hF
  have hc := h.count
  have hb := h.bound
  have hk : (leafPairs F).length = (presentSymbols F).length := by rw [← leafPairs_fst, List.length_map]
  simp only [List.length_singleton] at hc hb
  refine ⟨by omega, by omega, ?_⟩
  obtain ⟨ps, hq, hps, hL⟩ := h.forest
  obtain ⟨p, rfl⟩ := List.length_eq_one_iff.1 (show ps.length = 1 by rw [← List.length_map (f := Prod.fst), hq]; rfl)
  obtain ⟨hr, hw, hs⟩ := hps p (by simp)
  have hroot : p.1.2.toNat = (buildNodes F).length - 1 := by
    simp only [List.map_cons, List.map_nil, List.cons.injEq, and_true] at hq
    rw [hq]
    exact h.queued_last (by omega)
  refine ⟨p.2, hroot ▸ hr, by simpa using hL, hs⟩

theorem toNat_nnodes_buildTree {F : Table Word} (hF : 0 < (presentSymbols F).length) :
    (buildTree F).nnodes.toNat = (buildNodes F).length := by
  have := (exists_tree hF).2.1
  rw [buildTree, CodeTree.ofNodes, BitVec.toNat_ofNat, Nat.mod_eq_of_lt (by omega)]

theorem toNat_root_buildTree {F : Table Word} (hF : 0 < (presentSymbols F).length) :
    (buildTree F).root.toNat = (buildNodes F).length - 1 := by
  have := (exists_tree hF).2.1
  rw [buildTree, CodeTree.ofNodes, BitVec.toNat_ofNat, Nat.mod_eq_of_lt (by omega)]

/-- A valid slot of a built tree. -/
theorem slot_buildTree {F : Table Word} (hF : 0 < (presentSymbols F).length) {i : Nat} (hi : i < (buildNodes F).length) :
    Arena.slot (buildTree F).node i = (buildNodes F)[i] :=
  Arena.slot_of_getElem? (exists_tree hF).2.1 (List.getElem?_eq_getElem hi)

/-- The leaves' weights sum to the counts' sum (R184). -/
theorem sum_leafPairs (F : Table Word) :
    ((leafPairs F).map fun x => x.2.toNat).sum = (allSymbols.map fun s => (Table.look F s).toNat).sum := by
  unfold leafPairs
  rw [presentSymbols_eq, List.map_map]
  induction allSymbols with
  | nil => rfl
  | cons s l ih =>
    rw [List.filter_cons]
    split
    · rw [List.map_cons, List.sum_cons, ih, List.map_cons, List.sum_cons]
      rfl
    · next h =>
      have : Table.look F s = 0 := by simpa using h
      rw [ih, List.map_cons, List.sum_cons, this]
      simp

/-- NNODES is 0 exactly when no symbol is present (R37). -/
theorem nnodes_buildTree_eq_zero {F : Table Word} : (buildTree F).nnodes = 0 ↔ presentSymbols F = [] := by
  constructor
  · intro h
    by_contra hne
    have hF := List.length_pos_iff.2 hne
    have h1 := toNat_nnodes_buildTree hF
    have h2 := (exists_tree hF).1
    rw [h] at h1
    simp at h1
    omega
  · intro h
    rw [buildTree_of_empty h]
    rfl

/-! ### The codes -/

/-- With one symbol present the code is "0" (R200). -/
theorem codes_buildTree_single {F : Table Word} {s : Byte} (hF : presentSymbols F = [s]) :
    (buildTree F).nnodes = 1 ∧ Arena.slot (buildTree F).node 0 = .leaf s (Table.look F s) ∧
      (buildTree F).codes = [(s, [false])] := by
  have hn : buildNodes F = [.leaf s (Table.look F s)] := by
    simp [buildNodes, leafNodes, leafEntries, hF, combine, queueInsert]
  have hslot : Arena.slot (buildTree F).node 0 = .leaf s (Table.look F s) := by
    rw [buildTree, CodeTree.ofNodes, Arena.slot_ofNodes _ _ (by omega), hn]
    rfl
  have h1 : (buildTree F).nnodes = 1 := by rw [buildTree, hn]; rfl
  refine ⟨h1, hslot, ?_⟩
  rw [CodeTree.codes, if_neg (by rw [h1]; decide), if_pos h1, hslot]

/-- With k ≥ 2 symbols present the codes are the paths of a tree whose root is an inner node (R200, R252). -/
theorem codes_buildTree_many {F : Table Word} (hF : 2 ≤ (presentSymbols F).length) :
    (buildTree F).nnodes ≠ 0 ∧ (buildTree F).nnodes ≠ 1 ∧ ∃ l r w, (PTree.node l r w).leaves.Perm (leafPairs F) ∧
      (PTree.node l r w).Sound ∧ Represents (buildNodes F) (buildTree F).root.toNat (.node l r w) ∧
      (buildTree F).codes = (PTree.node l r w).codes [] := by
  have hpos : 0 < (presentSymbols F).length := by omega
  obtain ⟨hlen, hle, t, hr, hp, hs⟩ := exists_tree hpos
  have hnn := toNat_nnodes_buildTree hpos
  have h0 : (buildTree F).nnodes ≠ 0 := fun h => by rw [h] at hnn; simp at hnn; omega
  have h1 : (buildTree F).nnodes ≠ 1 := fun h => by rw [h] at hnn; simp at hnn; omega
  have hk : t.leaves.length = (presentSymbols F).length := by
    rw [hp.length_eq, ← leafPairs_fst, List.length_map]
  have hroot := toNat_root_buildTree hpos
  rw [← hroot] at hr
  have hd := hr.depth_le
  have hw := walkCodes_of_represents hle hr Config.maxNodes
    (by rw [hroot] at hd; simp only [Config.maxNodes]; omega) []
  cases t with
  | leaf s w => simp only [PTree.leaves, List.length_singleton] at hk; omega
  | node l r w =>
    refine ⟨h0, h1, l, r, w, hp, hs, hr, ?_⟩
    rw [CodeTree.codes, if_neg h0, if_neg h1, ← hw]
    rfl

/-- The symbols with a code are exactly those present (R203). -/
theorem codes_symbols_perm (F : Table Word) : ((buildTree F).codes.map Prod.fst).Perm (presentSymbols F) := by
  match h : presentSymbols F with
  | [] => rw [buildTree_of_empty h]; exact List.Perm.refl _
  | [s] => rw [(codes_buildTree_single h).2.2]; exact List.Perm.refl _
  | s :: s' :: l =>
    obtain ⟨-, -, tl, tr, w, hp, -, -, hc⟩ := codes_buildTree_many (F := F) (by rw [h]; simp)
    rw [hc, PTree.codes_symbols, ← h, ← leafPairs_fst]
    exact hp.map _

/-- The codes are mutually prefix-free (R203). -/
theorem codes_prefixFree (F : Table Word) :
    (buildTree F).codes.Pairwise fun c d => ¬ c.2 <+: d.2 ∧ ¬ d.2 <+: c.2 := by
  match h : presentSymbols F with
  | [] => rw [buildTree_of_empty h]; exact List.Pairwise.nil
  | [s] => rw [(codes_buildTree_single h).2.2]; exact List.pairwise_singleton _ _
  | s :: s' :: l =>
    obtain ⟨-, -, tl, tr, w, -, -, -, hc⟩ := codes_buildTree_many (F := F) (by rw [h]; simp)
    rw [hc]
    exact PTree.codes_prefixFree _ _

/-- Every code has 1 to k − 1 bits, and one bit when k = 1 (R202). -/
theorem codes_length (F : Table Word) {c : Byte × List Bool} (hc : c ∈ (buildTree F).codes) :
    1 ≤ c.2.length ∧ c.2.length ≤ max 1 ((presentSymbols F).length - 1) := by
  match h : presentSymbols F with
  | [] => rw [buildTree_of_empty h] at hc; exact absurd hc (by simp [CodeTree.codes, CodeTree.absent])
  | [s] =>
    rw [(codes_buildTree_single h).2.2] at hc
    simp only [List.mem_singleton] at hc
    simp [hc]
  | s :: s' :: l =>
    obtain ⟨-, -, tl, tr, w, hp, -, -, hcs⟩ := codes_buildTree_many (F := F) (by rw [h]; simp)
    rw [hcs] at hc
    have h1 := PTree.node_codes_length_pos _ _ _ _ hc
    have h2 := PTree.codes_length_le _ _ hc
    have h3 := (PTree.node tl tr w).depth_lt_leaves
    rw [hp.length_eq] at h3
    have h4 : (leafPairs F).length = (presentSymbols F).length := by rw [← leafPairs_fst, List.length_map]
    rw [h4, h] at h3
    simp only [List.length_nil] at h1 h2
    refine ⟨by omega, le_trans ?_ (le_max_right _ _)⟩
    omega

theorem codes_length_le_255 (F : Table Word) {c : Byte × List Bool} (hc : c ∈ (buildTree F).codes) :
    c.2.length ≤ 255 := by
  have h1 := (codes_length F hc).2
  have h2 := presentSymbols_length_le F
  omega

/-- The Kraft sum, scaled by 2^255: 1 for k ≥ 2 and 1/2 for k = 1 (R203). -/
theorem codes_kraft (F : Table Word) :
    ((buildTree F).codes.map fun c => 2 ^ (255 - c.2.length)).sum =
      if 2 ≤ (presentSymbols F).length then 2 ^ 255 else if (presentSymbols F).length = 1 then 2 ^ 254 else 0 := by
  match h : presentSymbols F with
  | [] =>
    rw [buildTree_of_empty h]
    simp [CodeTree.codes, CodeTree.absent]
  | [s] =>
    rw [(codes_buildTree_single h).2.2]
    simp
  | s :: s' :: l =>
    obtain ⟨-, -, tl, tr, w, hp, -, -, hcs⟩ := codes_buildTree_many (F := F) (by rw [h]; simp)
    have h3 := (PTree.node tl tr w).depth_lt_leaves
    rw [hp.length_eq] at h3
    have h4 := length_leafPairs_le F
    rw [hcs, PTree.kraft _ _ 255 (by simp; omega), if_pos (by simp), List.length_nil, Nat.sub_zero]

/-! ### The codebook -/

theorem foldl_assign_of_not_mem (cs : List (Byte × List Bool)) (b : CodeBook) (s : Byte) (h : s ∉ cs.map Prod.fst) :
    Table.look (cs.foldl (fun b c => b.assign c.1 c.2) b).len s = Table.look b.len s ∧
      Table.look (cs.foldl (fun b c => b.assign c.1 c.2) b).val s = Table.look b.val s := by
  induction cs generalizing b with
  | nil => exact ⟨rfl, rfl⟩
  | cons c cs ih =>
    rw [List.map_cons, List.mem_cons, not_or] at h
    obtain ⟨h1, h2⟩ := ih (b.assign c.1 c.2) h.2
    rw [List.foldl_cons, h1, h2]
    exact ⟨Table.look_put_of_ne _ _ h.1, Table.look_put_of_ne _ _ h.1⟩

theorem foldl_assign_of_mem (cs : List (Byte × List Bool)) (hn : (cs.map Prod.fst).Nodup) (b : CodeBook)
    {c : Byte × List Bool} (h : c ∈ cs) :
    Table.look (cs.foldl (fun b c => b.assign c.1 c.2) b).len c.1 = BitVec.ofNat 8 c.2.length ∧
      Table.look (cs.foldl (fun b c => b.assign c.1 c.2) b).val c.1 = BitVec.ofNat 255 (bitsValue c.2) := by
  induction cs generalizing b with
  | nil => simp at h
  | cons d cs ih =>
    rw [List.map_cons, List.nodup_cons] at hn
    rw [List.foldl_cons]
    rcases List.mem_cons.1 h with rfl | h
    · obtain ⟨h1, h2⟩ := foldl_assign_of_not_mem cs (b.assign c.1 c.2) c.1 hn.1
      rw [h1, h2]
      exact ⟨Table.look_put_self _ _ _, Table.look_put_self _ _ _⟩
    · exact ih hn.2 _ h

theorem codes_symbols_nodup (F : Table Word) : ((buildTree F).codes.map Prod.fst).Nodup :=
  (codes_symbols_perm F).nodup_iff.2 (presentSymbols_nodup F)

/-- The codebook holds a code's length, and its lookup gives the code (R42, R204). -/
theorem generateBook_code {F : Table Word} {c : Byte × List Bool} (hc : c ∈ (buildTree F).codes) :
    (Table.look (generateBook (buildTree F)).len c.1).toNat = c.2.length ∧
      (generateBook (buildTree F)).code c.1 = c.2 := by
  obtain ⟨h1, h2⟩ := foldl_assign_of_mem _ (codes_symbols_nodup F) CodeBook.empty hc
  have hl := codes_length_le_255 F hc
  have h3 : (Table.look (generateBook (buildTree F)).len c.1).toNat = c.2.length := by
    rw [generateBook, h1, BitVec.toNat_ofNat, Nat.mod_eq_of_lt (by omega)]
  refine ⟨h3, ?_⟩
  rw [CodeBook.code, h3, generateBook, h2]
  exact range_map_getLsbD_bitsValue c.2 hl

/-- A symbol that is not present has no code (R200). -/
theorem generateBook_absent {F : Table Word} {s : Byte} (hs : Table.look F s = 0) :
    Table.look (generateBook (buildTree F)).len s = 0 := by
  have : s ∉ (buildTree F).codes.map Prod.fst := fun h => by
    have := (codes_symbols_perm F).mem_iff.1 h
    exact (mem_presentSymbols F s).1 this hs
  rw [generateBook, (foldl_assign_of_not_mem _ _ s this).1]
  simp [CodeBook.empty]

/-- The pair a present symbol has among the codes. -/
theorem exists_code {F : Table Word} {s : Byte} (hs : Table.look F s ≠ 0) : ∃ p, (s, p) ∈ (buildTree F).codes := by
  have := (codes_symbols_perm F).symm.mem_iff.1 ((mem_presentSymbols F s).2 hs)
  obtain ⟨c, hc, rfl⟩ := List.mem_map.1 this
  exact ⟨c.2, hc⟩

/-- A symbol has a code exactly when it is present (R203). -/
theorem generateBook_len_ne_zero {F : Table Word} {s : Byte} :
    Table.look (generateBook (buildTree F)).len s ≠ 0 ↔ Table.look F s ≠ 0 := by
  refine ⟨fun h h' => h (generateBook_absent h'), fun h h' => ?_⟩
  obtain ⟨p, hp⟩ := exists_code h
  have h1 := (generateBook_code hp).1
  have h2 := (codes_length F hp).1
  simp only [h'] at h1
  simp at h1
  simp [← h1] at h2

end Sys2Proof.Machine
end

