-- ==== Sys2Proof/Laws/Plan.lean ====
section
/-! SUPPORT. What the shared operations of the command bodies can do: the checks, the source buffer, the destination, and
the end of a command. -/

namespace Sys2Proof.Machine

@[simp] theorem require_true (e : CmdError) : require true e = .ok () := rfl
@[simp] theorem require_false (e : CmdError) : require false e = .error (.raised e) := rfl

theorem require_eq_ok {c : Bool} {e : CmdError} {u : Unit} : require c e = .ok u ↔ c = true := by
  cases c <;> simp

theorem require_eq_error {c : Bool} {e : CmdError} {x : Stop} :
    require c e = .error x ↔ c = false ∧ x = .raised e := by
  cases c <;> simp [eq_comm]

@[simp] theorem ok_bind {α β : Type} (a : α) (f : α → Except Stop β) : (Except.ok a >>= f) = f a := rfl
@[simp] theorem error_bind {α β : Type} (x : Stop) (f : α → Except Stop β) :
    (Except.error x >>= f) = Except.error x := rfl

theorem bind_eq_ok {α β : Type} {p : Except Stop α} {f : α → Except Stop β} {b : β} :
    (p >>= f) = .ok b ↔ ∃ a, p = .ok a ∧ f a = .ok b := by
  cases p <;> simp

theorem bind_eq_error {α β : Type} {p : Except Stop α} {f : α → Except Stop β} {x : Stop} :
    (p >>= f) = .error x ↔ p = .error x ∨ ∃ a, p = .ok a ∧ f a = .error x := by
  cases p <;> simp

@[simp] theorem pure_eq_ok {α : Type} (a : α) : (pure a : Except Stop α) = .ok a := rfl

/-! ### The contract of R72 and R83 -/

theorem access_eq_ok {p : Platform} {a n : Nat} {u : Unit} : p.access a n = .ok u ↔ p.usable a n = true := by
  unfold Platform.access
  cases p.usable a n <;> simp

/-- Outside the contract the refusal's name is `Platform.refusal`. -/
theorem access_of_unusable {p : Platform} {a n : Nat} (h : p.usable a n = false) :
    p.access a n = .error (.refuse p.refusal) := by
  simp [Platform.access, h]

theorem access_not_raised {p : Platform} {a n : Nat} {e : CmdError} : p.access a n ≠ .error (.raised e) := by
  unfold Platform.access
  cases p.usable a n <;> simp

theorem access_of_usable {p : Platform} {a n : Nat} (h : p.usable a n = true) : p.access a n = .ok () :=
  access_eq_ok.2 h

@[simp] theorem usable_zero (p : Platform) (a : Nat) : p.usable a 0 = true := by simp [Platform.usable]

/-- On a coherent platform without devices every buffer is inside the contract. -/
theorem usable_of_ordinary {p : Platform} (hc : p.coherent = true) (hd : p.devices = []) (a n : Nat) :
    p.usable a n = true := by
  simp [Platform.usable, hc, hd, ordinaryRange]

/-! ### Ranges -/

theorem inRange_iff {m a n : Nat} : inRange m a n = true ↔ n = 0 ∨ a + n ≤ m := by
  simp [inRange]

theorem overlap_iff {a m b n : Nat} : overlap a m b n = true ↔ 0 < m ∧ 0 < n ∧ a < b + n ∧ b < a + m := by
  simp [overlap, and_assoc]

/-- Ranges that do not overlap share no address. -/
theorem not_both_of_not_overlap {a m b n x : Nat} (h : overlap a m b n = false) :
    ¬ ((a ≤ x ∧ x < a + m) ∧ (b ≤ x ∧ x < b + n)) := by
  intro ⟨h1, h2⟩
  have : overlap a m b n = true := overlap_iff.2 (by omega)
  simp [h] at this

/-! ### The source buffer -/

theorem sourceBytes_eq_ok {s : State} {bytes : List Byte} :
    s.sourceBytes = .ok bytes ↔ inRange s.platform.memSize s.src s.srcCount = true ∧
      s.platform.usable s.src s.srcCount = true ∧ bytes = s.sourceData := by
  simp only [State.sourceBytes, bind_eq_ok, require_eq_ok, access_eq_ok, pure_eq_ok, exists_const, Except.ok.injEq,
    eq_comm (a := bytes)]

theorem sourceBytes_raised {s : State} {e : CmdError} :
    s.sourceBytes = .error (.raised e) ↔ inRange s.platform.memSize s.src s.srcCount = false ∧ e = .range .source := by
  simp only [State.sourceBytes, bind_eq_error, require_eq_error, access_not_raised, pure_eq_ok, Stop.raised.injEq,
    reduceCtorEq, and_false, exists_false, or_false]

@[simp] theorem length_sourceData (s : State) : s.sourceData.length = s.srcCount := by
  simp [State.sourceData]

theorem srcCount_lt (s : State) : s.srcCount < 2 ^ 32 := s.latch.srcLen.isLt

/-! ### The destination -/

theorem checkDestination_eq_ok {s : State} {a n nb : Nat} {u : Unit} :
    s.checkDestination a n nb = .ok u ↔ nb ≤ s.capacity ∧ inRange s.platform.memSize s.dst nb = true ∧
      overlap a n s.dst nb = false ∧ s.platform.usable s.dst nb = true := by
  simp only [State.checkDestination, bind_eq_ok, require_eq_ok, access_eq_ok, exists_const, decide_eq_true_eq,
    Bool.not_eq_true']

/-- The destination's errors, each when its own check is the first to fail (R304, R310). -/
theorem checkDestination_raised {s : State} {a n nb : Nat} {e : CmdError} :
    s.checkDestination a n nb = .error (.raised e) ↔
      s.capacity < nb ∧ e = .range .capacity ∨
      nb ≤ s.capacity ∧ inRange s.platform.memSize s.dst nb = false ∧ e = .range .destination ∨
      nb ≤ s.capacity ∧ inRange s.platform.memSize s.dst nb = true ∧ overlap a n s.dst nb = true ∧
        e = .range .overlap := by
  simp only [State.checkDestination, bind_eq_error, require_eq_error, require_eq_ok, access_not_raised, exists_const,
    decide_eq_true_eq, decide_eq_false_iff_not, Bool.not_eq_false', Nat.not_le, Stop.raised.injEq, and_or_left,
    Bool.not_eq_true']
  simp only [and_false, or_false]

/-! ### The end of a command -/

@[simp] theorem finish_ok (s : State) (d : Done) : s.finish (.ok d) = .next (d.state.succeed d.resBits d.resBytes) := rfl
@[simp] theorem finish_raised (s : State) (e : CmdError) : s.finish (.error (.raised e)) = .next (s.raise e) := rfl
@[simp] theorem finish_refuse (s : State) (r : Refusal) : s.finish (.error (.refuse r)) = .refused r := rfl

/-- Success completion records RES_BITS and RES_BYTES whole when they fit (R137, R223, R253). -/
theorem succeededWith_succeed (s : State) {n m : Nat} (hn : n < 2 ^ 64) (hm : m < 2 ^ 32) :
    (s.succeed n m).SucceededWith n m := by
  refine ⟨?_, ?_, rfl, rfl, rfl, rfl, rfl⟩
  · simp only [State.succeed, BitVec.toNat_ofNat, Nat.mod_eq_of_lt hn]
  · simp only [State.succeed, BitVec.toNat_ofNat, Nat.mod_eq_of_lt hm]

/-- Error completion records the error (R138). -/
theorem failedWith_raise (s : State) (e : CmdError) : (s.raise e).FailedWith e.code.toNat e.info.toNat e.sym :=
  ⟨rfl, rfl, rfl, rfl, rfl, rfl, rfl⟩

/-- A command that answers a next state completes: with its own writes, or with an error and none (R137, R138). -/
theorem finish_next {s t : State} {p : Except Stop Done} (h : s.finish p = .next t) :
    (∃ d, p = .ok d ∧ t = d.state.succeed d.resBits d.resBytes) ∨ (∃ e, p = .error (.raised e) ∧ t = s.raise e) := by
  rcases p with (e | r) | d
  · exact .inr ⟨e, rfl, by simpa using h.symm⟩
  · simp at h
  · exact .inl ⟨d, rfl, by simpa using h.symm⟩

/-- A command never stops in a fault. -/
theorem finish_ne_fault (s : State) (p : Except Stop Done) (f : Fault) : s.finish p ≠ .fault f := by
  rcases p with (e | r) | d <;> simp

end Sys2Proof.Machine
end

