-- ==== Sys2Proof/Laws/Encoder.lean ====
section
/-! SUPPORT. The encoder's passes (R220, R221, R230, R231). -/

namespace Sys2Proof.Machine

@[simp] theorem length_code (b : CodeBook) (s : Byte) : (b.code s).length = (Table.look b.len s).toNat := by
  simp [CodeBook.code]

/-- Pass 1 answers the concatenated codes exactly when every byte has one (R220, R221). -/
theorem encodeBytes_eq_ok {b : CodeBook} {i : Nat} {bytes : List Byte} {bits : List Bool} :
    encodeBytes b i bytes = .ok bits ↔ (∀ s ∈ bytes, Table.look b.len s ≠ 0) ∧ bits = bytes.flatMap b.code := by
  induction bytes generalizing i bits with
  | nil => simp [encodeBytes, eq_comm]
  | cons s bytes ih =>
    simp only [encodeBytes, bind_eq_ok, require_eq_ok, exists_const, pure_eq_ok, Except.ok.injEq, ih, bne_iff_ne,
      List.mem_cons, forall_eq_or_imp, List.flatMap_cons]
    constructor
    · rintro ⟨h, _, ⟨h', rfl⟩, rfl⟩
      exact ⟨⟨h, h'⟩, rfl⟩
    · rintro ⟨⟨h, h'⟩, rfl⟩
      exact ⟨h, _, ⟨h', rfl⟩, rfl⟩

/-- Pass 1 fails at the first byte that has no code (R301). -/
theorem encodeBytes_eq_error {b : CodeBook} {i : Nat} {bytes : List Byte} {x : Stop} :
    encodeBytes b i bytes = .error x ↔ ∃ pre s post, bytes = pre ++ s :: post ∧ (∀ c ∈ pre, Table.look b.len c ≠ 0) ∧
      Table.look b.len s = 0 ∧ x = .raised (.unknownSymbol (i + pre.length) s) := by
  induction bytes generalizing i with
  | nil => simp [encodeBytes]
  | cons s bytes ih =>
    simp only [encodeBytes, bind_eq_error, require_eq_error, require_eq_ok, exists_const, pure_eq_ok, reduceCtorEq,
      and_false, or_false, ih, bne_iff_ne, bne_eq_false_iff_eq]
    constructor
    · rintro (⟨h, rfl⟩ | ⟨h, pre, c, post, rfl, hpre, hc, rfl⟩)
      · exact ⟨[], s, bytes, rfl, by simp, h, rfl⟩
      · refine ⟨s :: pre, c, post, rfl, ?_, hc, ?_⟩
        · intro d hd
          rcases List.mem_cons.1 hd with rfl | hd
          · exact h
          · exact hpre d hd
        · rw [List.length_cons, Nat.add_assoc, Nat.add_comm 1]
    · rintro ⟨pre, c, post, he, hpre, hc, rfl⟩
      cases pre with
      | nil =>
        simp only [List.nil_append, List.cons.injEq] at he
        obtain ⟨rfl, rfl⟩ := he
        exact .inl ⟨hc, rfl⟩
      | cons d pre =>
        simp only [List.cons_append, List.cons.injEq] at he
        obtain ⟨rfl, rfl⟩ := he
        refine .inr ⟨hpre s List.mem_cons_self, pre, c, post, rfl, fun e he => hpre e (List.mem_cons_of_mem s he), hc, ?_⟩
        rw [List.length_cons, Nat.add_assoc, Nat.add_comm 1]

theorem length_flatMap_code (b : CodeBook) (bytes : List Byte) :
    (bytes.flatMap b.code).length = (bytes.map fun s => (Table.look b.len s).toNat).sum := by
  simp [List.length_flatMap]

/-- The loop of BITLEN does what pass 1 does, and answers the length of its bit string (R231). -/
theorem sumLengths_eq (b : CodeBook) (i : Nat) (bytes : List Byte) :
    sumLengths b i bytes = (do let bits ← encodeBytes b i bytes; return bits.length) := by
  induction bytes generalizing i with
  | nil => rfl
  | cons s bytes ih =>
    rw [sumLengths, encodeBytes]
    rcases hr : require (Table.look b.len s != 0) (.unknownSymbol i s) with x | u
    · rfl
    · simp only [ok_bind, ih]
      rcases encodeBytes b (i + 1) bytes with x | bits
      · rfl
      · simp

theorem sumLengths_eq_ok {b : CodeBook} {i : Nat} {bytes : List Byte} {n : Nat} :
    sumLengths b i bytes = .ok n ↔ (∀ s ∈ bytes, Table.look b.len s ≠ 0) ∧
      n = (bytes.map fun s => (Table.look b.len s).toNat).sum := by
  simp only [sumLengths_eq, bind_eq_ok, encodeBytes_eq_ok, pure_eq_ok, Except.ok.injEq]
  constructor
  · rintro ⟨_, ⟨h, rfl⟩, rfl⟩
    exact ⟨h, length_flatMap_code b bytes⟩
  · rintro ⟨h, rfl⟩
    exact ⟨_, ⟨h, rfl⟩, length_flatMap_code b bytes⟩

/-- ENCODE reaches its first write exactly when every check passes (R220). -/
theorem encodePlan_eq_ok {s : State} {plan : Nat × List Byte} :
    s.encodePlan = .ok plan ↔ inRange s.platform.memSize s.src s.srcCount = true ∧
      s.platform.usable s.src s.srcCount = true ∧ (∀ c ∈ s.sourceData, Table.look s.book.len c ≠ 0) ∧
      (bytesFor (s.sourceData.flatMap s.book.code).length ≤ s.capacity ∧
        inRange s.platform.memSize s.dst (bytesFor (s.sourceData.flatMap s.book.code).length) = true ∧
        overlap s.src s.srcCount s.dst (bytesFor (s.sourceData.flatMap s.book.code).length) = false ∧
        s.platform.usable s.dst (bytesFor (s.sourceData.flatMap s.book.code).length) = true) ∧
      plan = ((s.sourceData.flatMap s.book.code).length, packBits (s.sourceData.flatMap s.book.code)) := by
  simp only [State.encodePlan, bind_eq_ok, sourceBytes_eq_ok, encodeBytes_eq_ok, checkDestination_eq_ok, pure_eq_ok,
    Except.ok.injEq, exists_const]
  constructor
  · rintro ⟨_, ⟨h1, h2, rfl⟩, _, ⟨h3, rfl⟩, h4, rfl⟩
    exact ⟨h1, h2, h3, h4, rfl⟩
  · rintro ⟨h1, h2, h3, h4, rfl⟩
    exact ⟨_, ⟨h1, h2, rfl⟩, _, ⟨h3, rfl⟩, h4, rfl⟩

/-- N fits the 64-bit RES_BITS (R223). -/
theorem length_payload_lt (s : State) : (s.sourceData.flatMap s.book.code).length < 2 ^ 40 := by
  rw [length_flatMap_code]
  have h : ∀ l : List Byte, (l.map fun c => (Table.look s.book.len c).toNat).sum ≤ 255 * l.length := by
    intro l
    induction l with
    | nil => simp
    | cons c l ih =>
      have := (Table.look s.book.len c).isLt
      simp only [List.map_cons, List.sum_cons, List.length_cons]
      omega
  have h1 := h s.sourceData
  have h2 := srcCount_lt s
  rw [length_sourceData] at h1
  omega

end Sys2Proof.Machine
end

