-- ==== Sys2Proof/Laws/Decoder.lean ====
section
/-! SUPPORT. The decoder's tree walk over a built tree (R250, R252): it inverts the codes, and any bit string is whole
codewords or ends inside one. -/

namespace Sys2Proof.Machine

/-- One bit of the walk, at an inner node. -/
theorem walkBit_internal {nodes : List Node} (hn : nodes.length ≤ 511) {tree : CodeTree}
    (ht : tree.node = Arena.ofNodes nodes) {w : Walk} {l r : NodeIndex} {x : Word} {τ : Nat} {b : Bool} {c : Node}
    (h : nodes[w.pos.toNat]? = some (.internal l r x)) (hc : nodes[(if b then r else l).toNat]? = some c) :
    tree.walkBit w τ b = match c with
      | .leaf sym _ => .ok { pos := tree.root, start := τ + 1, out := w.out ++ [sym] }
      | .internal _ _ _ => .ok { w with pos := if b then r else l } := by
  unfold CodeTree.walkBit
  rw [ht, Arena.slot_of_getElem? hn h]
  simp only [Arena.slot_of_getElem? hn hc]
  cases c <;> rfl

/-- A codeword of the subtree at the walk position emits its symbol and returns the walk to the root. -/
theorem walkBits_codeword {nodes : List Node} (hn : nodes.length ≤ 511) {tree : CodeTree}
    (ht : tree.node = Arena.ofNodes nodes) {l r : PTree} {x : Word} {i : NodeIndex}
    (h : Represents nodes i.toNat (.node l r x)) {c : Byte × List Bool} (hc : c ∈ (PTree.node l r x).codes [])
    (τ start : Nat) (out : List Byte) (rest : List Bool) :
    tree.walkBits τ ⟨i, start, out⟩ (c.2 ++ rest) =
      tree.walkBits (τ + c.2.length) ⟨tree.root, τ + c.2.length, out ++ [c.1]⟩ rest := by
  suffices H : ∀ (t : PTree) (i : NodeIndex), Represents nodes i.toNat t → ∀ l r x, t = .node l r x →
      ∀ c ∈ t.codes [], ∀ τ, tree.walkBits τ ⟨i, start, out⟩ (c.2 ++ rest) =
        tree.walkBits (τ + c.2.length) ⟨tree.root, τ + c.2.length, out ++ [c.1]⟩ rest from
    H _ i h _ _ _ rfl c hc τ
  clear h hc
  intro t
  induction t with
  | leaf => intro _ _ _ _ _ h; cases h
  | node l r x ihl ihr =>
    intro i hi _ _ _ he c hc τ
    cases he
    cases hi with
    | @node _ li ri _ _ _ hg hl hr left right =>
      rw [PTree.codes, PTree.codes_eq_map l, PTree.codes_eq_map r, List.mem_append] at hc
      have key : ∀ (b : Bool) (ch : PTree), Represents nodes (if b then ri else li).toNat ch →
          (∀ l r x, ch = .node l r x → ∀ c ∈ ch.codes [], ∀ τ,
            tree.walkBits τ ⟨if b then ri else li, start, out⟩ (c.2 ++ rest) =
              tree.walkBits (τ + c.2.length) ⟨tree.root, τ + c.2.length, out ++ [c.1]⟩ rest) →
          ∀ d ∈ ch.codes [], tree.walkBits τ ⟨i, start, out⟩ (b :: d.2 ++ rest) =
            tree.walkBits (τ + (d.2.length + 1)) ⟨tree.root, τ + (d.2.length + 1), out ++ [d.1]⟩ rest := by
        intro b ch hch ih d hd
        rw [List.cons_append, CodeTree.walkBits]
        cases hch with
        | leaf hleaf =>
          rw [walkBit_internal hn ht (w := ⟨i, start, out⟩) hg hleaf, ok_bind]
          simp only [PTree.codes, List.mem_singleton] at hd
          subst hd
          rfl
        | node hnode hl' hr' left' right' =>
          rw [walkBit_internal hn ht (w := ⟨i, start, out⟩) hg hnode, ok_bind]
          rw [ih _ _ _ rfl d hd (τ + 1), Nat.add_right_comm, Nat.add_assoc]
      rcases hc with hc | hc
      · obtain ⟨d, hd, rfl⟩ := List.mem_map.1 hc
        exact key false l left (ihl li left) d hd
      · obtain ⟨d, hd, rfl⟩ := List.mem_map.1 hc
        exact key true r right (ihr ri right) d hd

/-- A proper prefix of a codeword leaves the walk inside the subtree, below its root when it has a bit. -/
theorem walkBits_prefix {nodes : List Node} (hn : nodes.length ≤ 511) {tree : CodeTree}
    (ht : tree.node = Arena.ofNodes nodes) {l r : PTree} {x : Word} {i : NodeIndex}
    (h : Represents nodes i.toNat (.node l r x)) {c : Byte × List Bool} (hc : c ∈ (PTree.node l r x).codes [])
    (τ start : Nat) (out : List Byte) {q : List Bool} (hq : q <+: c.2) (hne : q ≠ c.2) :
    ∃ j : NodeIndex, tree.walkBits τ ⟨i, start, out⟩ q = .ok ⟨j, start, out⟩ ∧ (q ≠ [] → j.toNat < i.toNat) := by
  suffices H : ∀ (t : PTree) (i : NodeIndex), Represents nodes i.toNat t → ∀ l r x, t = .node l r x →
      ∀ c ∈ t.codes [], ∀ τ q, q <+: c.2 → q ≠ c.2 →
        ∃ j : NodeIndex, tree.walkBits τ ⟨i, start, out⟩ q = .ok ⟨j, start, out⟩ ∧ (q ≠ [] → j.toNat < i.toNat) from
    H _ i h _ _ _ rfl c hc τ q hq hne
  clear h hc hq hne
  intro t
  induction t with
  | leaf => intro _ _ _ _ _ h; cases h
  | node l r x ihl ihr =>
    intro i hi _ _ _ he c hc τ q hq hne
    cases he
    cases q with
    | nil => exact ⟨i, rfl, fun h => absurd rfl h⟩
    | cons b q =>
      cases hi with
      | @node _ li ri _ _ _ hg hl hr left right =>
        rw [PTree.codes, PTree.codes_eq_map l, PTree.codes_eq_map r, List.mem_append] at hc
        have key : ∀ (ch : PTree), Represents nodes (if b then ri else li).toNat ch →
            (if b then ri else li).toNat < i.toNat →
            (∀ l r x, ch = .node l r x → ∀ c ∈ ch.codes [], ∀ τ q, q <+: c.2 → q ≠ c.2 →
              ∃ j : NodeIndex, tree.walkBits τ ⟨if b then ri else li, start, out⟩ q = .ok ⟨j, start, out⟩ ∧
                (q ≠ [] → j.toNat < (if b then ri else li).toNat)) →
            ∀ d ∈ ch.codes [], q <+: d.2 → q ≠ d.2 →
              ∃ j : NodeIndex, tree.walkBits τ ⟨i, start, out⟩ (b :: q) = .ok ⟨j, start, out⟩ ∧
                (b :: q ≠ [] → j.toNat < i.toNat) := by
          intro ch hch hlt ih d hd hp hn'
          rw [CodeTree.walkBits]
          cases hch with
          | leaf hleaf =>
            simp only [PTree.codes, List.mem_singleton] at hd
            subst hd
            exact absurd (List.prefix_nil.1 hp) hn'
          | node hnode hl' hr' left' right' =>
            rw [walkBit_internal hn ht (w := ⟨i, start, out⟩) hg hnode, ok_bind]
            obtain ⟨j, h1, h2⟩ := ih _ _ _ rfl d hd (τ + 1) q hp hn'
            refine ⟨j, h1, fun _ => ?_⟩
            cases q with
            | nil =>
              simp only [CodeTree.walkBits, Except.ok.injEq, Walk.mk.injEq] at h1
              rw [← h1.1]
              exact hlt
            | cons b' q => exact (h2 (by simp)).trans hlt
        rcases hc with hc | hc
        · obtain ⟨d, hd, rfl⟩ := List.mem_map.1 hc
          simp only [List.nil_append, List.cons_append] at hq hne
          rw [List.cons_prefix_cons] at hq
          obtain ⟨rfl, hq⟩ := hq
          exact key l left hl (ihl li left) d hd hq fun h => hne (by rw [h])
        · obtain ⟨d, hd, rfl⟩ := List.mem_map.1 hc
          simp only [List.nil_append, List.cons_append] at hq hne
          rw [List.cons_prefix_cons] at hq
          obtain ⟨rfl, hq⟩ := hq
          exact key r right hr (ihr ri right) d hd hq fun h => hne (by rw [h])

/-- Whole codewords, then more bits: the symbols are emitted and the walk is at the root again. -/
theorem walkBits_codewords {nodes : List Node} (hn : nodes.length ≤ 511) {tree : CodeTree}
    (ht : tree.node = Arena.ofNodes nodes) {l r : PTree} {x : Word}
    (h : Represents nodes tree.root.toNat (.node l r x)) (cs : List (Byte × List Bool))
    (hcs : ∀ c ∈ cs, c ∈ (PTree.node l r x).codes []) (τ : Nat) (out : List Byte) (rest : List Bool) :
    tree.walkBits τ ⟨tree.root, τ, out⟩ (cs.flatMap Prod.snd ++ rest) =
      tree.walkBits (τ + (cs.flatMap Prod.snd).length)
        ⟨tree.root, τ + (cs.flatMap Prod.snd).length, out ++ cs.map Prod.fst⟩ rest := by
  induction cs generalizing τ out with
  | nil => simp
  | cons c cs ih =>
    rw [List.flatMap_cons, List.append_assoc,
      walkBits_codeword hn ht h (hcs c List.mem_cons_self) τ τ out (cs.flatMap Prod.snd ++ rest),
      ih fun d hd => hcs d (List.mem_cons_of_mem c hd)]
    simp [Nat.add_assoc]

/-- Over a built tree with k ≥ 2 leaves, whole codewords decode to their symbols (R250). -/
theorem decodeBits_codewords {F : Table Word} (hF : 2 ≤ (presentSymbols F).length) (cs : List (Byte × List Bool))
    (hcs : ∀ c ∈ cs, c ∈ (buildTree F).codes) :
    (buildTree F).decodeBits (cs.flatMap Prod.snd) = .ok (cs.map Prod.fst) := by
  obtain ⟨-, -, l, r, w, -, -, hr, hc⟩ := codes_buildTree_many hF
  rw [hc] at hcs
  have := walkBits_codewords (exists_tree (by omega)).2.1 rfl hr cs hcs 0 [] []
  rw [List.append_nil] at this
  rw [CodeTree.decodeBits, this, CodeTree.walkBits, ok_bind]
  simp

/-- Over a built tree with k ≥ 2 leaves, whole codewords followed by a proper part of one are a TruncatedStream, at the
bit where the part began (R252, R302). -/
theorem decodeBits_truncated {F : Table Word} (hF : 2 ≤ (presentSymbols F).length) (cs : List (Byte × List Bool))
    (hcs : ∀ c ∈ cs, c ∈ (buildTree F).codes) {c : Byte × List Bool} (hc : c ∈ (buildTree F).codes) {q : List Bool}
    (hq : q <+: c.2) (hne : q ≠ c.2) (hnil : q ≠ []) :
    (buildTree F).decodeBits (cs.flatMap Prod.snd ++ q) =
      .error (.raised (.truncatedStream (cs.flatMap Prod.snd).length)) := by
  obtain ⟨-, -, l, r, w, -, -, hr, hcd⟩ := codes_buildTree_many hF
  rw [hcd] at hcs hc
  have hn := (exists_tree (F := F) (by omega)).2.1
  have h1 := walkBits_codewords hn rfl hr cs hcs 0 [] q
  obtain ⟨j, h2, h3⟩ := walkBits_prefix hn (tree := buildTree F) rfl hr hc (0 + (cs.flatMap Prod.snd).length)
    (0 + (cs.flatMap Prod.snd).length) ([] ++ cs.map Prod.fst) hq hne
  have hj : (j == (buildTree F).root) = false := by
    rw [beq_eq_false_iff_ne]
    intro h
    have := h3 hnil
    rw [h] at this
    omega
  rw [CodeTree.decodeBits, h1, h2, ok_bind, hj]
  simp

/-- Any bit string starts with a codeword of a full tree or is a proper part of one. -/
theorem PTree.codeword_or_part (t : PTree) (bits : List Bool) :
    (∃ c ∈ t.codes [], c.2 <+: bits) ∨ ∃ c ∈ t.codes [], bits <+: c.2 ∧ bits ≠ c.2 := by
  induction t generalizing bits with
  | leaf s w => exact .inl ⟨(s, []), by simp [PTree.codes], List.nil_prefix⟩
  | node l r w ihl ihr =>
    rw [PTree.codes, PTree.codes_eq_map l, PTree.codes_eq_map r]
    cases bits with
    | nil =>
      refine .inr ?_
      have hl : ∃ c, c ∈ l.codes [] := by
        have := l.leaves_length_pos
        rw [← List.length_map (f := Prod.fst), ← PTree.codes_symbols l [], List.length_map] at this
        exact ⟨_, List.getElem_mem this⟩
      obtain ⟨c, hc⟩ := hl
      exact ⟨(c.1, [] ++ [false] ++ c.2), List.mem_append_left _ (List.mem_map.2 ⟨c, hc, rfl⟩), by simp, by simp⟩
    | cons b bits =>
      have key : ∀ (ch : PTree), (∀ c ∈ ch.codes [], (c.1, [] ++ [b] ++ c.2) ∈
            (l.codes []).map (fun c => (c.1, [] ++ [false] ++ c.2)) ++
              (r.codes []).map (fun c => (c.1, [] ++ [true] ++ c.2))) →
          ((∃ c ∈ ch.codes [], c.2 <+: bits) ∨ ∃ c ∈ ch.codes [], bits <+: c.2 ∧ bits ≠ c.2) →
          (∃ c ∈ (l.codes []).map (fun c => (c.1, [] ++ [false] ++ c.2)) ++
              (r.codes []).map (fun c => (c.1, [] ++ [true] ++ c.2)), c.2 <+: b :: bits) ∨
            ∃ c ∈ (l.codes []).map (fun c => (c.1, [] ++ [false] ++ c.2)) ++
              (r.codes []).map (fun c => (c.1, [] ++ [true] ++ c.2)), b :: bits <+: c.2 ∧ b :: bits ≠ c.2 := by
        intro ch hch h
        rcases h with ⟨c, hc, hp⟩ | ⟨c, hc, hp, hn⟩
        · exact .inl ⟨_, hch c hc, by simpa using hp⟩
        · exact .inr ⟨_, hch c hc, by simpa using hp, by simpa using hn⟩
      cases b with
      | false => exact key l (fun c hc => List.mem_append_left _ (List.mem_map.2 ⟨c, hc, rfl⟩)) (ihl bits)
      | true => exact key r (fun c hc => List.mem_append_right _ (List.mem_map.2 ⟨c, hc, rfl⟩)) (ihr bits)

/-- Any bit string is whole codewords of a tree with k ≥ 2 leaves, or whole codewords and a proper part of one (R250). -/
theorem exists_codewords {l r : PTree} {w : Word} (n : Nat) (bits : List Bool) (hn : bits.length ≤ n) :
    ∃ cs : List (Byte × List Bool), (∀ c ∈ cs, c ∈ (PTree.node l r w).codes []) ∧
      (bits = cs.flatMap Prod.snd ∨ ∃ c ∈ (PTree.node l r w).codes [], ∃ q, q ≠ [] ∧ q <+: c.2 ∧ q ≠ c.2 ∧
        bits = cs.flatMap Prod.snd ++ q) := by
  induction n generalizing bits with
  | zero =>
    obtain rfl := List.length_eq_zero_iff.1 (Nat.le_zero.1 hn)
    exact ⟨[], by simp, .inl rfl⟩
  | succ n ih =>
    rcases PTree.codeword_or_part (.node l r w) bits with ⟨c, hc, rest, rfl⟩ | ⟨c, hc, hp, hne⟩
    · have hlen := PTree.node_codes_length_pos _ _ _ _ hc
      rw [List.length_append] at hn
      obtain ⟨cs, hcs, h⟩ := ih rest (by simp at hlen; omega)
      refine ⟨c :: cs, fun d hd => ?_, ?_⟩
      · rcases List.mem_cons.1 hd with rfl | hd
        · exact hc
        · exact hcs d hd
      · rcases h with rfl | ⟨d, hd, q, h1, h2, h3, rfl⟩
        · exact .inl rfl
        · exact .inr ⟨d, hd, q, h1, h2, h3, by simp⟩
    · by_cases hb : bits = []
      · exact ⟨[], by simp, .inl hb⟩
      · exact ⟨[], by simp, .inr ⟨c, hc, bits, hb, hp, hne, rfl⟩⟩

/-- Over a built tree with k ≥ 2 leaves no bit string is CorruptTree: it decodes, or it is a TruncatedStream (R250). -/
theorem decodeBits_cases {F : Table Word} (hF : 2 ≤ (presentSymbols F).length) (bits : List Bool) :
    (∃ cs : List (Byte × List Bool), (∀ c ∈ cs, c ∈ (buildTree F).codes) ∧ bits = cs.flatMap Prod.snd ∧
      (buildTree F).decodeBits bits = .ok (cs.map Prod.fst)) ∨
    ∃ start, start < bits.length ∧ (buildTree F).decodeBits bits = .error (.raised (.truncatedStream start)) := by
  obtain ⟨-, -, l, r, w, -, -, -, hc⟩ := codes_buildTree_many hF
  obtain ⟨cs, hcs, h⟩ := exists_codewords (l := l) (r := r) (w := w) bits.length bits le_rfl
  rw [← hc] at hcs h
  rcases h with rfl | ⟨c, hcc, q, hq, hp, hne, rfl⟩
  · exact .inl ⟨cs, hcs, rfl, decodeBits_codewords hF cs hcs⟩
  · refine .inr ⟨_, ?_, decodeBits_truncated hF cs hcs hcc hp hne hq⟩
    rw [List.length_append]
    have := List.length_pos_iff.2 hq
    omega

end Sys2Proof.Machine
end

