-- ==== Sys2Proof/Laws/Commands.lean ====
section
/-! SUPPORT. What each command can do: the plan of a command, when it is carried out and what it writes, when it raises,
and what every command leaves alone. -/

namespace Sys2Proof.Machine

/-- The body of a command: its checks, then its writes. -/
def commandPlan (i : Instr) (s : State) : Except Stop Done :=
  match i with
  | .count => do
    let bytes ← s.sourceBytes
    return { state := { s with table := FreqTable.ofBytes bytes, tree := CodeTree.absent, book := CodeBook.empty }
             resBits := 0
             resBytes := 0 }
  | .build => .ok { state := { s with tree := buildTree s.table.freq, book := CodeBook.empty }, resBits := 0, resBytes := 0 }
  | .generate => .ok { state := { s with book := generateBook s.tree }, resBits := 0, resBytes := 0 }
  | .setup => do
    let bytes ← s.sourceBytes
    let table := FreqTable.ofBytes bytes
    let tree := buildTree table.freq
    return { state := { s with table := table, tree := tree, book := generateBook tree }, resBits := 0, resBytes := 0 }
  | .encode => do
    let plan ← s.encodePlan
    return { state := { s with mem := s.mem.writeBytes s.dst plan.2 }, resBits := plan.1, resBytes := plan.2.length }
  | .bitlen => do
    let bytes ← s.sourceBytes
    let n ← sumLengths s.book 0 bytes
    return { state := s, resBits := n, resBytes := 0 }
  | .decode => do
    let out ← s.decodePlan
    return { state := { s with mem := s.mem.writeBytes s.dst out }, resBits := s.bitCount, resBytes := out.length }
  | .clear => .ok
    { state := { s with table := FreqTable.empty, tree := CodeTree.absent, book := CodeBook.empty }, resBits := 0, resBytes := 0 }

/-- Every command is its plan and then a completion (R135). -/
theorem exec_eq (i : Instr) (s : State) : exec i s = s.finish (commandPlan i s) := by
  cases i <;> rfl

theorem exec_of_plan {i : Instr} {s : State} {d : Done} (h : commandPlan i s = .ok d) :
    exec i s = .next (d.state.succeed d.resBits d.resBytes) := by
  rw [exec_eq, h, finish_ok]

theorem exec_of_raise {i : Instr} {s : State} {e : CmdError} (h : commandPlan i s = .error (.raised e)) :
    exec i s = .next (s.raise e) := by
  rw [exec_eq, h, finish_raised]

/-- A command that answers a next state carried out its plan, or raised an error and did nothing else (R137, R138). -/
theorem exec_next {i : Instr} {s t : State} (h : exec i s = .next t) :
    (∃ d, commandPlan i s = .ok d ∧ t = d.state.succeed d.resBits d.resBytes) ∨
      ∃ e, commandPlan i s = .error (.raised e) ∧ t = s.raise e :=
  finish_next (exec_eq i s ▸ h)

/-! ### When each plan is carried out -/

theorem plan_count_ok {s : State} {d : Done} :
    commandPlan .count s = .ok d ↔ inRange s.platform.memSize s.src s.srcCount = true ∧
      s.platform.usable s.src s.srcCount = true ∧
      d = ⟨{ s with table := FreqTable.ofBytes s.sourceData, tree := CodeTree.absent, book := CodeBook.empty }, 0, 0⟩ := by
  simp only [commandPlan, bind_eq_ok, sourceBytes_eq_ok, pure_eq_ok, Except.ok.injEq, eq_comm (b := d)]
  constructor
  · rintro ⟨_, ⟨h1, h2, rfl⟩, h3⟩
    exact ⟨h1, h2, h3⟩
  · rintro ⟨h1, h2, h3⟩
    exact ⟨_, ⟨h1, h2, rfl⟩, h3⟩

theorem plan_setup_ok {s : State} {d : Done} :
    commandPlan .setup s = .ok d ↔ inRange s.platform.memSize s.src s.srcCount = true ∧
      s.platform.usable s.src s.srcCount = true ∧
      d = ⟨{ s with table := FreqTable.ofBytes s.sourceData
                    tree := buildTree (FreqTable.ofBytes s.sourceData).freq
                    book := generateBook (buildTree (FreqTable.ofBytes s.sourceData).freq) }, 0, 0⟩ := by
  simp only [commandPlan, bind_eq_ok, sourceBytes_eq_ok, pure_eq_ok, Except.ok.injEq, eq_comm (b := d)]
  constructor
  · rintro ⟨_, ⟨h1, h2, rfl⟩, h3⟩
    exact ⟨h1, h2, h3⟩
  · rintro ⟨h1, h2, h3⟩
    exact ⟨_, ⟨h1, h2, rfl⟩, h3⟩

/-- The payload of ENCODE (R221). -/
def State.payload (s : State) : List Bool := s.sourceData.flatMap s.book.code

theorem payload_eq (s : State) : s.sourceData.flatMap s.book.code = s.payload := rfl

/-- Its length is the sum of the code lengths (R223). -/
theorem length_payload (s : State) : s.payload.length = s.book.bitLength s.sourceData :=
  length_flatMap_code s.book s.sourceData

theorem plan_encode_ok {s : State} {d : Done} :
    commandPlan .encode s = .ok d ↔ inRange s.platform.memSize s.src s.srcCount = true ∧
      s.platform.usable s.src s.srcCount = true ∧ (∀ c ∈ s.sourceData, Table.look s.book.len c ≠ 0) ∧
      (bytesFor s.payload.length ≤ s.capacity ∧
        inRange s.platform.memSize s.dst (bytesFor s.payload.length) = true ∧
        overlap s.src s.srcCount s.dst (bytesFor s.payload.length) = false ∧
        s.platform.usable s.dst (bytesFor s.payload.length) = true) ∧
      d = ⟨{ s with mem := s.mem.writeBytes s.dst (packBits s.payload) }, s.payload.length,
        bytesFor s.payload.length⟩ := by
  simp only [commandPlan, bind_eq_ok, encodePlan_eq_ok, pure_eq_ok, Except.ok.injEq, eq_comm (b := d), payload_eq]
  constructor
  · rintro ⟨_, ⟨h1, h2, h3, h4, rfl⟩, h5⟩
    exact ⟨h1, h2, h3, h4, by rw [h5, length_packBits]⟩
  · rintro ⟨h1, h2, h3, h4, h5⟩
    exact ⟨_, ⟨h1, h2, h3, h4, rfl⟩, by rw [h5, length_packBits]⟩

theorem plan_bitlen_ok {s : State} {d : Done} :
    commandPlan .bitlen s = .ok d ↔ inRange s.platform.memSize s.src s.srcCount = true ∧
      s.platform.usable s.src s.srcCount = true ∧ (∀ c ∈ s.sourceData, Table.look s.book.len c ≠ 0) ∧
      d = ⟨s, s.book.bitLength s.sourceData, 0⟩ := by
  simp only [commandPlan, bind_eq_ok, sourceBytes_eq_ok, sumLengths_eq_ok, pure_eq_ok, Except.ok.injEq, eq_comm (b := d)]
  constructor
  · rintro ⟨_, ⟨h1, h2, rfl⟩, _, ⟨h3, rfl⟩, h4⟩
    exact ⟨h1, h2, h3, h4⟩
  · rintro ⟨h1, h2, h3, h4⟩
    exact ⟨_, ⟨h1, h2, rfl⟩, _, ⟨h3, rfl⟩, h4⟩

/-- DECODE reaches its first write exactly when every check passes (R250). -/
theorem decodePlan_eq_ok {s : State} {out : List Byte} :
    s.decodePlan = .ok out ↔ inRange s.platform.memSize s.src s.srcCount = true ∧ s.bitCount ≤ 8 * s.srcCount ∧
      s.decodeStream = .ok out ∧ out.length ≤ s.capacity ∧ inRange s.platform.memSize s.dst out.length = true ∧
      overlap s.src (bytesFor s.bitCount) s.dst out.length = false ∧ s.platform.usable s.dst out.length = true := by
  simp only [State.decodePlan, bind_eq_ok, require_eq_ok, checkDestination_eq_ok, pure_eq_ok, Except.ok.injEq,
    exists_const, decide_eq_true_eq]
  constructor
  · rintro ⟨h1, h2, _, h3, h4, rfl⟩
    exact ⟨h1, h2, h3, h4⟩
  · rintro ⟨h1, h2, h3, h4⟩
    exact ⟨h1, h2, out, h3, h4, rfl⟩

theorem plan_decode_ok {s : State} {d : Done} :
    commandPlan .decode s = .ok d ↔ ∃ out, s.decodePlan = .ok out ∧
      d = ⟨{ s with mem := s.mem.writeBytes s.dst out }, s.bitCount, out.length⟩ := by
  simp only [commandPlan, bind_eq_ok, pure_eq_ok, Except.ok.injEq, eq_comm (b := d)]

/-- Over a built tree with two leaves or more, DECODE walks it (R252). -/
theorem decodeStream_tree {s : State} {F : Table Word} (ht : s.tree = buildTree F) (hF : 2 ≤ (presentSymbols F).length)
    (h : s.platform.usable s.src (bytesFor s.bitCount) = true) :
    s.decodeStream = (buildTree F).decodeBits (s.mem.payloadBits s.src s.bitCount) := by
  obtain ⟨h0, h1, -⟩ := codes_buildTree_many hF
  unfold State.decodeStream
  split
  · next hz =>
    have := decodeBits_codewords hF [] (by simp)
    rw [hz]
    exact this.symm
  · rw [ht, if_neg h0, access_of_usable h, ok_bind, if_neg h1]

/-! ### What each command leaves when it raises nothing -/

theorem exec_count_ok {s : State} (h1 : inRange s.platform.memSize s.src s.srcCount = true)
    (h2 : s.platform.usable s.src s.srcCount = true) :
    exec .count s = .next (State.succeed
      { s with table := FreqTable.ofBytes s.sourceData, tree := CodeTree.absent, book := CodeBook.empty } 0 0) :=
  exec_of_plan (plan_count_ok.2 ⟨h1, h2, rfl⟩)

theorem exec_build_ok (s : State) :
    exec .build s = .next (State.succeed { s with tree := buildTree s.table.freq, book := CodeBook.empty } 0 0) := rfl

theorem exec_generate_ok (s : State) :
    exec .generate s = .next (State.succeed { s with book := generateBook s.tree } 0 0) := rfl

theorem exec_setup_ok {s : State} (h1 : inRange s.platform.memSize s.src s.srcCount = true)
    (h2 : s.platform.usable s.src s.srcCount = true) :
    exec .setup s = .next (State.succeed
      { s with table := FreqTable.ofBytes s.sourceData
               tree := buildTree (FreqTable.ofBytes s.sourceData).freq
               book := generateBook (buildTree (FreqTable.ofBytes s.sourceData).freq) } 0 0) :=
  exec_of_plan (plan_setup_ok.2 ⟨h1, h2, rfl⟩)

theorem exec_encode_ok {s : State} (h1 : inRange s.platform.memSize s.src s.srcCount = true)
    (h2 : s.platform.usable s.src s.srcCount = true) (h3 : ∀ c ∈ s.sourceData, Table.look s.book.len c ≠ 0)
    (h4 : bytesFor s.payload.length ≤ s.capacity)
    (h5 : inRange s.platform.memSize s.dst (bytesFor s.payload.length) = true)
    (h6 : overlap s.src s.srcCount s.dst (bytesFor s.payload.length) = false)
    (h7 : s.platform.usable s.dst (bytesFor s.payload.length) = true) :
    exec .encode s = .next (State.succeed { s with mem := s.mem.writeBytes s.dst (packBits s.payload) } s.payload.length
      (bytesFor s.payload.length)) :=
  exec_of_plan (plan_encode_ok.2 ⟨h1, h2, h3, ⟨h4, h5, h6, h7⟩, rfl⟩)

theorem exec_bitlen_ok {s : State} (h1 : inRange s.platform.memSize s.src s.srcCount = true)
    (h2 : s.platform.usable s.src s.srcCount = true) (h3 : ∀ c ∈ s.sourceData, Table.look s.book.len c ≠ 0) :
    exec .bitlen s = .next (s.succeed (s.book.bitLength s.sourceData) 0) :=
  exec_of_plan (plan_bitlen_ok.2 ⟨h1, h2, h3, rfl⟩)

theorem exec_decode_ok {s : State} {out : List Byte} (h : s.decodePlan = .ok out) :
    exec .decode s = .next (State.succeed { s with mem := s.mem.writeBytes s.dst out } s.bitCount out.length) :=
  exec_of_plan (plan_decode_ok.2 ⟨out, h, rfl⟩)

theorem exec_clear_ok (s : State) :
    exec .clear s = .next (State.succeed
      { s with table := FreqTable.empty, tree := CodeTree.absent, book := CodeBook.empty } 0 0) := rfl

/-- Over a built tree DECODE of the codes of a byte sequence gives the bytes (R250, R251, R252). -/
theorem decodeStream_of_codes {s : State} {F : Table Word} {bytes : List Byte} (ht : s.tree = buildTree F)
    (hb : ∀ c ∈ bytes, Table.look F c ≠ 0)
    (hp : s.mem.payloadBits s.src s.bitCount = bytes.flatMap (generateBook (buildTree F)).code)
    (hu : s.platform.usable s.src (bytesFor s.bitCount) = true) : s.decodeStream = .ok bytes := by
  have hlen : s.bitCount = (bytes.flatMap (generateBook (buildTree F)).code).length := by
    rw [← hp, length_payloadBits]
  rcases Nat.lt_or_ge (presentSymbols F).length 2 with hk | hk
  · by_cases hnil : bytes = []
    · subst hnil
      have hz : s.bitCount = 0 := hlen
      unfold State.decodeStream
      rw [if_pos hz]
    · obtain ⟨c, hc⟩ := List.exists_mem_of_ne_nil _ hnil
      have hpos := List.length_pos_of_mem ((mem_presentSymbols F c).2 (hb c hc))
      obtain ⟨x, hx⟩ := List.length_eq_one_iff.1 (show (presentSymbols F).length = 1 by omega)
      obtain ⟨hn, hs, hcodes⟩ := codes_buildTree_single hx
      have hall : ∀ b ∈ bytes, b = x := fun b h => by
        have := (mem_presentSymbols F b).2 (hb b h)
        rwa [hx, List.mem_singleton] at this
      have hcode : (generateBook (buildTree F)).code x = [false] :=
        (generateBook_code (F := F) (c := (x, [false])) (by rw [hcodes]; exact List.mem_singleton.2 rfl)).2
      have hlen1 : s.bitCount = bytes.length := by
        rw [hlen, List.length_flatMap, List.map_congr_left (g := fun _ => 1) fun b h => by rw [hall b h, hcode]; rfl]
        simp
      unfold State.decodeStream
      rw [if_neg (fun h => hnil (List.length_eq_zero_iff.1 (hlen1 ▸ h))), ht, hn, if_neg (by decide), access_of_usable hu,
        ok_bind, if_pos rfl]
      unfold CodeTree.decodeSingle
      rw [hs, hlen1]
      exact congrArg Except.ok (List.eq_replicate_of_mem hall).symm
  · rw [decodeStream_tree ht hk hu, hp]
    have h := decodeBits_codewords hk (bytes.map fun c => (c, (generateBook (buildTree F)).code c)) fun c hc => by
      obtain ⟨b, h, rfl⟩ := List.mem_map.1 hc
      obtain ⟨p, hp⟩ := exists_code (hb b h)
      rwa [show (generateBook (buildTree F)).code b = p from (generateBook_code hp).2]
    rw [List.flatMap_map, List.map_map] at h
    simpa [Function.comp_def] using h

/-! ### When each plan raises -/

theorem plan_raises_source {s : State} {i : Instr} (hi : i ∈ [Instr.count, .setup, .encode, .bitlen, .decode])
    (h : inRange s.platform.memSize s.src s.srcCount = false) :
    commandPlan i s = .error (.raised (.range .source)) := by
  have hs : s.sourceBytes = .error (.raised (.range .source)) := sourceBytes_raised.2 ⟨h, rfl⟩
  simp only [List.mem_cons, List.not_mem_nil, or_false] at hi
  rcases hi with rfl | rfl | rfl | rfl | rfl <;>
    simp [commandPlan, State.encodePlan, State.decodePlan, hs, h]

/-- An unknown symbol stops ENCODE and BITLEN at its first occurrence (R301). -/
theorem plan_raises_unknown {s : State} {i : Instr} (hi : i = .encode ∨ i = .bitlen)
    (h1 : inRange s.platform.memSize s.src s.srcCount = true) (h2 : s.platform.usable s.src s.srcCount = true)
    {pre post : List Byte} {c : Byte} (hc : s.sourceData = pre ++ c :: post)
    (hp : ∀ b ∈ pre, Table.look s.book.len b ≠ 0) (h : Table.look s.book.len c = 0) :
    commandPlan i s = .error (.raised (.unknownSymbol pre.length c)) := by
  have hs : s.sourceBytes = .ok s.sourceData := sourceBytes_eq_ok.2 ⟨h1, h2, rfl⟩
  have he : encodeBytes s.book 0 s.sourceData = .error (.raised (.unknownSymbol pre.length c)) :=
    encodeBytes_eq_error.2 ⟨pre, c, post, hc, hp, h, by rw [Nat.zero_add]⟩
  rcases hi with rfl | rfl <;> simp [commandPlan, State.encodePlan, sumLengths_eq, hs, he]

/-- The data checks of ENCODE passed, its destination's decide (R310). -/
theorem encodePlan_raises_destination {s : State} {e : CmdError}
    (h1 : inRange s.platform.memSize s.src s.srcCount = true) (h2 : s.platform.usable s.src s.srcCount = true)
    (h3 : ∀ c ∈ s.sourceData, Table.look s.book.len c ≠ 0)
    (h : s.checkDestination s.src s.srcCount (bytesFor s.payload.length) = .error (.raised e)) :
    commandPlan .encode s = .error (.raised e) := by
  have hs : s.sourceBytes = .ok s.sourceData := sourceBytes_eq_ok.2 ⟨h1, h2, rfl⟩
  have he : encodeBytes s.book 0 s.sourceData = .ok s.payload := encodeBytes_eq_ok.2 ⟨h3, rfl⟩
  simp [commandPlan, State.encodePlan, hs, he, h]

/-- The checks of DECODE before its data (R310). -/
theorem decodePlan_raises_bitCount {s : State} (h1 : inRange s.platform.memSize s.src s.srcCount = true)
    (h2 : 8 * s.srcCount < s.bitCount) : commandPlan .decode s = .error (.raised (.range .bitCount)) := by
  simp [commandPlan, State.decodePlan, h1, decide_eq_false (Nat.not_le.2 h2)]

theorem decodePlan_raises_stream {s : State} {e : CmdError} (h1 : inRange s.platform.memSize s.src s.srcCount = true)
    (h2 : s.bitCount ≤ 8 * s.srcCount) (h : s.decodeStream = .error (.raised e)) :
    commandPlan .decode s = .error (.raised e) := by
  simp [commandPlan, State.decodePlan, h1, decide_eq_true h2, h]

theorem decodePlan_raises_destination {s : State} {e : CmdError} {out : List Byte}
    (h1 : inRange s.platform.memSize s.src s.srcCount = true) (h2 : s.bitCount ≤ 8 * s.srcCount)
    (h3 : s.decodeStream = .ok out)
    (h : s.checkDestination s.src (bytesFor s.bitCount) out.length = .error (.raised e)) :
    commandPlan .decode s = .error (.raised e) := by
  simp [commandPlan, State.decodePlan, h1, decide_eq_true h2, h3, h]

/-! ### When each command is refused (R72, R83) -/

theorem exec_of_refuse {i : Instr} {s : State} {r : Refusal} (h : commandPlan i s = .error (.refuse r)) :
    exec i s = .refused r := by
  rw [exec_eq, h, finish_refuse]

theorem plan_refused_source {s : State} {i : Instr} (hi : i ∈ [Instr.count, .setup, .encode, .bitlen])
    (h1 : inRange s.platform.memSize s.src s.srcCount = true) (h2 : s.platform.usable s.src s.srcCount = false) :
    commandPlan i s = .error (.refuse s.platform.refusal) := by
  have hs : s.sourceBytes = .error (.refuse s.platform.refusal) := by
    simp [State.sourceBytes, h1, access_of_unusable h2]
  simp only [List.mem_cons, List.not_mem_nil, or_false] at hi
  rcases hi with rfl | rfl | rfl | rfl <;> simp [commandPlan, State.encodePlan, hs]

theorem decodePlan_refused_source {s : State} (h1 : inRange s.platform.memSize s.src s.srcCount = true)
    (h2 : s.bitCount ≤ 8 * s.srcCount) (h3 : s.bitCount ≠ 0) (h4 : s.tree.nnodes ≠ 0)
    (h5 : s.platform.usable s.src (bytesFor s.bitCount) = false) :
    commandPlan .decode s = .error (.refuse s.platform.refusal) := by
  have hs : s.decodeStream = .error (.refuse s.platform.refusal) := by
    rw [State.decodeStream, if_neg h3, if_neg h4, access_of_unusable h5, error_bind]
  simp [commandPlan, State.decodePlan, h1, decide_eq_true h2, hs]

theorem checkDestination_refused {s : State} {a n nb : Nat} (h1 : nb ≤ s.capacity)
    (h2 : inRange s.platform.memSize s.dst nb = true) (h3 : overlap a n s.dst nb = false)
    (h4 : s.platform.usable s.dst nb = false) :
    s.checkDestination a n nb = .error (.refuse s.platform.refusal) := by
  simp [State.checkDestination, h1, h2, h3, access_of_unusable h4]

theorem encodePlan_refused_destination {s : State} {r : Refusal}
    (h1 : inRange s.platform.memSize s.src s.srcCount = true) (h2 : s.platform.usable s.src s.srcCount = true)
    (h3 : ∀ c ∈ s.sourceData, Table.look s.book.len c ≠ 0)
    (h : s.checkDestination s.src s.srcCount (bytesFor s.payload.length) = .error (.refuse r)) :
    commandPlan .encode s = .error (.refuse r) := by
  have hs : s.sourceBytes = .ok s.sourceData := sourceBytes_eq_ok.2 ⟨h1, h2, rfl⟩
  have he : encodeBytes s.book 0 s.sourceData = .ok s.payload := encodeBytes_eq_ok.2 ⟨h3, rfl⟩
  simp [commandPlan, State.encodePlan, hs, he, h]

theorem decodePlan_refused_destination {s : State} {r : Refusal} {out : List Byte}
    (h1 : inRange s.platform.memSize s.src s.srcCount = true) (h2 : s.bitCount ≤ 8 * s.srcCount)
    (h3 : s.decodeStream = .ok out)
    (h : s.checkDestination s.src (bytesFor s.bitCount) out.length = .error (.refuse r)) :
    commandPlan .decode s = .error (.refuse r) := by
  simp [commandPlan, State.decodePlan, h1, decide_eq_true h2, h3, h]

/-! ### What a command leaves alone -/

/-- A plan changes only the table, the tree, the codebook and memory. -/
theorem plan_ok_frame {i : Instr} {s : State} {d : Done} (h : commandPlan i s = .ok d) :
    d.state = { s with table := d.state.table, tree := d.state.tree, book := d.state.book, mem := d.state.mem } := by
  cases i
  · obtain ⟨-, -, rfl⟩ := plan_count_ok.1 h; rfl
  · obtain rfl := Except.ok.inj h; rfl
  · obtain rfl := Except.ok.inj h; rfl
  · obtain ⟨-, -, rfl⟩ := plan_setup_ok.1 h; rfl
  · obtain ⟨-, -, -, -, rfl⟩ := plan_encode_ok.1 h; rfl
  · obtain ⟨-, -, -, rfl⟩ := plan_bitlen_ok.1 h; rfl
  · obtain ⟨_, -, rfl⟩ := plan_decode_ok.1 h; rfl
  · obtain rfl := Except.ok.inj h; rfl

/-- Only ENCODE and DECODE write memory (R77). -/
theorem plan_ok_mem {i : Instr} {s : State} {d : Done} (h : commandPlan i s = .ok d) (he : i ≠ .encode)
    (hd : i ≠ .decode) : d.state.mem = s.mem := by
  cases i
  · obtain ⟨-, -, rfl⟩ := plan_count_ok.1 h; rfl
  · obtain rfl := Except.ok.inj h; rfl
  · obtain rfl := Except.ok.inj h; rfl
  · obtain ⟨-, -, rfl⟩ := plan_setup_ok.1 h; rfl
  · exact absurd rfl he
  · obtain ⟨-, -, -, rfl⟩ := plan_bitlen_ok.1 h; rfl
  · exact absurd rfl hd
  · obtain rfl := Except.ok.inj h; rfl

theorem sameHostSide_succeed {s : State} {d : Done} {n m : Nat}
    (h : d.state = { s with table := d.state.table, tree := d.state.tree, book := d.state.book, mem := d.state.mem }) :
    s.SameHostSide (d.state.succeed n m) := by
  rw [h]
  exact ⟨rfl, rfl, rfl, rfl, rfl, rfl, rfl, rfl, rfl, rfl, rfl, rfl, rfl, rfl, rfl⟩

theorem sameHostSide_raise (s : State) (e : CmdError) : s.SameHostSide (s.raise e) :=
  ⟨rfl, rfl, rfl, rfl, rfl, rfl, rfl, rfl, rfl, rfl, rfl, rfl, rfl, rfl, rfl⟩

/-- No command writes the host's side of the state (R21, R34, R137, R138). -/
theorem exec_sameHostSide {i : Instr} {s t : State} (h : exec i s = .next t) : s.SameHostSide t := by
  rcases exec_next h with ⟨d, hd, rfl⟩ | ⟨e, -, rfl⟩
  · exact sameHostSide_succeed (plan_ok_frame hd)
  · exact sameHostSide_raise s e

/-- A command ends with BUSY = 0 and DONE = 1 (R137, R138). -/
theorem exec_completes {i : Instr} {s t : State} (h : exec i s = .next t) : t.busy = false ∧ t.done = true := by
  rcases exec_next h with ⟨d, -, rfl⟩ | ⟨e, -, rfl⟩ <;> exact ⟨rfl, rfl⟩

/-- The error codes are 1 to 5 (R300). -/
theorem CmdError.code_bounds (e : CmdError) : 1 ≤ e.code.toNat ∧ e.code.toNat ≤ 5 := by
  cases e <;> simp [CmdError.code]

theorem CmdError.code_ne_zero (e : CmdError) : e.code ≠ 0 := by
  cases e <;> simp [CmdError.code]

/-- A command that ends in an error did nothing else (R138). -/
theorem exec_err {i : Instr} {s t : State} (h : exec i s = .next t) (he : t.err ≠ 0) :
    ∃ e, commandPlan i s = .error (.raised e) ∧ t = s.raise e := by
  rcases exec_next h with ⟨d, -, rfl⟩ | h
  · exact absurd rfl he
  · exact h

theorem exec_no_err {i : Instr} {s t : State} (h : exec i s = .next t) (he : t.err = 0) :
    ∃ d, commandPlan i s = .ok d ∧ t = d.state.succeed d.resBits d.resBytes := by
  rcases exec_next h with h | ⟨e, -, rfl⟩
  · exact h
  · exact absurd he e.code_ne_zero

/-! ### Pieces of the invariant -/

/-- An absent tree gives the empty codebook (R200). -/
theorem generateBook_of_absent {t : CodeTree} (h : t.nnodes = 0) : generateBook t = CodeBook.empty := by
  simp [generateBook, CodeTree.codes, h]

/-- A buffer inside data memory is written inside it, and the canonical form is kept. -/
theorem memInv_writeBytes {s : State} (h : s.MemoryInv) {a : Nat} {vs : List Byte}
    (hr : vs.length = 0 ∨ a + vs.length ≤ s.platform.memSize) : Memory.wf (s.mem.writeBytes a vs) ∧
      ∀ c ∈ s.mem.writeBytes a vs, c.1 < s.platform.memSize := by
  refine ⟨Memory.wf_writeBytes h.1 _ _, fun c hc => ?_⟩
  rcases Memory.mem_writeBytes hc with hc | hc
  · exact h.2 c hc
  · omega

/-! ### Nothing outside the contract of R72 and R83 -/

theorem access_not_refused {p : Platform} {a n : Nat} (hc : p.coherent = true) (hd : p.devices = []) :
    p.access a n = .ok () :=
  access_of_usable (usable_of_ordinary hc hd a n)

theorem sourceBytes_not_refused {s : State} (hc : s.platform.coherent = true) (hd : s.platform.devices = []) {r : Refusal} :
    s.sourceBytes ≠ .error (.refuse r) := by
  simp only [State.sourceBytes, access_not_refused hc hd]
  cases inRange s.platform.memSize s.src s.srcCount <;> simp

theorem checkDestination_not_refused {s : State} (hc : s.platform.coherent = true) (hd : s.platform.devices = [])
    {a n nb : Nat} {r : Refusal} : s.checkDestination a n nb ≠ .error (.refuse r) := by
  simp only [State.checkDestination, access_not_refused hc hd, ne_eq, bind_eq_error, require_eq_error, reduceCtorEq,
    and_false, exists_false, or_false, not_false_eq_true]

theorem walkBits_not_refused {tree : CodeTree} {r : Refusal} (bits : List Bool) (t : Nat) (w : Walk) :
    tree.walkBits t w bits ≠ .error (.refuse r) := by
  induction bits generalizing t w with
  | nil => simp [CodeTree.walkBits]
  | cons b bits ih =>
    simp only [CodeTree.walkBits, ne_eq, bind_eq_error, not_or, not_exists, not_and]
    refine ⟨?_, fun w' _ => ih _ _⟩
    unfold CodeTree.walkBit
    split
    · simp
    · dsimp only
      split <;> simp

theorem decodeStream_not_refused {s : State} (hc : s.platform.coherent = true) (hd : s.platform.devices = [])
    {r : Refusal} : s.decodeStream ≠ .error (.refuse r) := by
  unfold State.decodeStream
  split
  · simp
  · split
    · simp
    · rw [access_not_refused hc hd, ok_bind]
      split
      · unfold CodeTree.decodeSingle
        split <;> simp
      · simp [CodeTree.decodeBits, bind_eq_error, walkBits_not_refused, require_eq_error]

/-- On a coherent platform without devices no command is refused. -/
theorem plan_not_refused {i : Instr} {s : State} (hc : s.platform.coherent = true) (hd : s.platform.devices = [])
    {r : Refusal} : commandPlan i s ≠ .error (.refuse r) := by
  have h1 := @sourceBytes_not_refused s hc hd r
  have h2 : ∀ a n nb, s.checkDestination a n nb ≠ .error (.refuse r) := fun a n nb => checkDestination_not_refused hc hd
  have h3 := @decodeStream_not_refused s hc hd r
  have h4 : ∀ b k l, encodeBytes b k l ≠ .error (.refuse r) := fun b k l h => by
    obtain ⟨_, _, _, _, _, _, h⟩ := encodeBytes_eq_error.1 h
    simp at h
  cases i <;>
    simp [commandPlan, bind_eq_error, State.encodePlan, State.decodePlan, sumLengths_eq, require_eq_error, h1, h2, h3, h4]

end Sys2Proof.Machine
end

