-- ==== Sys2Proof/Laws/Encoding.lean ====
section
/-! SUPPORT. The laws of decoding: the fields of a command word and the words the decoder accepts, as numbers. -/

namespace Sys2Proof

theorem toNat_wordOpcode (w : Word) : (wordOpcode w).toNat = w.toNat % 256 := by
  simp [wordOpcode]

theorem wordReserved_eq_zero (w : Word) : wordReserved w = 0 ↔ w.toNat < 256 := by
  have := w.isLt
  rw [← BitVec.toNat_inj]
  simp only [wordReserved, BitVec.extractLsb'_toNat, Nat.shiftRight_eq_div_pow, BitVec.toNat_zero, BitVec.ofNat_eq_ofNat]
  omega

theorem toNat_encode (i : Instr) : (encode i).toNat = i.opcode.toNat := by cases i <;> rfl

/-- The words the decoder accepts, by number. -/
theorem decode_eq_ok {w : Word} {i : Instr} : decode w = .ok i ↔ w.toNat = i.opcode.toNat := by
  unfold decode
  by_cases hr : wordReserved w = 0
  · rw [if_pos hr]
    have hw := (wordReserved_eq_zero w).1 hr
    have ho := toNat_wordOpcode w
    rw [Nat.mod_eq_of_lt hw] at ho
    unfold decodeOpcode
    rw [ho]
    generalize w.toNat = n at *
    clear ho hr
    split <;> cases i <;> simp_all [Instr.opcode]
  · rw [if_neg hr]
    simp only [reduceCtorEq, false_iff]
    intro h
    exact hr ((wordReserved_eq_zero w).2 (by rw [h]; exact i.opcode.isLt))

/-- The words that name a command (R103). -/
theorem exists_decode_eq_ok {w : Word} : (∃ i, decode w = .ok i) ↔ 1 ≤ w.toNat ∧ w.toNat ≤ 8 := by
  simp only [decode_eq_ok]
  constructor
  · rintro ⟨i, h⟩
    rw [h]; cases i <;> decide
  · rintro ⟨h1, h2⟩
    generalize w.toNat = n at *
    rcases n with _ | _ | _ | _ | _ | _ | _ | _ | _ | n
    · omega
    · exact ⟨.count, rfl⟩
    · exact ⟨.build, rfl⟩
    · exact ⟨.generate, rfl⟩
    · exact ⟨.setup, rfl⟩
    · exact ⟨.encode, rfl⟩
    · exact ⟨.bitlen, rfl⟩
    · exact ⟨.decode, rfl⟩
    · exact ⟨.clear, rfl⟩
    · omega

end Sys2Proof
end

