-- ==== Sys2Proof/Laws/PerInstr.lean ====
section
/-! SUPPORT. The per-command family `Encoding`: what R100 to R103 say of the word of each command. -/

namespace Sys2Proof.Laws.Encoding

/-- The word of the command is legal and is one of the eight words 0x00000001 to 0x00000008, and it decodes to the
command (R102, R103). -/
def Statement (i : Instr) : Prop :=
  wordLegal (encode i) = true ∧ 1 ≤ (encode i).toNat ∧ (encode i).toNat ≤ 8 ∧ decode (encode i) = .ok i

theorem of_opcode {i : Instr} (h : 1 ≤ i.opcode.toNat ∧ i.opcode.toNat ≤ 8) (hl : wordLegal (encode i) = true) :
    Statement i :=
  ⟨hl, by rw [toNat_encode]; exact h.1, by rw [toNat_encode]; exact h.2, decode_eq_ok.2 (toNat_encode i)⟩

theorem count : Statement .count := of_opcode (by decide) rfl
theorem build : Statement .build := of_opcode (by decide) rfl
theorem generate : Statement .generate := of_opcode (by decide) rfl
theorem setup : Statement .setup := of_opcode (by decide) rfl
theorem encode : Statement .encode := of_opcode (by decide) rfl
theorem bitlen : Statement .bitlen := of_opcode (by decide) rfl
theorem decode : Statement .decode := of_opcode (by decide) rfl
theorem clear : Statement .clear := of_opcode (by decide) rfl

end Sys2Proof.Laws.Encoding
end

