-- ==== Sys2Proof/Laws/Register.lean ====
section
/-! SUPPORT. The laws of the register map (R24, R44): the offset of each register, and how a host access reaches it. -/

namespace Sys2Proof

open Machine

/-! ### Offsets -/

theorem Reg.offset_aligned (r : Reg) : r.offset % 4 = 0 := by
  cases r <;> simp only [Reg.offset] <;> omega

theorem Reg.offset_lt (r : Reg) : r.offset < Config.regSpan := by
  cases r <;> simp only [Reg.offset, Config.regSpan, Nat.reduceLT]
  · next s => have := s.isLt; omega
  · next s => have := s.isLt; omega
  · next s j => have := s.isLt; have := j.isLt; omega
  · next i => have := i.isLt; omega
  · next i => have := i.isLt; omega

theorem ofNat_div_four (s : Byte) (b : Nat) : BitVec.ofNat 8 ((b + 4 * s.toNat - b) / 4) = s := by
  rw [Nat.add_sub_cancel_left, Nat.mul_div_cancel_left _ (by omega)]
  simp

/-- The register at a register's own offset (R24). -/
theorem regAt_offset (r : Reg) : regAt r.offset = r := by
  cases r with
  | freq s =>
    have := s.isLt
    show regAt (0x400 + 4 * s.toNat) = .freq s
    unfold regAt
    rw [if_neg (by omega), if_pos (by omega), ofNat_div_four]
  | codeLen s =>
    have := s.isLt
    show regAt (0x800 + 4 * s.toNat) = .codeLen s
    unfold regAt
    rw [if_neg (by omega), if_neg (by omega), if_pos (by omega), ofNat_div_four]
  | codeBits s j =>
    have := s.isLt
    have := j.isLt
    show regAt (0x1000 + 32 * s.toNat + 4 * j.val) = .codeBits s j
    unfold regAt
    rw [if_neg (by omega), if_neg (by omega), if_neg (by omega), if_neg (by omega), if_pos (by omega)]
    congr 1
    · rw [show (0x1000 + 32 * s.toNat + 4 * j.val - 0x1000) / 32 = s.toNat by omega]
      simp
    · refine Fin.ext ?_
      simp only [Fin.ofNat]
      omega
  | nodeA i =>
    have := i.isLt
    show regAt (0x4000 + 8 * i.val) = .nodeA i
    unfold regAt
    rw [if_neg (by omega), if_neg (by omega), if_neg (by omega), if_neg (by omega), if_neg (by omega), if_neg (by omega)]
    unfold nodeRegAt
    rw [dif_pos (by omega), if_pos (by omega)]
    congr 1
    refine Fin.ext ?_
    simp only
    omega
  | nodeW i =>
    have := i.isLt
    show regAt (0x4004 + 8 * i.val) = .nodeW i
    unfold regAt
    rw [if_neg (by omega), if_neg (by omega), if_neg (by omega), if_neg (by omega), if_neg (by omega), if_neg (by omega)]
    unfold nodeRegAt
    rw [dif_pos (by omega), if_neg (by omega)]
    congr 1
    refine Fin.ext ?_
    simp only
    omega
  | _ => rfl

/-- The offset of a control word, by its number. -/
theorem controlRegAt_offset {k : Nat} (h : controlRegAt k ≠ .reserved) : (controlRegAt k).offset = 4 * k ∧ k < 20 := by
  unfold controlRegAt at h ⊢
  split at h <;> first | exact ⟨rfl, by omega⟩ | exact absurd rfl h

/-- An offset that reaches a register is that register's own (R24). -/
theorem offset_regAt {o : Nat} (ha : o % 4 = 0) (hs : o < Config.regSpan) (h : regAt o ≠ .reserved) :
    (regAt o).offset = o := by
  simp only [Config.regSpan] at hs
  unfold regAt at h ⊢
  split at h
  · rw [if_pos ‹_›, (controlRegAt_offset h).1]
    omega
  rw [if_neg ‹_›]
  split at h
  · rw [if_pos ‹_›]
    simp only [Reg.offset, BitVec.toNat_ofNat]
    omega
  rw [if_neg ‹_›]
  split at h
  · rw [if_pos ‹_›]
    simp only [Reg.offset, BitVec.toNat_ofNat]
    omega
  rw [if_neg ‹_›]
  split at h
  · exact absurd rfl h
  rw [if_neg ‹_›]
  split at h
  · rw [if_pos ‹_›]
    simp only [Reg.offset, BitVec.toNat_ofNat, Fin.ofNat]
    omega
  rw [if_neg ‹_›]
  split at h
  · exact absurd rfl h
  rw [if_neg ‹_›]
  unfold nodeRegAt at h ⊢
  split at h
  · rw [dif_pos ‹_›]
    split at h
    · next hz =>
      rw [if_pos hz]
      simp only [Reg.offset]
      omega
    · next hz =>
      rw [if_neg hz]
      simp only [Reg.offset]
      omega
  · exact absurd rfl h

/-- The reserved offsets (R44). -/
theorem regAt_eq_reserved {o : Nat} (ha : o % 4 = 0) (hs : o < Config.regSpan) :
    regAt o = .reserved ↔ (0x050 ≤ o ∧ o < 0x400) ∨ (0xC00 ≤ o ∧ o < 0x1000) ∨ (0x3000 ≤ o ∧ o < 0x4000) ∨
      0x4FF8 ≤ o := by
  simp only [Config.regSpan] at hs
  unfold regAt
  split
  · next h =>
    constructor
    · intro hr
      by_contra hc
      have hk : o / 4 < 20 := by omega
      generalize o / 4 = k at hr hk
      clear ha hs h hc
      interval_cases k <;> exact Reg.noConfusion hr
    · intro hr
      unfold controlRegAt
      split <;> first | rfl | omega
  repeat' split
  all_goals try simp only [reduceCtorEq, false_iff, true_iff]
  all_goals try omega
  unfold nodeRegAt
  split
  · split <;> simp only [reduceCtorEq, false_iff] <;> omega
  · simp only [true_iff]; omega

/-! ### Host accesses -/

/-- An access the platform carries to the block reaches the register at its offset (R130). -/
theorem register_eq_ok {p : Platform} {width : AccessWidth} {addr o : Nat} :
    p.register width addr = .ok o ↔ width = .word ∧ addr = p.regBase + o ∧ o % 4 = 0 ∧ o < Config.regSpan := by
  unfold Platform.register
  cases width <;> simp only [reduceCtorEq, false_and, true_and]
  split
  · simp only [reduceCtorEq, false_iff]; omega
  · split
    · simp only [reduceCtorEq, false_iff]; omega
    · split
      · simp only [Except.ok.injEq]; omega
      · simp only [reduceCtorEq, false_iff]; omega

theorem register_at {p : Platform} {o : Nat} (ha : o % 4 = 0) (hs : o < Config.regSpan) :
    p.register .word (p.regBase + o) = .ok o :=
  register_eq_ok.2 ⟨rfl, rfl, ha, hs⟩

theorem register_offset (p : Platform) (r : Reg) : p.register .word (p.regBase + r.offset) = .ok r.offset :=
  register_at r.offset_aligned r.offset_lt

/-- Any other access is refused (R130, U1). -/
theorem register_error_iff {p : Platform} {width : AccessWidth} {addr : Nat} :
    (∃ r, p.register width addr = .error r) ↔ p.registerAccessWf width addr = false := by
  have h : p.registerAccessWf width addr = true ↔ ∃ o, p.register width addr = .ok o := by
    simp only [register_eq_ok, Platform.registerAccessWf, Bool.and_eq_true, beq_iff_eq, decide_eq_true_eq, Config.regSpan]
    constructor
    · rintro ⟨⟨⟨h1, h2⟩, h3⟩, h4⟩
      exact ⟨addr - p.regBase, h1, by omega, h3, of_decide_eq_true h4⟩
    · rintro ⟨o, h1, h2, h3, h4⟩
      exact ⟨⟨⟨h1, by omega⟩, by omega⟩, decide_eq_true (by omega)⟩
  rw [← Bool.not_eq_true, h]
  cases p.register width addr <;> simp

namespace Machine

theorem hostOp_regWrite (s : State) (r : Reg) (v : Word) :
    State.hostOp s (.regWrite .word (s.platform.regBase + r.offset) v) = .next (s.writeReg r v) := by
  simp only [State.hostOp, register_offset, regAt_offset]

theorem hostOp_regRead (s : State) (r : Reg) :
    State.hostOp s (.regRead .word (s.platform.regBase + r.offset)) =
      .next { s.countDraw r with reads := s.reads ++ [.reg r.offset (s.readReg r)] } := by
  simp only [State.hostOp, register_offset, State.hostReadReg, regAt_offset]

end Machine

end Sys2Proof
end

