-- ==== Sys2Proof/Laws/Status.lean ====
section
/-! SUPPORT. The laws of what a register read returns: the bits of STATUS (R27), CTRL (R28), the 64-bit pairs (R31), and
which bits are a draw while BUSY = 1 (R134). -/

namespace Sys2Proof.Machine

/-- The bits of STATUS (R27). -/
theorem getLsbD_statusWord (busy done overrun : Bool) (err : BitVec 4) (treePresent cbPresent irq : Bool) (k : Nat) :
    (statusWord busy done overrun err treePresent cbPresent irq).getLsbD k =
      if k = 0 then busy else if k = 1 then done else if k = 2 then overrun else if k = 3 then false
      else if k < 8 then err.getLsbD (k - 4) else if k = 8 then treePresent else if k = 9 then cbPresent
      else if k = 10 then irq else false := by
  simp only [statusWord, BitVec.getLsbD_append, BitVec.getLsbD_ofBool]
  rcases k with _ | _ | _ | _ | _ | _ | _ | _ | _ | _ | _ | k <;> simp

/-- A 64-bit value from its two words (R31). -/
theorem toNat_pair (hi lo : Word) : (hi ++ lo : DWord).toNat = hi.toNat * 2 ^ 32 + lo.toNat := by
  rw [BitVec.toNat_append, Nat.shiftLeft_eq, Nat.mul_comm, Nat.two_pow_add_eq_or_of_lt lo.isLt]

/-- CTRL is bit 0 of what was written to it (R28). -/
theorem ctrlWord_of_bit (v : Word) : ((0 : BitVec 31) ++ BitVec.ofBool (v.getLsbD 0) : Word) = v &&& 1 := by
  refine BitVec.eq_of_getLsbD_eq fun i hi => ?_
  simp only [BitVec.getLsbD_append, BitVec.getLsbD_and, BitVec.getLsbD_ofBool]
  rcases i with _ | i <;> simp

theorem readReg_of_not_drawn {s : State} {r : Reg} (h : r.drawnBits = 0) : s.readReg r = s.regValue r := by
  unfold State.readReg
  rw [h, show ~~~(0 : Word) = BitVec.allOnes 32 from rfl, BitVec.and_allOnes]
  split <;> simp

theorem readReg_of_idle {s : State} {r : Reg} (h : s.busy = false) : s.readReg r = s.regValue r := by
  simp [State.readReg, h]
/-- A bit that is not drawn reads its defined value at every time (R134). -/
theorem getLsbD_readReg {s : State} {r : Reg} {k : Nat} (h : r.drawnBits.getLsbD k = false) :
    (s.readReg r).getLsbD k = (s.regValue r).getLsbD k := by
  unfold State.readReg
  split
  · rcases Nat.lt_or_ge k 32 with hk | hk
    · simp only [BitVec.getLsbD_or, BitVec.getLsbD_and, BitVec.getLsbD_not, h]
      simp [hk]
    · rw [BitVec.getLsbD_of_ge _ _ hk, BitVec.getLsbD_of_ge _ _ hk]
  · rfl

/-- What every register reads after reset (R24, R340). -/
theorem regValue_resetOn (p : Platform) (m : Memory) (r : Reg) :
    (State.resetOn p m).regValue r = if r = .id then 0x48554631 else 0 := by
  cases r
  case id => rfl
  case status =>
    simp only [State.regValue, State.status, State.statusWith, State.resetOn]
    have h1 : CodeTree.absent.present = false := rfl
    rw [h1, CodeBook.present_empty, if_neg (by simp)]
    show statusWord false false false 0 false false false = 0
    decide
  case codeBits s j =>
    simp [State.regValue, CodeBook.codeBits, State.resetOn, CodeBook.empty]
  case freq s => simp [State.regValue, State.resetOn, FreqTable.empty]
  case codeLen s => simp [State.regValue, State.resetOn, CodeBook.empty]
  case nodeA i => simp [State.regValue, State.resetOn, CodeTree.absent, CodeTree.nodeA]
  case nodeW i => simp [State.regValue, State.resetOn, CodeTree.absent, CodeTree.nodeW]
  all_goals simp [State.regValue, State.resetOn, State.ctrl, FreqTable.empty, CodeTree.absent]

end Sys2Proof.Machine
end

