-- ==== Sys2Proof/Laws/Step.lean ====
section
/-! SUPPORT. What one step can do: the engine's move, each move of the host's, and which of them a step is. -/

namespace Sys2Proof.Machine

/-! ### The engine -/

/-- The engine's move while BUSY = 1: the latched command, or IllegalCommand (R135). -/
theorem engineMove_next {s t : State} (hb : s.busy = true) (h : s.engineMove = .next t) :
    (∃ i, decode s.latch.cmd = .ok i ∧ exec i s = .next t) ∨
      (∃ e, decode s.latch.cmd = .error e) ∧ t = s.raise (.illegalCommand s.latch.cmd) := by
  unfold State.engineMove at h
  rw [if_pos hb] at h
  split at h
  · next i hi => exact .inl ⟨i, hi, h⟩
  · next e he => exact .inr ⟨⟨e, he⟩, by simpa using h.symm⟩

theorem engineMove_idle {s : State} (hb : s.busy = false) : s.engineMove = .next s := by
  simp [State.engineMove, hb]

/-- The engine's move ends in a completion and writes nothing of the host's side (R137, R138). -/
theorem engineMove_completes {s t : State} (hb : s.busy = true) (h : s.engineMove = .next t) :
    t.busy = false ∧ t.done = true ∧ s.SameHostSide t := by
  rcases engineMove_next hb h with ⟨i, -, hi⟩ | ⟨-, rfl⟩
  · exact ⟨(exec_completes hi).1, (exec_completes hi).2, exec_sameHostSide hi⟩
  · exact ⟨rfl, rfl, sameHostSide_raise _ _⟩

/-! ### The host -/

/-- What a move of the host's does when it is neither a fault nor refused (R130, R131, R134, R82, R340). -/
inductive HostEffect (s : State) : HostOp → State → Prop where
  | read (o : Nat) (ha : o % 4 = 0) (hs : o < Config.regSpan) :
      HostEffect s (.regRead .word (s.platform.regBase + o)) (s.hostReadReg o)
  | write (o : Nat) (v : Word) (ha : o % 4 = 0) (hs : o < Config.regSpan) :
      HostEffect s (.regWrite .word (s.platform.regBase + o) v) (s.writeReg (regAt o) v)
  | wait : HostEffect s .wait s.hostWait
  | load (a : Word) (v : Byte) (k : Nat) (hm : a.toNat < s.platform.memSize) (hl : s.live a.toNat = false)
      (hv : s.platform.usable a.toNat 1 = true → v = s.mem.read a.toNat ∧ k = s.draws) :
      HostEffect s (.memRead a) (State.recordByte { s with draws := k } a v)
  | store (a : Word) (v w : Byte) (k : Nat) (hm : a.toNat < s.platform.memSize) (hl : s.live a.toNat = false)
      (hv : s.platform.usable a.toNat 1 = true → w = v ∧ k = s.draws) :
      HostEffect s (.memWrite a v) (State.storeByte { s with draws := k } a w)
  | reset : HostEffect s .assertReset s.hardReset

/-- A host access to data memory goes on exactly when the byte exists and no running command uses it (R70, R82). -/
theorem hostAccess_next {s t u w : State} {a : Nat} :
    s.hostAccess a u w = .next t ↔
      a < s.platform.memSize ∧ s.live a = false ∧ t = if s.platform.usable a 1 then u else w := by
  unfold State.hostAccess
  by_cases hm : s.platform.memSize ≤ a
  · rw [if_pos hm]
    simp only [reduceCtorEq, false_iff]
    omega
  · rw [if_neg hm]
    cases s.live a <;> cases s.platform.usable a 1 <;> simp [eq_comm, Nat.not_le.1 hm]

theorem hostAccess_of_live {s u w : State} {a : Nat} (hm : a < s.platform.memSize) (hl : s.live a = true) :
    s.hostAccess a u w = .fault .hostBufferRace := by
  unfold State.hostAccess
  rw [if_neg (Nat.not_le.2 hm), if_pos hl]

theorem hostOp_next {s t : State} {op : HostOp} (h : s.hostOp op = .next t) : HostEffect s op t := by
  cases op with
  | regRead width addr =>
    simp only [State.hostOp] at h
    split at h
    · next o ho =>
      obtain ⟨rfl, rfl, ha, hs⟩ := register_eq_ok.1 ho
      obtain rfl := Host.Outcome.next.inj h
      exact .read o ha hs
    · cases h
  | regWrite width addr v =>
    simp only [State.hostOp] at h
    split at h
    · next o ho =>
      obtain ⟨rfl, rfl, ha, hs⟩ := register_eq_ok.1 ho
      obtain rfl := Host.Outcome.next.inj h
      exact .write o v ha hs
    · cases h
  | wait => obtain rfl := Host.Outcome.next.inj h; exact .wait
  | memRead a =>
    obtain ⟨hm, hl, rfl⟩ := hostAccess_next.1 h
    split
    · exact .load a _ s.draws hm hl fun _ => ⟨rfl, rfl⟩
    · next hu => exact .load a _ (s.draws + 1) hm hl fun h => absurd h hu
  | memWrite a v =>
    obtain ⟨hm, hl, rfl⟩ := hostAccess_next.1 h
    split
    · exact .store a v _ s.draws hm hl fun _ => ⟨rfl, rfl⟩
    · next hu => exact .store a v _ (s.draws + 1) hm hl fun h => absurd h hu
  | assertReset => obtain rfl := Host.Outcome.next.inj h; exact .reset

/-- No host move changes the OPEN parameters (R6). -/
theorem HostEffect.platform {s t : State} {op : HostOp} (h : HostEffect s op t) : t.platform = s.platform := by
  cases h with
  | read o ha hs => unfold State.hostReadReg State.countDraw; split <;> rfl
  | write o v ha hs =>
    unfold State.writeReg
    split <;> try rfl
    unfold State.writeCommand
    split <;> rfl
  | wait =>
    unfold State.hostWait State.countDraw
    split
    · split <;> rfl
    · rfl
  | load a v k hm hl hv => rfl
  | store a v w k hm hl hv => rfl
  | reset => rfl

/-! ### The step -/

/-- One step: the engine completes its command, or the host makes its next move, or nothing but a turn is used up. -/
theorem step_next {s t : State} (h : step s = .next t) :
    ∃ ts, (s.busy = true ∧ State.engineMove { s with turns := ts } = .next t) ∨
      (∃ op ops, s.host = op :: ops ∧ HostEffect { s with turns := ts, host := ops } op t) ∨
      t = { s with turns := ts } := by
  have engine : ∀ ts, State.engineMove { s with turns := ts } = .next t →
      (s.busy = true ∧ State.engineMove { s with turns := ts } = .next t) ∨ t = { s with turns := ts } := by
    intro ts h
    by_cases hb : s.busy = true
    · exact .inl ⟨hb, h⟩
    · rw [engineMove_idle (show State.busy { s with turns := ts } = false by simpa using hb)] at h
      exact .inr (Host.Outcome.next.inj h).symm
  have host : ∀ ts, State.hostMove { s with turns := ts } = .next t →
      (∃ op ops, s.host = op :: ops ∧ HostEffect { s with turns := ts, host := ops } op t) ∨
        t = { s with turns := ts } := by
    intro ts h
    unfold State.hostMove at h
    split at h
    · exact .inr (Host.Outcome.next.inj h).symm
    · next op ops hh => exact .inl ⟨op, ops, hh, hostOp_next h⟩
  unfold step at h
  split at h
  · next ht =>
    have hs : s = { s with turns := [] } := by rw [← ht]
    split at h
    · rw [hs] at h
      exact ⟨[], (engine [] h).imp_right .inr⟩
    · rw [hs] at h
      exact ⟨[], .inr (host [] h)⟩
  · next ts ht => exact ⟨ts, (engine ts h).imp_right .inr⟩
  · next ts ht => exact ⟨ts, .inr (host ts h)⟩

/-- A run of k + 1 steps is one step and a run of k. -/
theorem run_of_next {M : Host.Core} (k : Nat) {s t : M.State} (h : M.step s = .next t) : M.run (k + 1) s = M.run k t := by
  simp only [Host.Core.run, h]

/-! ### Reset -/

theorem length_drawnBytes (k n : Nat) : (drawnBytes k n).length = n := by
  simp [drawnBytes]

/-- The write range of a command lies in data memory (R76, R79). -/
theorem destination_in_memory (s : State) :
    s.destination.2 = 0 ∨ s.destination.1 + s.destination.2 ≤ s.platform.memSize := by
  simp only [State.destination]
  omega

theorem writeRange_in_memory (s : State) (i : Instr) :
    (s.writeRange i).2 = 0 ∨ (s.writeRange i).1 + (s.writeRange i).2 ≤ s.platform.memSize := by
  have h0 := destination_in_memory s
  cases i <;> simp only [State.writeRange, true_or]
  · rcases h : s.encodePlan with (e | r) | plan
    · exact .inl rfl
    · exact h0
    · obtain ⟨-, -, -, ⟨-, hr, -⟩, rfl⟩ := encodePlan_eq_ok.1 h
      simpa [Except.map, State.plannedRange] using inRange_iff.1 hr
  · rcases h : s.decodePlan with (e | r) | out
    · exact .inl rfl
    · exact h0
    · obtain ⟨-, -, -, -, hr, -⟩ := decodePlan_eq_ok.1 h
      simpa [Except.map, State.plannedRange] using inRange_iff.1 hr

theorem abandonedRange_in_memory (s : State) :
    s.abandonedRange.2 = 0 ∨ s.abandonedRange.1 + s.abandonedRange.2 ≤ s.platform.memSize := by
  unfold State.abandonedRange
  split
  · exact writeRange_in_memory s _
  · exact .inl rfl

/-- What the registers, the structures and the platform are after reset (R340). -/
theorem hardReset_eq (s : State) :
    ∃ m d, s.hardReset = { State.resetOn s.platform m with host := s.host, turns := s.turns, reads := s.reads, draws := d } ∧
      m = s.mem.writeBytes s.abandonedRange.1 (drawnBytes s.draws s.abandonedRange.2) :=
  ⟨_, _, rfl, rfl⟩

end Sys2Proof.Machine
end

