-- ==== Sys2Proof/Tests/Slice0.lean ====
section
/-! SUPPORT. Tests: the decoding of words written from R100 and R102, the ill-formed terms WellFormed refuses, one step of
each command with the results 95_test_vectors.md gives, and for each statement with hypotheses a state that meets them. -/

set_option Elab.async false

namespace Sys2Proof.Tests

open Machine

/-! ### States to start from -/

/-- "AABC" at 0x100, "AAAA" at 0x300, and the byte 0x2F at 0x200; MEM_SIZE = 0x10000 (95_test_vectors.md). -/
def idle : State :=
  State.resetOn Platform.vectors
    (launchMemory [(0x100, [0x41, 0x41, 0x42, 0x43]), (0x200, [0x2F]), (0x300, [0x41, 0x41, 0x41, 0x41])])

/-- L as an issue of `i` fills it. -/
def latched (i : Instr) (src n dst cap : Word) (bits : DWord) : Latch :=
  { cmd := encode i, srcAddr := src, srcLen := n, dstAddr := dst, dstCap := cap, bitcnt := bits }

/-- `s` with L filled and BUSY = 1. -/
def issued (s : State) (i : Instr) (src n : Word) (dst : Word := 0) (cap : Word := 0) (bits : DWord := 0) : State :=
  { s with cmd := encode i, latch := latched i src n dst cap bits, busy := true, done := false, err := 0 }

/-- The state an outcome goes on to. -/
def landed (o : Host.Outcome State Fault Refusal) : Option State :=
  match o with
  | .next t => some t
  | .fault _ => none
  | .refused _ => none

/-- The state after the command, and `s` where it stops. -/
def after (i : Instr) (s : State) : State := (landed (exec i s)).getD s

theorem exec_after {i : Instr} {s : State} (h : (landed (exec i s)).isSome = true) : exec i s = .next (after i s) := by
  unfold after
  cases he : exec i s <;> simp_all [landed]

/-- The state after sample "AABC" was set up. -/
def sample : State := after .setup (issued idle .setup 0x100 4)

theorem sample_tree : sample.tree = buildTree sample.table.freq := by
  have h : exec .setup (issued idle .setup 0x100 4) = _ := exec_setup_ok (by decide +kernel) (by decide +kernel)
  unfold sample after
  rw [h]
  rfl

/-! ### Decoding -/

theorem test_decode_count : decode 0b00000000000000000000000000000001 = .ok .count := by decide
theorem test_decode_build : decode 0b00000000000000000000000000000010 = .ok .build := by decide
theorem test_decode_generate : decode 0b00000000000000000000000000000011 = .ok .generate := by decide
theorem test_decode_setup : decode 0b00000000000000000000000000000100 = .ok .setup := by decide
theorem test_decode_encode : decode 0b00000000000000000000000000000101 = .ok .encode := by decide
theorem test_decode_bitlen : decode 0b00000000000000000000000000000110 = .ok .bitlen := by decide
theorem test_decode_decode : decode 0b00000000000000000000000000000111 = .ok .decode := by decide
theorem test_decode_clear : decode 0b00000000000000000000000000001000 = .ok .clear := by decide

/-- R104, and I-1 to I-5 of 95_test_vectors.md: opcode 0, opcodes 9 and 0xFF, and a bit set in [31:8]. -/
theorem test_decode_illegal :
    decode 0x00000000 = .error .opcodeZero ∧ decode 0x00000009 = .error .opcodeUnassigned ∧
      decode 0x000000FF = .error .opcodeUnassigned ∧ decode 0x00000101 = .error .reservedBits ∧
      decode 0x80000004 = .error .reservedBits := by decide

theorem test_table_words :
    decodeTableWord 32 5 = some .encode ∧ decodeTableWord 32 8 = some .clear ∧ decodeTableWord 32 0x101 = none ∧
      decodeTableWord 32 0 = none := by decide

/-- The word placed by `withFetchWord` runs in the first step after reset. -/
theorem test_fetch_word_runs :
    (landed (step (State.reset.withFetchWord 32 8))).map (fun t => (t.cmd, t.busy, t.done, t.err)) =
      some (8, false, true, 0) := by decide +kernel

/-! ### WellFormed refuses the ill-formed -/

theorem test_wf_word :
    wordLegal 0 = false ∧ wordLegal 9 = false ∧ wordLegal 0x101 = false ∧ wordLegal 1 = true ∧ wordLegal 8 = true := by
  decide

theorem test_wf_platform :
    Platform.wf { Platform.vectors with memSize := 0 } = false ∧
      Platform.wf { Platform.vectors with memSize := 2 ^ 32 + 1 } = false ∧
      Platform.wf { Platform.vectors with memSize := 2 ^ 32 } = true := by decide

theorem test_wf_register_access :
    Platform.vectors.registerAccessWf .byte 0 = false ∧ Platform.vectors.registerAccessWf .half 0 = false ∧
      Platform.vectors.registerAccessWf .double 0 = false ∧ Platform.vectors.registerAccessWf .word 2 = false ∧
      Platform.vectors.registerAccessWf .word 0x5000 = false ∧ Platform.vectors.registerAccessWf .word 0x4FFC = true ∧
      Platform.registerAccessWf { Platform.vectors with regBase := 0x100 } .word 0xFC = false := by decide

theorem test_wf_host :
    HostOp.wf Platform.vectors (.regRead .half 0) = false ∧ HostOp.wf Platform.vectors (.regWrite .word 6 0) = false ∧
      HostOp.wf Platform.vectors (.memRead 0x10000) = false ∧ HostOp.wf Platform.vectors (.memWrite 0x10000 1) = false ∧
      HostOp.wf Platform.vectors (.memRead 0xFFFF) = true ∧
      hostProgramWf Platform.vectors [.wait, .regWrite .byte 4 1] = false := by decide

/-! ### One step of each command (95_test_vectors.md, the vector named) -/

/-- C-1. -/
theorem test_count :
    let t := after .count (issued idle .count 0x100 4)
    t.SucceededWith 0 0 ∧ t.table.total = 4 ∧ t.table.nsym = 3 ∧ Table.look t.table.freq 0x41 = 2 ∧
      Table.look t.table.freq 0x43 = 1 ∧ Table.look t.table.freq 0x44 = 0 ∧ t.status = 0x002 := by
  unfold State.SucceededWith
  decide +kernel

/-- C-9. -/
theorem test_count_past_memory :
    let t := after .count (issued sample .count 0xFFFF 2)
    t.FailedWith 5 1 0 ∧ t.table.nsym = 3 ∧ t.status = 0x352 := by
  unfold State.FailedWith
  decide +kernel

/-- B-1: the tie of A (weight 2) with node 3 goes to A, which becomes the left child. -/
theorem test_build :
    let t := after .build (issued (after .count (issued idle .count 0x100 4)) .build 0 0)
    t.tree.nodeA 0 = 0xC0000041 ∧ t.tree.nodeW 0 = 2 ∧ t.tree.nodeA 3 = 0x80040100 ∧ t.tree.nodeW 3 = 2 ∧
      t.tree.nodeA 4 = 0x80060000 ∧ t.tree.nodeW 4 = 4 ∧ t.tree.nnodes = 5 ∧ t.tree.root = 4 ∧ t.status = 0x102 := by
  decide +kernel

/-- B-3. -/
theorem test_build_empty :
    let t := after .build (issued idle .build 0 0)
    t.tree.nnodes = 0 ∧ t.tree.root = 0 ∧ t.tree.nodeA 0 = 0 ∧ t.status = 0x002 := by decide +kernel

/-- G-1. -/
theorem test_generate :
    let t := after .generate { sample with book := CodeBook.empty }
    t.book.code 0x41 = [false] ∧ t.book.code 0x42 = [true, false] ∧ t.book.codeBits 0x43 0 = 3 ∧
      Table.look t.book.len 0x43 = 2 ∧ Table.look t.book.len 0x44 = 0 ∧ t.status = 0x302 := by decide +kernel

/-- S-1. -/
theorem test_setup :
    let t := after .setup (issued idle .setup 0x300 4)
    t.table.total = 4 ∧ t.tree.nodeA 0 = 0xC0000041 ∧ t.tree.nodeW 0 = 4 ∧ t.tree.nnodes = 1 ∧ t.tree.root = 0 ∧
      t.book.code 0x41 = [false] ∧ t.status = 0x302 := by decide +kernel

/-- E-1. -/
theorem test_encode :
    let t := after .encode (issued sample .encode 0x100 4 0x200 1)
    t.SucceededWith 6 1 ∧ t.mem.read 0x200 = 0x2C := by
  unfold State.SucceededWith
  decide +kernel

/-- E-14: the ranges [0x100, 0x104) and [0x103, 0x104) overlap. -/
theorem test_encode_overlap :
    (after .encode (issued sample .encode 0x100 4 0x103 1)).FailedWith 5 5 0 := by
  unfold State.FailedWith
  decide +kernel

/-- L-1. -/
theorem test_bitlen : (after .bitlen (issued sample .bitlen 0x100 4)).SucceededWith 6 0 := by
  unfold State.SucceededWith
  decide +kernel

/-- R301: byte 0x00 at index 4 is the first with no code. -/
theorem test_bitlen_unknown : (after .bitlen (issued sample .bitlen 0x100 6)).FailedWith 1 4 0 := by
  unfold State.FailedWith
  decide +kernel

/-- D-13: the padding bits "11" are ignored. -/
theorem test_decode :
    let t := after .decode (issued sample .decode 0x200 1 0x400 4 6)
    t.SucceededWith 6 4 ∧ t.mem.readBytes 0x400 5 = [0x41, 0x41, 0x42, 0x43, 0x00] := by
  unfold State.SucceededWith
  decide +kernel

/-- R302: "00101" ends inside the codeword that began at bit 4. -/
theorem test_decode_truncated : (after .decode (issued sample .decode 0x200 1 0x400 4 5)).FailedWith 2 4 0 := by
  unfold State.FailedWith
  decide +kernel

/-- K-3. -/
theorem test_clear :
    let t := after .clear (issued { sample with overrun := true } .clear 0 0)
    t.table.total = 0 ∧ t.table.nsym = 0 ∧ t.tree.nnodes = 0 ∧ t.book.present = false ∧ t.status = 0x006 := by
  decide +kernel

/-- I-5. -/
theorem test_illegal_word :
    let t := (landed (step { issued sample .clear 0 0 with cmd := 0x80000004, latch := Latch.mk 0x80000004 0 0 0 0 0 })).getD idle
    t.FailedWith 4 0x80000004 0 ∧ t.cmd = 0x80000004 ∧ t.table.nsym = 3 ∧ t.status = 0x342 := by
  unfold State.FailedWith
  decide +kernel

/-! ### A witness for every statement with hypotheses: a state and operands that meet all of them together -/

theorem witness_DecoderAcceptsExactlyLegalWords : Instr.clear.wf = true ∧ decode 8 = .ok .clear := by decide

theorem witness_RegisterMapHasOnePlacePerRegister :
    regAt (Reg.freq 0).offset = .freq 0 ∧ regAt (Reg.codeBits 255 7).offset = .codeBits 255 7 ∧
      regAt (Reg.nodeW 510).offset = .nodeW 510 ∧ regAt 0x04C = .root ∧ regAt 0x7FC ≠ .reserved ∧
      regAt 0x2FFC ≠ .reserved := by decide +kernel

theorem witness_ReservedOffsetsReadZeroIgnoreWrites :
    ∀ o ∈ [0x050, 0x3FC, 0xC00, 0xFFC, 0x3000, 0x3FFC, 0x4FF8, 0x4FFC], o % 4 = 0 ∧ o < 0x5000 ∧ regAt o = .reserved := by
  decide

/-- R107: RD64 BITCNT reads 0x020 and then 0x024, and its name is hi·2^32 + lo. -/
theorem test_rd64 :
    rd64 Platform.vectors .bitcnt = [.regRead .word 0x020, .regRead .word 0x024] ∧
      State.named64 { idle with reads := [.reg 0x020 6, .reg 0x024 1] } .bitcnt = some 0x100000006 ∧
      State.named64 { idle with reads := [.reg 0x020 6, .reg 0x024 1] } .resBits = none := by decide +kernel

/-- ENCODE issued on sample "AABC", its step not taken. -/
def encoding : State := issued sample .encode 0x100 4 0x200 1

/-- DECODE of "001011" (byte 0x2F) issued on sample "AABC". -/
def decoding : State := issued sample .decode 0x200 1 0x400 4 6

/-- `s` on a platform with one device range. -/
def withDevice (s : State) (a n : Nat) : State := { s with platform := { s.platform with devices := [(a, n)] } }

theorem witness_StepRunsTheLatchedCommand :
    encoding.busy = true ∧ decode encoding.latch.cmd = .ok .encode ∧ encoding.turns = [] ∧
      State.turns { encoding with turns := [.engine] } = .engine :: [] := by decide +kernel

/-- Word 0 issued after reset. -/
theorem witness_IllegalWordCompletesWithItsError :
    (idle.issue 0).busy = true ∧ wordLegal (idle.issue 0).latch.cmd = false := by
  decide +kernel

theorem witness_EngineStepEndsInCompletion :
    encoding.busy = true ∧ encoding.engineMove = .next (after .encode encoding) :=
  ⟨by decide +kernel, (show encoding.engineMove = exec .encode encoding by
    unfold State.engineMove
    rw [if_pos (show encoding.busy = true by decide +kernel),
      show decode encoding.latch.cmd = .ok .encode by decide +kernel]).trans (exec_after (by decide +kernel))⟩

theorem witness_EveryCommandCompletes : encoding.platform.coherent = true ∧ encoding.platform.devices = [] := by
  decide +kernel

theorem witness_FairRunCompletesTheCommand :
    let s : State := { encoding with turns := List.replicate 2 .host }
    s.platform.coherent = true ∧ s.platform.devices = [] ∧ s.busy = true ∧ s.host = [] ∧
      s.turns = List.replicate 2 .host := by decide +kernel

theorem witness_IdleMachineKeepsEveryElement : sample.busy = false ∧ sample.host = [] ∧ sample.turns = [] := by
  decide +kernel

/-- R82 (c) on a device byte: the race is what is reported. -/
theorem test_race_on_device : State.hostOp (withDevice encoding 0x100 1) (.memRead 0x100) = .fault .hostBufferRace :=
  hostAccess_of_live (by decide +kernel) (by decide +kernel)

/-- R82 (d) on a device byte: the host goes on, with a value of which nothing is known. -/
theorem test_host_reads_device :
    (landed (State.hostOp (withDevice encoding 0x300 1) (.memRead 0x300))).map (fun t => (t.reads.length, t.draws)) =
      some (1, 1) := by decide +kernel

/-- Each clause: an issue from idle, and a completion, and a reset while BUSY. -/
theorem witness_BusyChangesOnlyByIssueCompletionReset :
    (landed (step { idle with host := [.regWrite .word 4 8] })).map State.busy = some true ∧
      (landed (step encoding)).map State.busy = some false ∧
      (landed (step { encoding with host := [.assertReset], turns := [.host] })).map (fun t => (t.busy, t.done)) =
        some (false, false) := by decide +kernel

theorem witness_IrqIsDoneAndEnable : idle.busy = false := rfl

theorem witness_IssueLatchesTheArguments : idle.busy = false := rfl

theorem witness_CommandWriteWhileBusyIsDropped : encoding.busy = true := by decide +kernel

theorem witness_ArgumentRegistersHoldWhatIsWritten :
    Reg.bitcntHi ∈ [Reg.srcAddr, .srcLen, .dstAddr, .dstCap, .bitcntLo, .bitcntHi] := by decide

theorem witness_ReadOnlyRegistersIgnoreWrites :
    Reg.nodeW 510 ∉ [Reg.cmd, .status, .ctrl, .srcAddr, .srcLen, .dstAddr, .dstCap, .bitcntLo, .bitcntHi, .reserved] := by
  decide

theorem witness_RegisterReadsHaveNoSideEffect : Reg.status ≠ .reserved ∧ idle.busy = false := by decide +kernel

theorem witness_WaitRepeatsWhileBusy : sample.busy = false ∧ encoding.busy = true := by decide +kernel

theorem witness_DefinedRegistersReadAtEveryTime : sample.busy = false := by decide +kernel

/-- Slot 0 is a leaf, slot 4 the last valid one, slot 5 the first invalid one. -/
theorem witness_NodeWindowShowsTheArena :
    sample.busy = false ∧ sample.tree.nnodes.toNat = 5 ∧ Arena.slot sample.tree.node 0 = .leaf 0x41 2 ∧
      Arena.slot sample.tree.node 4 = .internal 0 3 4 := by decide +kernel

theorem witness_CodeWindowsShowTheCodebook :
    sample.busy = false ∧ 1 < (Table.look sample.book.len 0x43).toNat := by decide +kernel

/-- The first and the last byte ENCODE reads, the byte it writes when it succeeds, and the byte DECODE reads. -/
theorem witness_TouchingALiveBufferIsARace :
    encoding.busy = true ∧ decode encoding.latch.cmd = .ok .encode ∧ encoding.src = 0x100 ∧ encoding.srcCount = 4 ∧
      0x103 < encoding.platform.memSize ∧ encoding.writeRange .encode = (0x200, 1) ∧
      exec .encode encoding = .next (after .encode encoding) ∧ (after .encode encoding).err = 0 ∧
      decoding.busy = true ∧ decode decoding.latch.cmd = .ok .decode ∧ decoding.src = 0x200 ∧
      bytesFor decoding.bitCount = 1 :=
  ⟨by decide +kernel, by decide +kernel, by decide +kernel, by decide +kernel, by decide +kernel, by decide +kernel,
    exec_after (by decide +kernel), by decide +kernel, by decide +kernel, by decide +kernel, by decide +kernel,
    by decide +kernel⟩

/-- The bytes next to the ranges, the last byte of memory, and a device byte. -/
theorem witness_OtherHostMemoryAccessGoesOn :
    Memory.wf encoding.mem ∧ (∀ a ∈ [0xFF, 0x104, 0x1FF, 0x201, 0xFFFF],
      a < encoding.platform.memSize ∧ encoding.platform.usable a 1 = true ∧ encoding.live a = false) ∧
      (withDevice encoding 0x300 4).platform.usable 0x300 1 = false ∧
      (withDevice encoding 0x300 4).live 0x300 = false := by decide +kernel

theorem witness_MemoryReturnsTheLastByteWritten : Memory.wf idle.mem ∧ Memory.wf (idle.mem.write 0x100 0) := by
  decide +kernel

theorem witness_HardResetFromEveryState : sample.busy = false := by decide +kernel

/-- ENCODE abandoned, and an illegal word abandoned. -/
theorem witness_ResetUnspecifiesOnlyTheAbandonedRange :
    Memory.wf encoding.mem ∧ encoding.busy = true ∧ decode encoding.latch.cmd = .ok .encode ∧
      encoding.writeRange .encode = (0x200, 1) ∧ Memory.wf (idle.issue 0).mem ∧
      decode (idle.issue 0).latch.cmd = .error .opcodeZero := by decide +kernel

theorem witness_ResetStateMeetsTheInvariant :
    Platform.vectors.wf = true ∧ Memory.wf idle.mem ∧ ∀ c ∈ idle.mem, c.1 < Platform.vectors.memSize := by
  decide +kernel

/-- A source in range, at its start and at the end of memory. -/
theorem witness_CountReplacesTheTable :
    inRange 0x10000 (issued idle .count 0x100 4).src (issued idle .count 0x100 4).srcCount = true ∧
      inRange 0x10000 (issued idle .count 0xFFFF 1).src (issued idle .count 0xFFFF 1).srcCount = true ∧
      (issued idle .count 0x100 4).platform.usable 0x100 4 = true := by decide +kernel

/-- The clause over a built tree. -/
theorem witness_GenerateFillsTheCodebook :
    sample.tree = buildTree sample.table.freq ∧ (0x43, [true, true]) ∈ sample.tree.codes ∧
      Table.look sample.table.freq 0x44 = 0 :=
  ⟨sample_tree, by decide +kernel, by decide +kernel⟩

theorem witness_SetupIsCountBuildGenerate :
    let s := issued idle .setup 0x100 4
    inRange s.platform.memSize s.src s.srcCount = true ∧ s.platform.usable s.src s.srcCount = true := by decide +kernel

theorem witness_EncodePacksTheCodes :
    Memory.wf encoding.mem ∧ inRange encoding.platform.memSize encoding.src encoding.srcCount = true ∧
      encoding.platform.usable encoding.src encoding.srcCount = true ∧
      (∀ c ∈ encoding.sourceData, Table.look encoding.book.len c ≠ 0) ∧
      bytesFor (encoding.book.bitLength encoding.sourceData) ≤ encoding.capacity ∧
      inRange encoding.platform.memSize encoding.dst (bytesFor (encoding.book.bitLength encoding.sourceData)) = true ∧
      overlap encoding.src encoding.srcCount encoding.dst
        (bytesFor (encoding.book.bitLength encoding.sourceData)) = false ∧
      encoding.platform.usable encoding.dst (bytesFor (encoding.book.bitLength encoding.sourceData)) = true ∧
      encoding.book.bitLength encoding.sourceData = 6 := by decide +kernel

theorem witness_BitlenSumsTheCodeLengths :
    let s := issued sample .bitlen 0x100 4
    inRange s.platform.memSize s.src s.srcCount = true ∧ s.platform.usable s.src s.srcCount = true ∧
      ∀ c ∈ s.sourceData, Table.look s.book.len c ≠ 0 := by decide +kernel

/-- The byte at index 4 has no code, and the four before it have one. -/
theorem witness_UnknownSymbolAtTheLowestIndex :
    let s := issued sample .encode 0x100 6
    inRange s.platform.memSize s.src s.srcCount = true ∧ s.platform.usable s.src s.srcCount = true ∧
      s.sourceData[4]? = some 0 ∧ Table.look s.book.len 0 = 0 ∧
      ∀ j < 4, Table.look s.book.len (s.sourceData.getD j 0) ≠ 0 := by decide +kernel

theorem witness_DecodeWritesTheSymbolsOfTheCodewords :
    let cs : List (Byte × List Bool) := [(0x41, [false]), (0x41, [false]), (0x42, [true, false]), (0x43, [true, true])]
    Memory.wf decoding.mem ∧ decoding.tree = buildTree decoding.table.freq ∧
      2 ≤ (presentSymbols decoding.table.freq).length ∧ (∀ c ∈ cs, c ∈ decoding.tree.codes) ∧
      decoding.mem.payloadBits decoding.src decoding.bitCount = cs.flatMap Prod.snd ∧
      inRange decoding.platform.memSize decoding.src decoding.srcCount = true ∧
      decoding.bitCount ≤ 8 * decoding.srcCount ∧
      decoding.platform.usable decoding.src (bytesFor decoding.bitCount) = true ∧ cs.length ≤ decoding.capacity ∧
      inRange decoding.platform.memSize decoding.dst cs.length = true ∧
      overlap decoding.src (bytesFor decoding.bitCount) decoding.dst cs.length = false ∧
      decoding.platform.usable decoding.dst cs.length = true :=
  ⟨by decide +kernel, sample_tree, by decide +kernel⟩

/-- Sample "AAAA", and DECODE of the three bits "001". -/
theorem witness_SingleLeafDecodeEmitsPerBit :
    let s := issued (after .setup (issued idle .setup 0x300 4)) .decode 0x200 1 0x400 8 3
    Memory.wf s.mem ∧ s.tree.nnodes = 1 ∧ Arena.slot s.tree.node 0 = .leaf 0x41 4 ∧
      inRange s.platform.memSize s.src s.srcCount = true ∧ s.bitCount ≤ 8 * s.srcCount ∧
      s.platform.usable s.src (bytesFor s.bitCount) = true ∧ s.bitCount ≤ s.capacity ∧
      inRange s.platform.memSize s.dst s.bitCount = true ∧
      overlap s.src (bytesFor s.bitCount) s.dst s.bitCount = false ∧ s.platform.usable s.dst s.bitCount = true := by
  decide +kernel

/-- A payload of whole codewords, and one cut after five bits. -/
theorem witness_PayloadIsCodewordsOrTruncated :
    decoding.tree = buildTree decoding.table.freq ∧ 2 ≤ (presentSymbols decoding.table.freq).length ∧
      inRange decoding.platform.memSize decoding.src decoding.srcCount = true ∧
      decoding.bitCount ≤ 8 * decoding.srcCount ∧
      decoding.platform.usable decoding.src (bytesFor decoding.bitCount) = true ∧
      decoding.mem.payloadBits 0x200 5 = [false, false, true, false] ++ [true] ∧
      (0x43, [true, true]) ∈ decoding.tree.codes :=
  ⟨sample_tree, by decide +kernel⟩

theorem witness_DecodeWithAbsentTree :
    let s := issued idle .decode 0x200 1 0 0 1
    let u := issued idle .decode 0x200 1
    inRange s.platform.memSize s.src s.srcCount = true ∧ s.bitCount ≤ 8 * s.srcCount ∧ s.tree.nnodes = 0 ∧
      s.bitCount ≠ 0 ∧ inRange u.platform.memSize u.src u.srcCount = true ∧ u.bitCount = 0 := by decide +kernel

theorem witness_EmptyInputIsNotAnError :
    let s := issued sample .encode 0xFFFFFFFF 0
    s.srcCount = 0 ∧ s.bitCount = 0 ∧ inRange s.platform.memSize s.src s.srcCount = true := by decide +kernel

theorem witness_StaleCodebookIsReported :
    let s := issued sample .count 0x100 4
    let le := latched .decode 0x100 4 0 0 1
    exec .count s = .next (after .count s) ∧ (after .count s).err = 0 ∧
      exec .build s = .next (after .build s) ∧ (after .build s).err = 0 ∧
      inRange s.platform.memSize le.srcAddr.toNat le.srcLen.toNat = true ∧
      s.platform.usable le.srcAddr.toNat le.srcLen.toNat = true ∧ le.srcLen ≠ 0 ∧ le.bitcnt ≠ 0 ∧
      le.bitcnt.toNat ≤ 8 * le.srcLen.toNat :=
  ⟨exec_after (by decide +kernel), by decide +kernel, exec_after (by decide +kernel), by decide +kernel,
    by decide +kernel, by decide +kernel, by decide, by decide, by decide⟩

theorem witness_SourceOutOfRangeIsRangeErrorOne :
    Instr.decode ∈ [Instr.count, .setup, .encode, .bitlen, .decode] ∧
      inRange 0x10000 (issued sample .decode 0xFFFF 2).src (issued sample .decode 0xFFFF 2).srcCount = false := by
  decide +kernel

/-- One state for each clause: capacity 0, a destination past memory, a destination inside the source. -/
theorem witness_EncodeDestinationErrorsInOrder :
    let s := issued sample .encode 0x100 4 0x10000 0
    let u := issued sample .encode 0x100 4 0x10000 1
    let v := issued sample .encode 0x100 4 0x103 1
    inRange s.platform.memSize s.src s.srcCount = true ∧ s.platform.usable s.src s.srcCount = true ∧
      (∀ c ∈ s.sourceData, Table.look s.book.len c ≠ 0) ∧ bytesFor (s.book.bitLength s.sourceData) = 1 ∧
      s.capacity < 1 ∧ 1 ≤ u.capacity ∧ inRange u.platform.memSize u.dst 1 = false ∧
      1 ≤ v.capacity ∧ inRange v.platform.memSize v.dst 1 = true ∧ overlap v.src v.srcCount v.dst 1 = true := by
  decide +kernel

/-- One state for each clause: nine bits in one byte; then four symbols into three bytes, past memory, over the byte
read. -/
theorem witness_DecodeRangeErrorsInOrder :
    let s := issued sample .decode 0x200 1 0x400 4 9
    let u := issued sample .decode 0x200 1 0xFFFD 3 6
    let v := issued sample .decode 0x200 1 0xFFFD 4 6
    let x := issued sample .decode 0x200 1 0x1FD 4 6
    inRange s.platform.memSize s.src s.srcCount = true ∧ 8 * s.srcCount < s.bitCount ∧ u.bitCount ≤ 8 * u.srcCount ∧
      u.decodeStream.toOption = some [0x41, 0x41, 0x42, 0x43] ∧ u.capacity < 4 ∧ 4 ≤ v.capacity ∧
      inRange v.platform.memSize v.dst 4 = false ∧ 4 ≤ x.capacity ∧ inRange x.platform.memSize x.dst 4 = true ∧
      overlap x.src (bytesFor x.bitCount) x.dst 4 = true := by decide +kernel

/-- A state for each clause: a device under the source of ENCODE, of DECODE, and under the destination of each. -/
theorem witness_BufferOutsideTheContractIsRefused :
    let s := withDevice encoding 0x103 1
    let u := withDevice decoding 0x200 1
    let v := withDevice encoding 0x200 1
    let x := withDevice decoding 0x403 1
    inRange s.platform.memSize s.src s.srcCount = true ∧ s.platform.usable s.src s.srcCount = false ∧
      inRange u.platform.memSize u.src u.srcCount = true ∧ u.bitCount ≤ 8 * u.srcCount ∧ u.bitCount ≠ 0 ∧
      u.tree.nnodes ≠ 0 ∧ u.platform.usable u.src (bytesFor u.bitCount) = false ∧
      inRange v.platform.memSize v.src v.srcCount = true ∧ v.platform.usable v.src v.srcCount = true ∧
      (∀ c ∈ v.sourceData, Table.look v.book.len c ≠ 0) ∧ bytesFor (v.book.bitLength v.sourceData) = 1 ∧
      1 ≤ v.capacity ∧ inRange v.platform.memSize v.dst 1 = true ∧ overlap v.src v.srcCount v.dst 1 = false ∧
      v.platform.usable v.dst 1 = false ∧ inRange x.platform.memSize x.src x.srcCount = true ∧
      x.bitCount ≤ 8 * x.srcCount ∧ x.decodeStream.toOption = some [0x41, 0x41, 0x42, 0x43] ∧ 4 ≤ x.capacity ∧
      inRange x.platform.memSize x.dst 4 = true ∧ overlap x.src (bytesFor x.bitCount) x.dst 4 = false ∧
      x.platform.usable x.dst 4 = false := by decide +kernel

theorem witness_ErrorCompletionLeavesTheStateAtIssue :
    let s := issued sample .count 0xFFFF 2
    exec .count s = .next (after .count s) ∧ (after .count s).err ≠ 0 :=
  ⟨exec_after (by decide +kernel), by decide +kernel⟩

theorem witness_CommandsWriteOnlyTheirOwnState : exec .encode encoding = .next (after .encode encoding) :=
  exec_after (by decide +kernel)

theorem witness_CommandsWriteOnlyTheirWriteRange :
    Memory.wf encoding.mem ∧ exec .encode encoding = .next (after .encode encoding) ∧
      exec .bitlen encoding = .next (after .bitlen encoding) :=
  ⟨by decide +kernel, exec_after (by decide +kernel), exec_after (by decide +kernel)⟩

/-- The live argument registers and a byte outside the source differ; the operands agree. -/
theorem witness_CommandResultDependsOnlyOnItsOperands :
    let u : State := { encoding with srcLen := 9, mem := encoding.mem.write 0x500 7 }
    Memory.wf encoding.mem ∧ Memory.wf u.mem ∧ AgreeOnOperands .encode encoding u ∧ encoding ≠ u ∧
      exec .encode encoding = .next (after .encode encoding) ∧ (after .encode encoding).err = 0 :=
  ⟨by decide +kernel, by decide +kernel, ⟨rfl, rfl, rfl, rfl, rfl, by decide +kernel, rfl⟩,
    fun h => absurd (congrArg State.srcLen h) (by decide +kernel), exec_after (by decide +kernel), by decide +kernel⟩

/-- The state after reset meets the invariant and steps. -/
theorem witness_StepKeepsTheInvariant :
    State.reset.Inv ∧ step State.reset = .next State.reset :=
  ⟨{ platform := rfl
     memory := ⟨⟨List.Pairwise.nil, fun _ h => absurd h List.not_mem_nil⟩, fun _ h => absurd h List.not_mem_nil⟩
     table := FreqTable.empty_consistent
     tree := ⟨.inl rfl, .inl rfl⟩
     status := ⟨by decide, fun h => absurd h (by decide)⟩ }, rfl⟩

theorem witness_BuiltTreeIsTheCodeTree : sample.table.Consistent ∧ sample.table.nsym ≠ 0 := by
  unfold FreqTable.Consistent
  decide +kernel

theorem witness_CodesArePrefixFreeAndComplete :
    Table.look sample.table.freq 0x41 ≠ 0 ∧ Table.look sample.table.freq 0x42 ≠ 0 ∧ (0x41 : Byte) ≠ 0x42 := by
  decide +kernel

/-- SETUP on "AABC", ENCODE to 0x500, DECODE of its payload to 0x600. -/
theorem witness_DecodeOfEncodeIsTheInput :
    let s := issued idle .setup 0x100 4
    let le := latched .encode 0x100 4 0x500 1 0
    let u := after .encode { sample with latch := le }
    let ld := latched .decode 0x500 1 0x600 4 6
    Memory.wf s.mem ∧ inRange s.platform.memSize s.src s.srcCount = true ∧
      s.platform.usable s.src s.srcCount = true ∧ le.srcAddr = s.latch.srcAddr ∧ le.srcLen = s.latch.srcLen ∧
      bytesFor (sample.book.bitLength s.sourceData) = 1 ∧ 1 ≤ le.dstCap.toNat ∧
      inRange s.platform.memSize le.dstAddr.toNat 1 = true ∧ overlap s.src s.srcCount le.dstAddr.toNat 1 = false ∧
      s.platform.usable le.dstAddr.toNat 1 = true ∧ ld.srcAddr = le.dstAddr ∧ ld.bitcnt = u.resBits ∧
      u.resBytes.toNat ≤ ld.srcLen.toNat ∧ inRange s.platform.memSize ld.srcAddr.toNat ld.srcLen.toNat = true ∧
      s.srcCount ≤ ld.dstCap.toNat ∧ inRange s.platform.memSize ld.dstAddr.toNat s.srcCount = true ∧
      overlap ld.srcAddr.toNat u.resBytes.toNat ld.dstAddr.toNat s.srcCount = false ∧
      s.platform.usable ld.dstAddr.toNat s.srcCount = true := by decide +kernel

/-- ENCODE that succeeds, that meets an unknown byte, and that fails at its destination. -/
theorem witness_BitlenAgreesWithEncode :
    let s := issued sample .encode 0x100 6 0x200 8
    let u := issued sample .encode 0x100 4 0x200 0
    exec .encode encoding = .next (after .encode encoding) ∧ (after .encode encoding).err = 0 ∧
      exec .encode s = .next (after .encode s) ∧ (after .encode s).err = 1 ∧
      exec .encode u = .next (after .encode u) ∧ (after .encode u).err = 5 ∧ (after .encode u).errInfo = 3 :=
  ⟨exec_after (by decide +kernel), by decide +kernel, exec_after (by decide +kernel), by decide +kernel,
    exec_after (by decide +kernel), by decide +kernel, by decide +kernel⟩

theorem witness_SampleBitLengthIsTheWeightedSum :
    exec .setup (issued idle .setup 0x100 4) = .next sample ∧ sample.err = 0 :=
  ⟨exec_after (by decide +kernel), by decide +kernel⟩

/-- "AABC" and "CABA". -/
theorem witness_SetupIgnoresTheOrderOfTheSample :
    let s := issued idle .setup 0x100 4
    let u : State := { s with mem := launchMemory [(0x100, [0x43, 0x41, 0x42, 0x41])] }
    s.sourceData.Perm u.sourceData ∧ exec .setup s = .next (after .setup s) ∧ exec .setup u = .next (after .setup u) ∧
      (after .setup s).err = 0 ∧ (after .setup u).err = 0 :=
  ⟨by decide +kernel, exec_after (by decide +kernel), exec_after (by decide +kernel), by decide +kernel,
    by decide +kernel⟩

/-- The entry ties with a queued one of a lesser index. -/
theorem witness_QueueYieldsLeastWeightThenLeastIndex :
    ([(1, 0), (2, 1), (3, 2)] : List QueueEntry).Pairwise
        (fun x y => x.1.toNat < y.1.toNat ∨ x.1 = y.1 ∧ x.2.toNat < y.2.toNat) ∧
      (∀ x ∈ ([(1, 0), (2, 1), (3, 2)] : List QueueEntry), (3 : NodeIndex) ≠ x.2) ∧
      queueInsert (2, 3) [(1, 0), (2, 1), (3, 2)] = [(1, 0), (2, 1), (2, 3), (3, 2)] :=
  ⟨by decide +kernel, by simp, by decide +kernel⟩

end Sys2Proof.Tests
end

section
/-! The invariant `State.Inv` is kept by every step (O52): first by what each operation of the engine and of the host does
to the state, then by the step, from `step_next`. -/

namespace Sys2Proof.Machine

/-! ### What the invariant reads, and the states that set it up -/

/-- The invariant reads nothing of the run's record: the moves left, the order of turns, the reads and the draws. -/
theorem State.Inv.withRun {s : State} (h : s.Inv) (ops : List HostOp) (ts : List Agent) (rs : List Observation) (k : Nat) :
    State.Inv { s with host := ops, turns := ts, reads := rs, draws := k } :=
  ⟨h.platform, h.memory, h.table, h.tree, h.status⟩

/-- A success completion sets ERR = 0 and BUSY = 0 (R137), so only the structures and memory are left to check. -/
theorem inv_succeed {s : State} (n m : Nat) (hp : s.platform.wf = true) (hm : s.MemoryInv) (ht : s.table.Consistent)
    (hr : s.TreeInv) : (s.succeed n m).Inv :=
  ⟨hp, hm, ht, hr, Nat.zero_le 5, fun hb => absurd hb Bool.false_ne_true⟩

/-- An error completion sets ERR to a code of R300 and BUSY = 0 (R138). -/
theorem State.Inv.raise {s : State} (h : s.Inv) (e : CmdError) : (s.raise e).Inv :=
  ⟨h.platform, h.memory, h.table, h.tree, e.code_bounds.2, fun hb => absurd hb Bool.false_ne_true⟩

/-- The reset state of a platform with a launch memory inside it (R340, R47). -/
theorem inv_resetOn {p : Platform} {m : Memory} (hp : p.wf = true) (hm : Memory.wf m) (ha : ∀ c ∈ m, c.1 < p.memSize) :
    (State.resetOn p m).Inv :=
  ⟨hp, ⟨hm, ha⟩, FreqTable.empty_consistent, ⟨.inl rfl, .inl rfl⟩, Nat.zero_le 5,
    fun hb => absurd hb Bool.false_ne_true⟩

/-! ### The engine -/

/-- SRC_LEN is a 32-bit register, so the table counted from the source buffer satisfies R35 (R162). -/
theorem ofBytes_sourceData_consistent (s : State) : (FreqTable.ofBytes s.sourceData).Consistent :=
  FreqTable.ofBytes_consistent (by simpa [State.sourceData, State.srcCount] using s.latch.srcLen.isLt)

/-- R46 of the codebook GENERATE leaves: from an absent tree it is the empty one. -/
theorem generateBook_empty_or_present (t : CodeTree) :
    generateBook t = CodeBook.empty ∨ generateBook t = generateBook t ∧ t.nnodes ≠ 0 := by
  by_cases h : t.nnodes = 0
  · exact .inl (generateBook_of_absent h)
  · exact .inr ⟨rfl, h⟩

/-- Only ENCODE and DECODE write memory, and the range check of the destination (R76) keeps them inside it. -/
theorem plan_ok_memoryInv {i : Instr} {s : State} {d : Done} (h : s.MemoryInv) (hd : commandPlan i s = .ok d) :
    d.state.MemoryInv := by
  have unwritten (he : i ≠ .encode) (hdec : i ≠ .decode) : d.state.MemoryInv := by
    rw [plan_ok_frame hd, plan_ok_mem hd he hdec]
    exact h
  cases i with
  | encode =>
    obtain ⟨-, -, -, ⟨-, hr, -, -⟩, rfl⟩ := plan_encode_ok.1 hd
    exact memInv_writeBytes h (by simpa using inRange_iff.1 hr)
  | decode =>
    obtain ⟨out, hout, rfl⟩ := plan_decode_ok.1 hd
    obtain ⟨-, -, -, -, hr, -, -⟩ := decodePlan_eq_ok.1 hout
    exact memInv_writeBytes h (inRange_iff.1 hr)
  | _ => exact unwritten (by decide) (by decide)

/-- The table stays as it was, is emptied, or is counted from the source; and a command that replaces the table or the
tree replaces what is derived from it too (R46). -/
theorem plan_ok_structures {i : Instr} {s : State} {d : Done} (ht : s.table.Consistent) (hr : s.TreeInv)
    (hd : commandPlan i s = .ok d) : d.state.table.Consistent ∧ d.state.TreeInv := by
  cases i with
  | count =>
    obtain ⟨-, -, rfl⟩ := plan_count_ok.1 hd
    exact ⟨ofBytes_sourceData_consistent s, .inl rfl, .inl rfl⟩
  | build => obtain rfl := Except.ok.inj hd; exact ⟨ht, .inr rfl, .inl rfl⟩
  | generate => obtain rfl := Except.ok.inj hd; exact ⟨ht, hr.1, generateBook_empty_or_present _⟩
  | setup =>
    obtain ⟨-, -, rfl⟩ := plan_setup_ok.1 hd
    exact ⟨ofBytes_sourceData_consistent s, .inr rfl, generateBook_empty_or_present _⟩
  | encode => obtain ⟨-, -, -, -, rfl⟩ := plan_encode_ok.1 hd; exact ⟨ht, hr⟩
  | bitlen => obtain ⟨-, -, -, rfl⟩ := plan_bitlen_ok.1 hd; exact ⟨ht, hr⟩
  | decode => obtain ⟨_, -, rfl⟩ := plan_decode_ok.1 hd; exact ⟨ht, hr⟩
  | clear => obtain rfl := Except.ok.inj hd; exact ⟨FreqTable.empty_consistent, .inl rfl, .inl rfl⟩

/-- Every command keeps the invariant. -/
theorem State.Inv.exec {i : Instr} {s t : State} (h : s.Inv) (he : exec i s = .next t) : t.Inv := by
  rcases exec_next he with ⟨d, hd, rfl⟩ | ⟨e, -, rfl⟩
  · have hp : d.state.platform = s.platform := by rw [plan_ok_frame hd]
    obtain ⟨ht, hr⟩ := plan_ok_structures h.table h.tree hd
    exact inv_succeed _ _ (hp ▸ h.platform) (plan_ok_memoryInv h.memory hd) ht hr
  · exact h.raise e

theorem State.Inv.engineMove {s t : State} (h : s.Inv) (hb : s.busy = true) (ht : s.engineMove = .next t) : t.Inv := by
  rcases engineMove_next hb ht with ⟨i, -, hi⟩ | ⟨-, rfl⟩
  · exact h.exec hi
  · exact h.raise _

/-! ### The host -/

/-- Issue latches the word it puts in CMD and clears DONE and ERR (R132); while BUSY = 1 the word is dropped (R133). -/
theorem State.Inv.writeCommand {s : State} (h : s.Inv) (w : Word) : (s.writeCommand w).Inv := by
  unfold State.writeCommand
  split
  · exact ⟨h.platform, h.memory, h.table, h.tree, h.status⟩
  · exact ⟨h.platform, h.memory, h.table, h.tree, Nat.zero_le 5, fun _ => ⟨rfl, rfl, rfl⟩⟩

/-- Of the registers a host can write, CMD and STATUS alone hold what the invariant speaks of. -/
theorem State.Inv.writeReg {s : State} (h : s.Inv) (r : Reg) (v : Word) : (s.writeReg r v).Inv := by
  cases r with
  | cmd => exact h.writeCommand v
  | status =>
    obtain ⟨herr, hbusy⟩ := h.status
    refine ⟨h.platform, h.memory, h.table, h.tree, herr, fun hb => ?_⟩
    obtain ⟨hdone, hrest⟩ := hbusy hb
    exact ⟨by simp [State.writeReg, hdone], hrest⟩
  | _ => exact ⟨h.platform, h.memory, h.table, h.tree, h.status⟩

theorem State.Inv.countDraw {s : State} (h : s.Inv) (r : Reg) : (s.countDraw r).Inv := by
  unfold State.countDraw
  split
  · exact h.withRun s.host s.turns s.reads (s.draws + 1)
  · exact h

theorem State.Inv.hostWait {s : State} (h : s.Inv) : s.hostWait.Inv := by
  unfold State.hostWait
  split
  · exact (h.countDraw .status).withRun _ _ _ _
  · exact h

/-- A host write goes on only to a byte that exists (R70). -/
theorem State.Inv.storeByte {s : State} (h : s.Inv) {a : Word} (ha : a.toNat < s.platform.memSize) (v : Byte) :
    (s.storeByte a v).Inv :=
  ⟨h.platform, memInv_writeBytes (vs := [v]) h.memory (.inr ha), h.table, h.tree, h.status⟩

/-- Reset rewrites no byte outside the write range it abandons, which lies in data memory (R341). -/
theorem State.Inv.hardReset {s : State} (h : s.Inv) : s.hardReset.Inv := by
  obtain ⟨hwf, hin⟩ := memInv_writeBytes (vs := drawnBytes s.draws s.abandonedRange.2) h.memory
    (by rw [length_drawnBytes]; exact abandonedRange_in_memory s)
  exact (inv_resetOn h.platform hwf hin).withRun s.host s.turns s.reads (s.draws + s.abandonedRange.2)

/-- Every move of the host's that goes on keeps the invariant. -/
theorem HostEffect.inv {s t : State} {op : HostOp} (he : HostEffect s op t) (h : s.Inv) : t.Inv := by
  cases he with
  | read o ha hs => exact (h.countDraw (regAt o)).withRun _ _ _ _
  | write o v ha hs => exact h.writeReg _ v
  | wait => exact h.hostWait
  | load a v k hm hl hv => exact h.withRun s.host s.turns (s.reads ++ [.mem a v]) k
  | store a v w k hm hl hv => exact (h.withRun s.host s.turns s.reads k).storeByte hm w
  | reset => exact h.hardReset

/-! ### The step -/

/-- Settles O52: a step is the engine's completion, a move of the host's, or a turn used up, and each keeps the
invariant. -/
theorem stepKeepsTheInvariant : Obligations.StepKeepsTheInvariant := by
  intro s t h ht
  have moved ops ts : State.Inv { s with turns := ts, host := ops } := h.withRun ops ts s.reads s.draws
  obtain ⟨ts, ⟨hb, he⟩ | ⟨op, ops, -, he⟩ | rfl⟩ := step_next ht
  · exact (moved s.host ts).engineMove hb he
  · exact he.inv (moved ops ts)
  · exact moved s.host ts

end Sys2Proof.Machine
end

section
/-! The register map and the register port: what a host access at an offset does (R24, R44), what a write leaves of the
state (R27, R29 to R31, R131), and what the registers and windows read (R27, R40 to R43, R134). -/

namespace Sys2Proof.Machine

/-! ### The map -/

/-- Settles O3: `regAt` and `Reg.offset` are inverse to each other off the reserved offsets. -/
theorem registerMapHasOnePlacePerRegister : Obligations.RegisterMapHasOnePlacePerRegister :=
  ⟨rfl, fun _ => ⟨rfl, rfl, fun _ => rfl⟩, fun _ => ⟨rfl, rfl⟩,
    fun r _ => ⟨regAt_offset r, r.offset_aligned, r.offset_lt⟩, fun _ ha hs h => offset_regAt ha hs h⟩

/-- The access at an aligned offset of the block, reserved or not, is the port's read there (R130). -/
theorem hostOp_regRead_at (s : State) {o : Nat} (ha : o % 4 = 0) (hs : o < Config.regSpan) :
    State.hostOp s (.regRead .word (s.platform.regBase + o)) = .next (s.hostReadReg o) := by
  simp only [State.hostOp, register_at ha hs]

theorem hostOp_regWrite_at (s : State) {o : Nat} (v : Word) (ha : o % 4 = 0) (hs : o < Config.regSpan) :
    State.hostOp s (.regWrite .word (s.platform.regBase + o) v) = .next (s.writeReg (regAt o) v) := by
  simp only [State.hostOp, register_at ha hs]

/-- A read uses up no draw where the register has no bit that R134 leaves unspecified. -/
theorem countDraw_of_not_drawn {s : State} {r : Reg} (h : r.drawnBits = 0) : s.countDraw r = s := by
  simp [State.countDraw, h]

theorem hostReadReg_reserved {s : State} {o : Nat} (h : regAt o = .reserved) :
    s.hostReadReg o = { s with reads := s.reads ++ [.reg o 0] } := by
  have hd : Reg.reserved.drawnBits = 0 := rfl
  rw [State.hostReadReg, h, countDraw_of_not_drawn hd, readReg_of_not_drawn hd]
  rfl

/-- Settles O4: no bit of a reserved offset is drawn (R23), so it reads its defined value 0 at any BUSY. -/
theorem reservedOffsetsReadZeroIgnoreWrites : Obligations.ReservedOffsetsReadZeroIgnoreWrites := by
  refine ⟨fun o ha hs => ?_, fun s o v ha hs hr => ⟨?_, ?_⟩⟩
  · rw [regAt_eq_reserved ha hs]
    omega
  · rw [hostOp_regRead_at s ha hs, hostReadReg_reserved hr]
  · rw [hostOp_regWrite_at s v ha hs, hr]
    rfl

/-! ### Writes -/

/-- Settles O14: write-1-to-clear is AND with the complement of the bit written. -/
theorem statusWriteClearsDoneAndOverrun : Obligations.StatusWriteClearsDoneAndOverrun := by
  intro s v
  refine (hostOp_regWrite s .status v).trans ?_
  have clear (old one : Bool) : (old && !one) = if one then false else old := by cases one <;> simp
  simp only [State.writeReg, clear]

/-- Settles O15: STATUS and IRQ_LINE carry `State.irq`, and each of the writes takes down one of its two inputs. -/
theorem irqIsDoneAndEnable : Obligations.IrqIsDoneAndEnable := by
  refine ⟨fun _ _ => rfl, fun s => ⟨?_, fun line => ?_, ?_, fun hb w => ?_, fun v => ?_⟩⟩
  · exact getLsbD_statusWord ..
  · simp [State.interruptLine, State.irq]
  · exact ⟨_, hostOp_regWrite s .status 0x2, by simp [State.writeReg, State.irq]⟩
  · exact ⟨_, hostOp_regWrite s .cmd w, by simp [State.writeReg, State.writeCommand, State.irq, hb]⟩
  · refine ⟨_, hostOp_regWrite s .ctrl v, rfl, rfl, ?_⟩
    rw [readReg_of_not_drawn rfl]
    exact ctrlWord_of_bit v

section Argument

variable (s : State) {r : Reg} (v : Word)
  (hr : r ∈ [Reg.srcAddr, .srcLen, .dstAddr, .dstCap, .bitcntLo, .bitcntHi])

include hr

/-- An argument register takes the value written and every other register keeps its own (R29 to R31). -/
theorem regValue_writeReg_argument (q : Reg) : (s.writeReg r v).regValue q = if q = r then v else s.regValue q := by
  simp only [List.mem_cons, List.not_mem_nil, or_false] at hr
  rcases hr with rfl | rfl | rfl | rfl | rfl | rfl <;> cases q <;> rfl

theorem drawnBits_argument : r.drawnBits = 0 := by
  simp only [List.mem_cons, List.not_mem_nil, or_false] at hr
  rcases hr with rfl | rfl | rfl | rfl | rfl | rfl <;> rfl

/-- A write to an argument register changes no element but the argument registers. -/
theorem writeReg_argument_frame : s.writeReg r v =
    { s with srcAddr := (s.writeReg r v).srcAddr, srcLen := (s.writeReg r v).srcLen,
             dstAddr := (s.writeReg r v).dstAddr, dstCap := (s.writeReg r v).dstCap,
             bitcntLo := (s.writeReg r v).bitcntLo, bitcntHi := (s.writeReg r v).bitcntHi } := by
  simp only [List.mem_cons, List.not_mem_nil, or_false] at hr
  rcases hr with rfl | rfl | rfl | rfl | rfl | rfl <;> rfl

end Argument

/-- Settles O16: no bit of an argument register is drawn, so it reads back at any BUSY. -/
theorem argumentRegistersHoldWhatIsWritten : Obligations.ArgumentRegistersHoldWhatIsWritten := by
  intro s r v hr
  refine ⟨_, hostOp_regWrite s r v, ?_, fun q hq => ?_, writeReg_argument_frame s v hr⟩
  · rw [readReg_of_not_drawn (drawnBits_argument hr), regValue_writeReg_argument s v hr, if_pos rfl]
  · rw [regValue_writeReg_argument s v hr, if_neg hq]

/-- The registers a host can write are CMD, STATUS, CTRL and the arguments (R23, R131). -/
theorem writeReg_readOnly (s : State) {r : Reg} (v : Word)
    (hr : r ∉ [Reg.cmd, .status, .ctrl, .srcAddr, .srcLen, .dstAddr, .dstCap, .bitcntLo, .bitcntHi, .reserved]) :
    s.writeReg r v = s := by
  cases r with
  | cmd | status | ctrl | srcAddr | srcLen | dstAddr | dstCap | bitcntLo | bitcntHi => exact absurd (by simp) hr
  | _ => rfl

/-- Settles O17: the write reaches its register by the map, and there does nothing. -/
theorem readOnlyRegistersIgnoreWrites : Obligations.ReadOnlyRegistersIgnoreWrites := by
  intro s r v hr
  rw [hostOp_regWrite, writeReg_readOnly s v hr]

/-! ### Reads -/

/-- Settles O27: BUSY = 0 after reset, so every register reads its own value. -/
theorem resetRegistersReadTheirResetValues : Obligations.ResetRegistersReadTheirResetValues := fun p m =>
  ⟨fun r => (readReg_of_idle rfl).trans (regValue_resetOn p m r), rfl⟩

theorem ctrl_eq (s : State) : s.ctrl = if s.ie then 1 else 0 := by
  unfold State.ctrl
  cases s.ie <;> rfl

/-- TREE_PRESENT and CB_PRESENT are the bits of STATUS that R134 leaves unspecified while BUSY = 1. -/
theorem getLsbD_drawnBits_status {k : Nat} (h8 : k ≠ 8) (h9 : k ≠ 9) : Reg.status.drawnBits.getLsbD k = false := by
  rcases Nat.lt_or_ge k 32 with hk | hk
  · have h : ∀ k < 32, k ≠ 8 → k ≠ 9 → Reg.status.drawnBits.getLsbD k = false := by decide
    exact h k hk h8 h9
  · exact BitVec.getLsbD_of_ge _ _ hk

/-- Every other bit of STATUS reads as R27 defines it at every time (R134). -/
theorem getLsbD_readReg_status (s : State) {k : Nat} (h8 : k ≠ 8) (h9 : k ≠ 9) :
    (s.readReg .status).getLsbD k =
      if k = 0 then s.busy else if k = 1 then s.done else if k = 2 then s.overrun else if k = 3 then false
      else if k < 8 then s.err.getLsbD (k - 4) else if k = 10 then s.irq else false := by
  rw [getLsbD_readReg (getLsbD_drawnBits_status h8 h9)]
  simp only [State.regValue, State.status, State.statusWith, getLsbD_statusWord, h8, h9, if_false]

theorem extractLsb'_err_readReg_status (s : State) : (s.readReg .status).extractLsb' 4 4 = s.err := by
  refine BitVec.eq_of_getLsbD_eq fun i hi => ?_
  rw [BitVec.getLsbD_extractLsb', getLsbD_readReg_status s (by omega) (by omega)]
  simp [hi, show 4 + i ≠ 1 by omega, show 4 + i ≠ 2 by omega, show 4 + i ≠ 3 by omega, show 4 + i < 8 by omega]

theorem extractLsb'_reserved_readReg_status (s : State) : (s.readReg .status).extractLsb' 11 21 = 0 := by
  refine BitVec.eq_of_getLsbD_eq fun i hi => ?_
  rw [BitVec.getLsbD_extractLsb', getLsbD_readReg_status s (by omega) (by omega)]
  simp [show 11 + i ≠ 1 by omega, show 11 + i ≠ 2 by omega, show 11 + i ≠ 3 by omega, show ¬ 11 + i < 8 by omega,
    show 11 + i ≠ 10 by omega]

/-- While BUSY = 0 the two derived bits of STATUS say whether there is a tree and a codebook (R27). -/
theorem presence_readReg_status {s : State} (hb : s.busy = false) :
    ((s.readReg .status).getLsbD 8 = true ↔ s.tree.nnodes ≠ 0) ∧
      ((s.readReg .status).getLsbD 9 = true ↔ ∃ c : Byte, Table.look s.book.len c ≠ 0) := by
  have bits k : (s.readReg .status).getLsbD k = s.status.getLsbD k := by rw [readReg_of_idle hb]; rfl
  rw [bits, bits, State.status, State.statusWith, getLsbD_statusWord, getLsbD_statusWord]
  exact ⟨bne_iff_ne, s.book.present_iff⟩

/-- The `_LO` word of a 64-bit quantity (R32, R33). -/
theorem toNat_low_word (x : DWord) : (x.extractLsb' 0 32).toNat = x.toNat % 2 ^ 32 := by
  rw [BitVec.extractLsb'_toNat, Nat.shiftRight_zero]

/-- The `_HI` word of a 64-bit quantity (R32, R33). -/
theorem toNat_high_word (x : DWord) : (x.extractLsb' 32 32).toNat = x.toNat / 2 ^ 32 := by
  have := x.isLt
  rw [BitVec.extractLsb'_toNat, Nat.shiftRight_eq_div_pow, Nat.mod_eq_of_lt (by omega)]

/-- A register narrower than a word is zero-extended. -/
theorem toNat_readReg_of_setWidth {s : State} {r : Reg} {n : Nat} {x : BitVec n} (hb : s.busy = false)
    (h : s.regValue r = x.setWidth 32) (hn : n ≤ 32) : (s.readReg r).toNat = x.toNat := by
  rw [readReg_of_idle hb, h, BitVec.toNat_setWidth_of_le hn]

/-- Settles O19: at any BUSY the bits that are not drawn, and every bit while BUSY = 0, read as they stand. -/
theorem definedRegistersReadAtEveryTime : Obligations.DefinedRegistersReadAtEveryTime := by
  intro s
  have undrawn {r : Reg} (hr : r.drawnBits = 0) : s.readReg r = s.regValue r := readReg_of_not_drawn hr
  refine ⟨undrawn rfl, undrawn rfl, (undrawn rfl).trans (ctrl_eq s), undrawn rfl, undrawn rfl, undrawn rfl, undrawn rfl,
    undrawn rfl, undrawn rfl, ?_, ?_, ?_, ?_, extractLsb'_err_readReg_status s, ?_,
    extractLsb'_reserved_readReg_status s, fun hb => ?_⟩
  iterate 5 exact getLsbD_readReg_status s (by decide) (by decide)
  have idle (r : Reg) : s.readReg r = s.regValue r := readReg_of_idle hb
  obtain ⟨htree, hbook⟩ := presence_readReg_status hb
  refine ⟨htree, hbook, ?_, ?_, idle _, ?_, ?_, toNat_readReg_of_setWidth hb rfl (by decide), idle _,
    toNat_readReg_of_setWidth hb rfl (by decide), toNat_readReg_of_setWidth hb rfl (by decide),
    toNat_readReg_of_setWidth hb rfl (by decide), fun c => idle _⟩
  · rw [idle]; exact toNat_low_word s.resBits
  · rw [idle]; exact toNat_high_word s.resBits
  · rw [idle]; exact toNat_low_word s.errInfo
  · rw [idle]; exact toNat_high_word s.errInfo

/-! ### Windows -/

/-- A bit string is its high part shifted above its low part. -/
theorem toNat_append_add {m n : Nat} (hi : BitVec m) (lo : BitVec n) :
    (hi ++ lo).toNat = hi.toNat * 2 ^ n + lo.toNat := by
  rw [BitVec.toNat_append, Nat.shiftLeft_eq, Nat.mul_comm, Nat.two_pow_add_eq_or_of_lt lo.isLt]

/-- NODE_A of a leaf: VALID, LEAF and SYM (R41). -/
theorem toNat_word_leaf (sym : Byte) (w : Word) : (Node.leaf sym w).word.toNat = 2 ^ 31 + 2 ^ 30 + sym.toNat := by
  simp only [Node.word, toNat_append_add, BitVec.ofNat_eq_ofNat, BitVec.toNat_ofNat]
  omega

/-- NODE_A of an internal node: VALID, RIGHT and LEFT (R41). -/
theorem toNat_word_internal (l r : NodeIndex) (w : Word) :
    (Node.internal l r w).word.toNat = 2 ^ 31 + r.toNat * 2 ^ 17 + l.toNat * 2 ^ 8 := by
  simp only [Node.word, toNat_append_add, BitVec.ofNat_eq_ofNat, BitVec.toNat_ofNat]
  omega

/-- What the window's two words of a slot read while BUSY = 0 (R40, R41). -/
theorem readReg_node {s : State} (hb : s.busy = false) (i : Fin 511) :
    s.readReg (.nodeA i) = (if i.val < s.tree.nnodes.toNat then (s.tree.node.slot i).word else 0) ∧
      s.readReg (.nodeW i) = if i.val < s.tree.nnodes.toNat then (s.tree.node.slot i).weight else 0 :=
  ⟨readReg_of_idle hb, readReg_of_idle hb⟩

/-- Settles O22: the window tests the slot's index against NNODES, then shows the node. -/
theorem nodeWindowShowsTheArena : Obligations.NodeWindowShowsTheArena := by
  intro s i hb
  obtain ⟨hA, hW⟩ := readReg_node hb i
  rw [hA, hW]
  refine ⟨fun hi => ?_, fun hi => ?_⟩
  · rw [if_neg (Nat.not_lt.2 hi), if_neg (Nat.not_lt.2 hi)]
    exact ⟨rfl, rfl⟩
  · rw [if_pos hi, if_pos hi]
    exact ⟨fun sym w h => h ▸ ⟨toNat_word_leaf sym w, rfl⟩, fun l r w h => h ▸ ⟨toNat_word_internal l r w, rfl⟩⟩

/-- Settles O23: the windows are slices of the entry, and `code` its low bits from the top. -/
theorem codeWindowsShowTheCodebook : Obligations.CodeWindowsShowTheCodebook := by
  intro s c hb
  refine ⟨toNat_readReg_of_setWidth hb rfl (by decide), fun j k hk => ?_, length_code s.book c, fun m hm => ?_⟩
  · rw [readReg_of_idle hb, State.regValue, CodeBook.codeBits, BitVec.getLsbD_extractLsb', decide_eq_true hk, Bool.true_and]
  · rw [CodeBook.code, List.getElem?_map, List.getElem?_range hm, Option.map_some]

end Sys2Proof.Machine
end

section
/-! When BUSY changes (R48): what each move of the host's does to it, and then the step. -/

namespace Sys2Proof.Machine

/-- A register write other than CMD's leaves BUSY as it is (R131). -/
theorem busy_writeReg_of_ne {s : State} {r : Reg} (v : Word) (hr : r ≠ .cmd) : (s.writeReg r v).busy = s.busy := by
  cases r with
  | cmd => exact absurd rfl hr
  | _ => rfl

/-- The CMD register is at its own offset alone (R24). -/
theorem eq_cmd_offset {o : Nat} (ha : o % 4 = 0) (hs : o < Config.regSpan) (h : regAt o = .cmd) : o = 0x004 := by
  have ho := offset_regAt ha hs (by simp [h])
  rw [h] at ho
  exact ho.symm

theorem busy_hostWait (s : State) : s.hostWait.busy = s.busy := by
  unfold State.hostWait
  split
  · exact State.countDraw_busy s .status
  · rfl

/-- A move of the host's that sets BUSY is an issue, which latches its word (R132). -/
theorem HostEffect.issue_of_busy_rises {s t : State} {op : HostOp} (he : HostEffect s op t) (hs : s.busy = false)
    (ht : t.busy = true) :
    ∃ w, op = .regWrite .word (s.platform.regBase + 0x004) w ∧ t.cmd = w ∧ t.latch.cmd = w := by
  have kept (h : t.busy = s.busy) {P : Prop} : P := by simp [h, hs] at ht
  cases he with
  | write o v ha hlt =>
    by_cases hr : regAt o = .cmd
    · obtain rfl := eq_cmd_offset ha hlt hr
      have hw : s.writeReg .cmd v = s.issue v := if_neg (by simp [hs])
      rw [hr, hw]
      exact ⟨v, rfl, rfl, rfl⟩
    · exact kept (busy_writeReg_of_ne v hr)
  | read o ha hlt => exact kept (State.countDraw_busy s _)
  | wait => exact kept (busy_hostWait s)
  | load a v k hm hl hv => exact kept rfl
  | store a v w k hm hl hv => exact kept rfl
  | reset => exact absurd ht Bool.false_ne_true

/-- A CMD write while BUSY = 1 is dropped, so a move of the host's that clears BUSY is reset (R133, R340). -/
theorem HostEffect.reset_of_busy_falls {s t : State} {op : HostOp} (he : HostEffect s op t) (hs : s.busy = true)
    (ht : t.busy = false) : op = .assertReset := by
  have kept (h : t.busy = s.busy) {P : Prop} : P := by simp [h, hs] at ht
  cases he with
  | write o v ha hlt =>
    by_cases hr : regAt o = .cmd
    · have hw : s.writeReg .cmd v = s.dropCommand := if_pos hs
      exact kept (by rw [hr, hw]; rfl)
    · exact kept (busy_writeReg_of_ne v hr)
  | read o ha hlt => exact kept (State.countDraw_busy s _)
  | wait => exact kept (busy_hostWait s)
  | load a v k hm hl hv => exact kept rfl
  | store a v w k hm hl hv => exact kept rfl
  | reset => rfl

/-- No command changes the OPEN parameters (R6). -/
theorem State.SameHostSide.platform {s t : State} (h : s.SameHostSide t) : t.platform = s.platform := by
  obtain ⟨-, -, -, -, -, -, -, -, -, -, hp, -⟩ := h
  exact hp

/-- Settles O11: a step is the engine's completion, a move of the host's, or a turn used up. -/
theorem busyChangesOnlyByIssueCompletionReset : Obligations.BusyChangesOnlyByIssueCompletionReset := by
  intro s t h
  obtain ⟨ts, ⟨hb, he⟩ | ⟨op, ops, hop, he⟩ | rfl⟩ := step_next h
  · have hb' : State.busy { s with turns := ts } = true := hb
    obtain ⟨-, hdone, hside⟩ := engineMove_completes hb' he
    refine ⟨hside.platform, fun hidle => ?_, fun _ _ => .inl hdone⟩
    exact absurd (hidle.symm.trans hb) Bool.false_ne_true
  · refine ⟨he.platform, fun hs ht => ?_, fun hs ht => ?_⟩
    · obtain ⟨w, rfl, hcmd, hlatch⟩ := he.issue_of_busy_rises hs ht
      exact ⟨w, ops, hop, hcmd, hlatch⟩
    · obtain rfl := he.reset_of_busy_falls hs ht
      exact .inr ⟨ops, hop⟩
  · refine ⟨rfl, fun hs ht => ?_, fun hs ht => ?_⟩
    · exact absurd (hs.symm.trans ht) Bool.false_ne_true
    · exact absurd (ht.symm.trans hs) Bool.false_ne_true

end Sys2Proof.Machine
end

section
/-! What a command leaves alone (R21, R34 to R36, R38, R42), and that its result is a function of its operands (R101). -/

namespace Sys2Proof.Machine

/-! ### The structures a command does not write -/

/-- Only COUNT, SETUP and CLEAR write the table, only these and BUILD the tree, only these and GENERATE the codebook
(R35, R36, R38, R42, R281). -/
theorem plan_ok_untouched {i : Instr} {s : State} {d : Done} (h : commandPlan i s = .ok d) :
    (i ∉ [Instr.count, .setup, .clear] → d.state.table = s.table) ∧
      (i ∉ [Instr.count, .setup, .clear, .build] → d.state.tree = s.tree) ∧
      (i ∉ [Instr.count, .setup, .clear, .build, .generate] → d.state.book = s.book) := by
  cases i with
  | count | setup | clear => simp
  | build | generate => obtain rfl := Except.ok.inj h; simp
  | encode => obtain ⟨-, -, -, -, rfl⟩ := plan_encode_ok.1 h; simp
  | bitlen => obtain ⟨-, -, -, rfl⟩ := plan_bitlen_ok.1 h; simp
  | decode => obtain ⟨_, -, rfl⟩ := plan_decode_ok.1 h; simp

/-- Settles O49: a command carries out its plan, or raises an error and writes no structure at all (R315). -/
theorem commandsWriteOnlyTheirOwnState : Obligations.CommandsWriteOnlyTheirOwnState := by
  intro i s t h
  refine ⟨exec_sameHostSide h, ?_⟩
  rcases exec_next h with ⟨d, hd, rfl⟩ | ⟨e, -, rfl⟩
  · exact plan_ok_untouched hd
  · exact ⟨fun _ => rfl, fun _ => rfl, fun _ => rfl⟩

/-! ### The checks and passes are functions of the operands -/

theorem src_congr {s u : State} (h : s.latch.srcAddr = u.latch.srcAddr) : s.src = u.src := congrArg BitVec.toNat h

theorem srcCount_congr {s u : State} (h : s.latch.srcLen = u.latch.srcLen) : s.srcCount = u.srcCount :=
  congrArg BitVec.toNat h

theorem dst_congr {s u : State} (h : s.latch.dstAddr = u.latch.dstAddr) : s.dst = u.dst := congrArg BitVec.toNat h

theorem capacity_congr {s u : State} (h : s.latch.dstCap = u.latch.dstCap) : s.capacity = u.capacity :=
  congrArg BitVec.toNat h

theorem bitCount_congr {s u : State} (h : s.latch.bitcnt = u.latch.bitcnt) : s.bitCount = u.bitCount :=
  congrArg BitVec.toNat h

section Operands

variable {s u : State} (hp : s.platform = u.platform) (hsrc : s.latch.srcAddr = u.latch.srcAddr)
  (hlen : s.latch.srcLen = u.latch.srcLen) (hdst : s.latch.dstAddr = u.latch.dstAddr)
  (hcap : s.latch.dstCap = u.latch.dstCap)

include hp

include hsrc hlen in
/-- The source buffer, after its checks (R76, R72). -/
theorem sourceBytes_congr (hdata : s.sourceData = u.sourceData) : s.sourceBytes = u.sourceBytes := by
  rw [State.sourceBytes, State.sourceBytes, hp, src_congr hsrc, srcCount_congr hlen, hdata]

include hdst hcap in
/-- The checks of the destination (R310). -/
theorem checkDestination_congr (a n nb : Nat) : s.checkDestination a n nb = u.checkDestination a n nb := by
  rw [State.checkDestination, State.checkDestination, hp, dst_congr hdst, capacity_congr hcap]

include hsrc hlen hdst hcap in
theorem encodePlan_congr (hdata : s.sourceData = u.sourceData) (hbook : s.book = u.book) :
    s.encodePlan = u.encodePlan := by
  simp only [State.encodePlan, sourceBytes_congr hp hsrc hlen hdata, checkDestination_congr hp hdst hcap, hbook,
    src_congr hsrc, srcCount_congr hlen]

include hsrc in
/-- DECODE's walk reads the payload's ceil_div(N, 8) bytes and the tree (R77, R101). -/
theorem decodeStream_congr (hbit : s.latch.bitcnt = u.latch.bitcnt) (htree : s.tree = u.tree)
    (hmem : ∀ j < bytesFor s.bitCount, s.mem.read (s.src + j) = u.mem.read (s.src + j)) :
    s.decodeStream = u.decodeStream := by
  rw [State.decodeStream, State.decodeStream, Memory.payloadBits_congr hmem, hp, htree, src_congr hsrc,
    bitCount_congr hbit]

include hsrc hlen hdst hcap in
theorem decodePlan_congr (hbit : s.latch.bitcnt = u.latch.bitcnt) (htree : s.tree = u.tree)
    (hmem : ∀ j < bytesFor s.bitCount, s.mem.read (s.src + j) = u.mem.read (s.src + j)) :
    s.decodePlan = u.decodePlan := by
  simp only [State.decodePlan, decodeStream_congr hp hsrc hbit htree hmem, checkDestination_congr hp hdst hcap, hp,
    src_congr hsrc, srcCount_congr hlen, bitCount_congr hbit]

end Operands

/-- BITLEN reads the code lengths alone of the codebook (R230). -/
theorem sumLengths_congr {b c : CodeBook} (h : b.len = c.len) (i : Nat) (bytes : List Byte) :
    sumLengths b i bytes = sumLengths c i bytes := by
  induction bytes generalizing i with
  | nil => rfl
  | cons x bytes ih => rw [sumLengths, sumLengths, h, ih]

/-- The same bytes written at the same place read back alike, whatever the two memories held. -/
theorem read_writeBytes_inside {m m' : Memory} (hm : Memory.wf m) (hm' : Memory.wf m') {a j : Nat} {vs : List Byte}
    (hj : j < vs.length) : (m.writeBytes a vs).read (a + j) = (m'.writeBytes a vs).read (a + j) := by
  rw [Memory.read_writeBytes hm, Memory.read_writeBytes hm', if_pos (by omega), if_pos (by omega)]

/-! ### Two plans that end alike -/

/-- Two ends of the plan of `i` that agree on the results, on the structures `i` writes, and on the bytes it writes
from `a` on (R101). -/
structure Done.Alike (i : Instr) (a : Nat) (d e : Done) : Prop where
  resBits : d.resBits = e.resBits
  resBytes : d.resBytes = e.resBytes
  table : i ∈ [Instr.count, .setup, .clear] → d.state.table = e.state.table
  tree : i ∈ [Instr.count, .setup, .clear, .build] → d.state.tree = e.state.tree
  book : i ∈ [Instr.count, .setup, .clear, .build, .generate] → d.state.book = e.state.book
  bytes : i ∈ [Instr.encode, .decode] → ∀ j < d.resBytes, d.state.mem.read (a + j) = e.state.mem.read (a + j)

/-- Two plans that stop for the same reason or end alike. -/
inductive PlansAlike (i : Instr) (a : Nat) : Except Stop Done → Except Stop Done → Prop where
  | stop (x : Stop) : PlansAlike i a (.error x) (.error x)
  | done {d e : Done} (h : Done.Alike i a d e) : PlansAlike i a (.ok d) (.ok e)

theorem PlansAlike.bind {i : Instr} {a : Nat} {α : Type} {p q : Except Stop α} {f g : α → Except Stop Done}
    (hpq : p = q) (h : ∀ x, PlansAlike i a (f x) (g x)) : PlansAlike i a (p >>= f) (q >>= g) := by
  subst hpq
  cases p with
  | error x => exact .stop x
  | ok x => exact h x

theorem PlansAlike.of_error {i : Instr} {a : Nat} {x : Stop} {q : Except Stop Done}
    (h : PlansAlike i a (.error x) q) : q = .error x := by
  cases h
  rfl

theorem PlansAlike.of_ok {i : Instr} {a : Nat} {d : Done} {q : Except Stop Done} (h : PlansAlike i a (.ok d) q) :
    ∃ e, q = .ok e ∧ Done.Alike i a d e := by
  cases h with
  | done h => exact ⟨_, rfl, h⟩

/-- The plans of a command from two states that agree on its operands (R101). -/
theorem plansAlike_of_agree {i : Instr} {s u : State} (hs : Memory.wf s.mem) (hu : Memory.wf u.mem)
    (h : AgreeOnOperands i s u) : PlansAlike i s.dst (commandPlan i s) (commandPlan i u) := by
  obtain ⟨hp, h⟩ := h
  cases i with
  | count | setup =>
    obtain ⟨hsrc, hlen, hdata⟩ := h
    exact .bind (sourceBytes_congr hp hsrc hlen hdata) fun bytes =>
      .done ⟨rfl, rfl, fun _ => rfl, fun _ => rfl, fun _ => rfl, by simp⟩
  | build =>
    have htree : buildTree s.table.freq = buildTree u.table.freq := congrArg buildTree h
    exact .done ⟨rfl, rfl, by simp, fun _ => htree, fun _ => rfl, by simp⟩
  | generate =>
    have hbook : generateBook s.tree = generateBook u.tree := congrArg generateBook h
    exact .done ⟨rfl, rfl, by simp, by simp, fun _ => hbook, by simp⟩
  | clear => exact .done ⟨rfl, rfl, fun _ => rfl, fun _ => rfl, fun _ => rfl, by simp⟩
  | bitlen =>
    obtain ⟨hsrc, hlen, hdata, hbook⟩ := h
    exact .bind (sourceBytes_congr hp hsrc hlen hdata) fun bytes => .bind (sumLengths_congr hbook 0 bytes) fun n =>
      .done ⟨rfl, rfl, by simp, by simp, by simp, by simp⟩
  | encode =>
    obtain ⟨hsrc, hlen, hdst, hcap, hdata, hbook⟩ := h
    refine .bind (encodePlan_congr hp hsrc hlen hdst hcap hdata hbook) fun plan =>
      .done ⟨rfl, rfl, by simp, by simp, by simp, fun _ j hj => ?_⟩
    rw [← dst_congr hdst]
    exact read_writeBytes_inside hs hu hj
  | decode =>
    obtain ⟨hsrc, hlen, hdst, hcap, hbit, hmem, htree⟩ := h
    refine .bind (decodePlan_congr hp hsrc hlen hdst hcap hbit htree hmem) fun out =>
      .done ⟨bitCount_congr hbit, rfl, by simp, by simp, by simp, fun _ j hj => ?_⟩
    rw [← dst_congr hdst]
    exact read_writeBytes_inside hs hu hj

/-- Settles O51: the plans stop for the same reason, which is all an error completion records (R138), or end alike. -/
theorem commandResultDependsOnlyOnItsOperands : Obligations.CommandResultDependsOnlyOnItsOperands := by
  intro i s u t hs hu ha h
  have hplans := plansAlike_of_agree hs hu ha
  rcases exec_next h with ⟨d, hd, rfl⟩ | ⟨e, he, rfl⟩
  · rw [hd] at hplans
    obtain ⟨d', hd', alike⟩ := hplans.of_ok
    refine ⟨_, exec_of_plan hd', congrArg (BitVec.ofNat 64) alike.resBits,
      congrArg (BitVec.ofNat 32) alike.resBytes, rfl, rfl, rfl, fun _ =>
      ⟨alike.table, alike.tree, alike.book, fun hi j hj => alike.bytes hi j (hj.trans_le ?_)⟩⟩
    exact Nat.mod_le d.resBytes (2 ^ 32)
  · rw [he] at hplans
    exact ⟨_, exec_of_raise hplans.of_error, rfl, rfl, rfl, rfl, rfl, fun h0 => absurd h0 e.code_ne_zero⟩

end Sys2Proof.Machine
end

section
/-! build(FREQ) is the CodeTree of the table (R37 to R39, R181 to R184, R186): what the combine loop keeps of its list of
nodes, read off the arena the nodes fill. -/

namespace Sys2Proof.Machine

/-! ### Weights of the trees that nodes hold -/

theorem Represents.weight_eq {nodes : List Node} {i : Nat} {t : PTree} (h : Represents nodes i t) :
    weightAt nodes i = t.weight.toNat := by
  cases h with
  | leaf h => rw [weightAt, h]; rfl
  | node h => rw [weightAt, h]; rfl

/-- A tree whose leaves are among the pairs `L` weighs no more than all of them. -/
theorem PTree.total_le_of_perm {t : PTree} {rest L : List (Byte × Word)} (h : (t.leaves ++ rest).Perm L) :
    t.total ≤ (L.map fun x => x.2.toNat).sum := by
  rw [← (h.map fun x => x.2.toNat).sum_eq, List.map_append, List.sum_append]
  exact Nat.le_add_right ..

/-- A node after the leaves is internal, its children are below it, and it weighs what they do together as long as the
table's counts fit 32 bits (R38, R184). -/
theorem BuildInv.internal_sum {L : List (Byte × Word)} {nodes : List Node} {q : List QueueEntry} (h : BuildInv L nodes q)
    (hL : (L.map fun x => x.2.toNat).sum < 2 ^ 32) {i : Nat} (hk : L.length ≤ i) (hi : i < nodes.length) :
    ∃ l r w, nodes[i]? = some (.internal l r w) ∧ l.toNat < i ∧ r.toNat < i ∧
      w.toNat = weightAt nodes l.toNat + weightAt nodes r.toNat := by
  obtain ⟨t, ht, hs, rest, hrest⟩ := h.sound i hi
  have hfit : t.total < 2 ^ 32 := (PTree.total_le_of_perm hrest).trans_lt hL
  cases ht with
  | leaf hg =>
    obtain ⟨inner, hsh, hin⟩ := h.shape
    rw [hsh, List.getElem?_append_right (by simpa using hk)] at hg
    obtain ⟨_, _, _, hx⟩ := hin _ (List.mem_of_getElem? hg)
    cases hx
  | node hg hl hr left right =>
    have hw := PTree.toNat_weight hs hfit
    rw [PTree.total_node] at hw hfit
    obtain ⟨-, hsl, hsr⟩ := hs
    refine ⟨_, _, _, hg, hl, hr, hw.trans ?_⟩
    rw [left.weight_eq, right.weight_eq, PTree.toNat_weight hsl (by omega), PTree.toNat_weight hsr (by omega)]

/-- The leaves stand first, in the table's order (R182). -/
theorem BuildInv.getElem?_leaf {L : List (Byte × Word)} {nodes : List Node} {q : List QueueEntry}
    (h : BuildInv L nodes q) {i : Nat} (hi : i < L.length) : nodes[i]? = some (.leaf L[i].1 L[i].2) := by
  obtain ⟨inner, hsh, -⟩ := h.shape
  rw [hsh, List.getElem?_append_left (by simpa using hi), List.getElem?_map, List.getElem?_eq_getElem hi]
  rfl

/-- Every node is the child of exactly one, but for the one still queued (R39, R183). -/
theorem BuildInv.count_children {L : List (Byte × Word)} {nodes : List Node} {e : QueueEntry} (h : BuildInv L nodes [e])
    {j : Nat} (hj : j < nodes.length) :
    (nodes.flatMap Node.childList).count j = if j = e.2.toNat then 0 else 1 := by
  have hc := h.children.count_eq j
  rw [List.count_append, List.nodup_range.count, if_pos (List.mem_range.2 hj), List.map_singleton,
    List.count_singleton] at hc
  simp only [beq_iff_eq, eq_comm (a := e.2.toNat)] at hc
  by_cases hje : j = e.2.toNat
  · rw [if_pos hje] at hc ⊢; omega
  · rw [if_neg hje] at hc ⊢; omega

/-! ### The arena of build(F) -/

section Arena

variable {F : Table Word} (hF : 0 < (presentSymbols F).length)

include hF

/-- A slot below NNODES holds the node of that index. -/
theorem slot_buildTree_iff {i : Nat} (hi : i < (buildTree F).nnodes.toNat) {x : Node} :
    Arena.slot (buildTree F).node i = x ↔ (buildNodes F)[i]? = some x := by
  rw [toNat_nnodes_buildTree hF] at hi
  rw [slot_buildTree hF hi, List.getElem?_eq_getElem hi, Option.some.injEq]

theorem nodes_buildTree : (buildTree F).nodes = buildNodes F := by
  have hn := toNat_nnodes_buildTree hF
  refine List.ext_getElem (by simp [CodeTree.nodes, hn]) fun i h1 h2 => ?_
  simp only [CodeTree.nodes, List.getElem_map, List.getElem_range]
  exact slot_buildTree hF h2

theorem toNat_weight_slot {i : Nat} (hi : i < (buildTree F).nnodes.toNat) :
    (Arena.slot (buildTree F).node i).weight.toNat = weightAt (buildNodes F) i := by
  rw [weightAt, (slot_buildTree_iff hF hi).1 rfl]
  rfl

/-- The key order of the arena's nodes is that of the list they come from (R181). -/
theorem keyLt_buildTree {i j : Nat} (hi : i < (buildTree F).nnodes.toNat) (hj : j < (buildTree F).nnodes.toNat) :
    (buildTree F).KeyLt i j ↔ keyLt (buildNodes F) i j := by
  rw [CodeTree.KeyLt, keyLt, ← BitVec.toNat_inj, toNat_weight_slot hF hi, toNat_weight_slot hF hj]

/-- The greedy choice, in the arena (R181, R182). -/
theorem least_buildTree {i : Nat} (hi : i < (buildTree F).nnodes.toNat) {l r : NodeIndex} {w : Word}
    (hx : Arena.slot (buildTree F).node i = .internal l r w) :
    (buildTree F).KeyLt l.toNat r.toNat ∧
      ∀ j < i, j ≠ l.toNat → j ≠ r.toNat → (∀ m < i, j ∉ (Arena.slot (buildTree F).node m).childList) →
        (buildTree F).KeyLt l.toNat j ∧ (buildTree F).KeyLt r.toNat j := by
  obtain ⟨hl, hr, hlr, hleast⟩ := buildNodes_greedy F i l r w ((slot_buildTree_iff hF hi).1 hx)
  refine ⟨(keyLt_buildTree hF (by omega) (by omega)).2 hlr, fun j hj hjl hjr hfree => ?_⟩
  obtain ⟨h1, h2⟩ := hleast j hj hjl hjr fun m x hm hmx =>
    (slot_buildTree_iff hF (hm.trans hi)).2 hmx ▸ hfree m hm
  exact ⟨(keyLt_buildTree hF (by omega) (by omega)).2 h1, (keyLt_buildTree hF (by omega) (by omega)).2 h2⟩

/-- The CodeTree of a table whose counts sum to less than 2^32. -/
theorem treeOf_buildTree (hsum : (allSymbols.map fun s => (Table.look F s).toNat).sum < 2 ^ 32) :
    (buildTree F).TreeOf F := by
  obtain ⟨e, h⟩ := buildNodes_spec F hF
  have hn := toNat_nnodes_buildTree hF
  have hroot := toNat_root_buildTree hF
  have hk : (leafPairs F).length = (presentSymbols F).length := by rw [← leafPairs_fst, List.length_map]
  have hcount := (exists_tree hF).1
  refine ⟨by omega, by omega, fun i hi => ?_, fun i hki hi => ?_, fun j hj => ?_, fun i hi l r w => least_buildTree hF hi⟩
  · refine (slot_buildTree_iff hF (by omega)).2 ((h.getElem?_leaf (hk ▸ hi)).trans ?_)
    simp [leafPairs]
  · rw [← sum_leafPairs] at hsum
    obtain ⟨l, r, w, hx, hl, hr, hw⟩ := h.internal_sum hsum (hk ▸ hki) (hn ▸ hi)
    refine ⟨l, r, w, (slot_buildTree_iff hF hi).2 hx, hl, hr, ?_⟩
    rw [toNat_weight_slot hF (by omega), toNat_weight_slot hF (by omega), hw]
  · rw [CodeTree.allChildren, nodes_buildTree hF, h.count_children (hn ▸ hj), h.queued_last (by omega), hroot]

/-- The root weighs the sum of the counts (R184). -/
theorem toNat_weight_root (hsum : (allSymbols.map fun s => (Table.look F s).toNat).sum < 2 ^ 32) :
    (Arena.slot (buildTree F).node (buildTree F).root.toNat).weight.toNat =
      (allSymbols.map fun s => (Table.look F s).toNat).sum := by
  obtain ⟨hcount, -, t, ht, hperm, hs⟩ := exists_tree hF
  have htotal : t.total = (allSymbols.map fun s => (Table.look F s).toNat).sum := by
    rw [← sum_leafPairs]
    exact (hperm.map fun x => x.2.toNat).sum_eq
  have hn := toNat_nnodes_buildTree hF
  rw [toNat_root_buildTree hF, toNat_weight_slot hF (by omega), ht.weight_eq, PTree.toNat_weight hs (htotal ▸ hsum),
    htotal]

end Arena

/-- NSYM counts the present symbols (R35, R36). -/
theorem FreqTable.Consistent.toNat_nsym {t : FreqTable} (h : t.Consistent) :
    t.nsym.toNat = (presentSymbols t.freq).length := by
  rw [presentSymbols_eq]
  exact h.2

/-- Settles O53: by R35 TOTAL is the sum of the counts, so that sum fits 32 bits. -/
theorem builtTreeIsTheCodeTree : Obligations.BuiltTreeIsTheCodeTree := by
  intro t h hnsym
  have hF : 0 < (presentSymbols t.freq).length := by
    rw [← h.toNat_nsym]
    exact Nat.pos_of_ne_zero fun h0 => hnsym (BitVec.eq_of_toNat_eq h0)
  obtain ⟨htotal, -⟩ := h
  have hsum := htotal ▸ t.total.isLt
  exact ⟨treeOf_buildTree hF hsum, BitVec.eq_of_toNat_eq ((toNat_weight_root hF hsum).trans htotal.symm)⟩

end Sys2Proof.Machine
end

section
/-! A register read changes no element of the machine (R87, R134). -/

namespace Sys2Proof.Machine

/-- A register read counts a draw at most. -/
theorem State.countDraw_eq (s : State) (r : Reg) : s.countDraw r = { s with draws := (s.countDraw r).draws } := by
  unfold State.countDraw
  split <;> rfl

theorem State.draws_countDraw_of_idle {s : State} (hb : s.busy = false) (r : Reg) :
    (s.countDraw r).draws = s.draws := by
  simp [State.countDraw, hb]

/-- No register shows the record of reads or the count of draws. -/
theorem regValue_withReads (s : State) (rs : List Observation) (k : Nat) (q : Reg) :
    State.regValue { s with reads := rs, draws := k } q = s.regValue q := by
  cases q <;> rfl

/-- Settles O18: the read reaches its register by the map, and there counts a draw at most. -/
theorem registerReadsHaveNoSideEffect : Obligations.RegisterReadsHaveNoSideEffect := by
  intro s r _
  refine ⟨_, hostOp_regRead s r, ?_, fun q => ?_, fun hb =>
    ⟨readReg_of_idle hb, State.draws_countDraw_of_idle hb r⟩⟩
  · rw [State.countDraw_eq]
  · rw [State.countDraw_eq]
    exact regValue_withReads s _ _ q

end Sys2Proof.Machine
end

section
/-! Data memory and its two users (R72, R77 to R79, R82): what a write leaves, the ranges a running command reads and
writes, and the host's accesses inside and outside them. -/

namespace Sys2Proof.Machine

/-! ### Bytes -/

/-- Settles O26: the canonical form is kept by every write and is unique for what it reads. -/
theorem memoryReturnsTheLastByteWritten : Obligations.MemoryReturnsTheLastByteWritten :=
  ⟨fun m a b v hm => ⟨Memory.wf_write hm a v, Memory.read_write m hm a v b⟩, fun _ _ => Memory.ext_read⟩

/-- A byte written leaves every other byte as it was (R72). -/
theorem sameBytesOutside_storeByte {s : State} (hm : Memory.wf s.mem) (a : Word) (v : Byte) :
    s.SameBytesOutside (s.storeByte a v) a.toNat 1 := by
  intro x hx
  rw [State.storeByte_mem, Memory.read_write s.mem hm, if_neg (by omega)]

theorem State.SameBytesOutside.of_mem_eq {s t : State} (h : t.mem = s.mem) (a n : Nat) : s.SameBytesOutside t a n :=
  fun x _ => congrArg (Memory.read · x) h

/-! ### The ranges of a command (R77) -/

theorem overlap_empty (a n b : Nat) : overlap a n b 0 = false := by simp [overlap]

/-- Only ENCODE and DECODE have a write range (R77). -/
theorem writeRange_of_no_write {i : Instr} (he : i ≠ .encode) (hd : i ≠ .decode) (s : State) :
    s.writeRange i = (0, 0) := by
  cases i with
  | encode => exact absurd rfl he
  | decode => exact absurd rfl hd
  | _ => rfl

/-- The write range of a command that ends in an error is empty (R79). -/
theorem writeRange_of_raised {i : Instr} {s : State} {e : CmdError} (h : commandPlan i s = .error (.raised e)) :
    s.writeRange i = (0, 0) := by
  cases i with
  | encode =>
    have hp : s.encodePlan = .error (.raised e) := by simpa [commandPlan, bind_eq_error] using h
    rw [State.writeRange, hp]
    rfl
  | decode =>
    have hp : s.decodePlan = .error (.raised e) := by simpa [commandPlan, bind_eq_error] using h
    rw [State.writeRange, hp]
    rfl
  | _ => rfl

/-- What ENCODE and DECODE write when they raise nothing: RES_BYTES bytes from L.DST_ADDR, at most L.DST_CAP of them,
none of which they read (R77, R78). -/
theorem plan_ok_written {i : Instr} (hi : i = .encode ∨ i = .decode) {s : State} {d : Done}
    (h : commandPlan i s = .ok d) :
    ∃ out, d.state.mem = s.mem.writeBytes s.dst out ∧ d.resBytes = out.length ∧ out.length ≤ s.capacity ∧
      overlap (s.readRange i).1 (s.readRange i).2 s.dst out.length = false ∧ s.writeRange i = (s.dst, out.length) := by
  rcases hi with rfl | rfl
  · simp only [commandPlan, bind_eq_ok, pure_eq_ok, Except.ok.injEq] at h
    obtain ⟨plan, hp, rfl⟩ := h
    have hw : s.writeRange .encode = (s.dst, plan.2.length) := by rw [State.writeRange, hp]; rfl
    obtain ⟨-, -, -, ⟨hcap, -, hov, -⟩, rfl⟩ := encodePlan_eq_ok.1 hp
    rw [← length_packBits] at hcap hov
    exact ⟨_, rfl, rfl, hcap, hov, hw⟩
  · obtain ⟨out, hp, rfl⟩ := plan_decode_ok.1 h
    have hw : s.writeRange .decode = (s.dst, out.length) := by rw [State.writeRange, hp]; rfl
    obtain ⟨-, -, -, hcap, -, hov, -⟩ := decodePlan_eq_ok.1 hp
    exact ⟨out, rfl, rfl, hcap, hov, hw⟩

/-- A command that writes nothing has an empty write range, which bounds nothing and meets nothing. -/
theorem frame_of_empty_writeRange {i : Instr} {s t : State} (hw : s.writeRange i = (0, 0)) (hm : t.mem = s.mem) :
    s.SameBytesOutside t (s.writeRange i).1 (s.writeRange i).2 ∧
      overlap (s.readRange i).1 (s.readRange i).2 (s.writeRange i).1 (s.writeRange i).2 = false := by
  rw [hw]
  exact ⟨.of_mem_eq hm 0 0, overlap_empty _ _ 0⟩

/-- Settles O50: by whether the command wrote a buffer, raised an error (R79), or has none to write. -/
theorem commandsWriteOnlyTheirWriteRange : Obligations.CommandsWriteOnlyTheirWriteRange := by
  intro i s t hm h
  rw [← and_assoc]
  rcases exec_next h with ⟨d, hd, rfl⟩ | ⟨e, he, rfl⟩
  · refine ⟨?_, plan_ok_mem hd⟩
    by_cases hi : i = .encode ∨ i = .decode
    · obtain ⟨out, hmem, -, -, hov, hw⟩ := plan_ok_written hi hd
      rw [hw]
      refine ⟨fun x hx => ?_, hov⟩
      exact (congrArg (Memory.read · x) hmem).trans (Memory.read_writeBytes_outside hm s.dst out x hx)
    · rw [not_or] at hi
      exact frame_of_empty_writeRange (writeRange_of_no_write hi.1 hi.2 s) (plan_ok_mem hd hi.1 hi.2)
  · exact ⟨frame_of_empty_writeRange (writeRange_of_raised he) rfl, fun _ _ => rfl⟩

/-- The write range of an ENCODE or DECODE that succeeds is RES_BYTES long (R77). -/
theorem writeRange_of_success {i : Instr} (hi : i = .encode ∨ i = .decode) {s t : State} (h : exec i s = .next t)
    (ht : t.err = 0) : s.writeRange i = (s.dst, t.resBytes.toNat) := by
  obtain ⟨d, hd, rfl⟩ := exec_no_err h ht
  obtain ⟨out, -, hlen, hcap, -, hw⟩ := plan_ok_written hi hd
  have hfit : d.resBytes < 2 ^ 32 := hlen ▸ hcap.trans_lt s.latch.dstCap.isLt
  rw [hw, ← hlen]
  exact congrArg (Prod.mk s.dst) (Nat.mod_eq_of_lt hfit).symm

/-! ### Host accesses -/

/-- While BUSY = 1 the live bytes are those of the latched command's two ranges (R82 (c)). -/
theorem live_iff {s : State} {i : Instr} (hb : s.busy = true) (hi : decode s.latch.cmd = .ok i) (a : Nat) :
    s.live a = true ↔ inSpan (s.readRange i) a = true ∨ inSpan (s.writeRange i) a = true := by
  have hrun : s.running = some i := by simp [State.running, hi]
  simp only [State.live, hb, hrun, Bool.or_eq_true]

theorem inSpan_iff {r : Nat × Nat} {a : Nat} : inSpan r a = true ↔ r.1 ≤ a ∧ a < r.1 + r.2 := by simp [inSpan]

/-- Settles O24: a byte of either range is live, and the race is looked for before all else of a byte that exists. -/
theorem touchingALiveBufferIsARace : Obligations.TouchingALiveBufferIsARace := by
  intro s i hb hi
  refine ⟨fun a v ha hrange => ?_, fun hw t => writeRange_of_success hw⟩
  have hlive : s.live a.toNat = true := by
    rw [live_iff hb hi]
    rcases hrange with ⟨hmem, hspan⟩ | ⟨rfl, hspan⟩ | hspan
    · have hread : s.readRange i = (s.src, s.srcCount) := by
        simp only [List.mem_cons, List.not_mem_nil, or_false] at hmem
        rcases hmem with rfl | rfl | rfl | rfl <;> rfl
      rw [hread]
      exact .inl (inSpan_iff.2 hspan)
    · exact .inl (inSpan_iff.2 hspan)
    · exact .inr (inSpan_iff.2 hspan)
  exact ⟨hostAccess_of_live ha hlive, hostAccess_of_live ha hlive⟩

section Access

variable {s : State} {a : Word} (ha : a.toNat < s.platform.memSize) (hl : s.live a.toNat = false)
include ha hl

/-- A host read of a byte no running command uses (R82 (d)). -/
theorem hostOp_memRead :
    s.hostOp (.memRead a) = .next (if s.platform.usable a.toNat 1 then s.recordByte a (s.mem.read a.toNat)
      else s.takeFreeByte.recordByte a (Config.freeByte s.draws)) :=
  hostAccess_next.2 ⟨ha, hl, rfl⟩

/-- A host write of such a byte. -/
theorem hostOp_memWrite (v : Byte) :
    s.hostOp (.memWrite a v) = .next (if s.platform.usable a.toNat 1 then s.storeByte a v
      else s.takeFreeByte.storeByte a (Config.freeByte s.draws)) :=
  hostAccess_next.2 ⟨ha, hl, rfl⟩

end Access

/-- Settles O25: the access goes on, with the byte itself inside the contract of R72 and R83 and a free one outside. -/
theorem otherHostMemoryAccessGoesOn : Obligations.OtherHostMemoryAccessGoesOn := by
  intro s a v hm ha hl
  rw [hostOp_memRead ha hl, hostOp_memWrite ha hl]
  refine ⟨fun hu => ?_, fun hu => ?_⟩
  · rw [hu]
    refine ⟨rfl, _, rfl, ?_, sameBytesOutside_storeByte hm a v, rfl⟩
    exact (Memory.read_write s.mem hm a.toNat v a.toNat).trans (if_pos rfl)
  · rw [hu]
    exact ⟨⟨_, _, rfl, rfl⟩, _, rfl, sameBytesOutside_storeByte (s := s.takeFreeByte) hm a _, rfl⟩

/-! ### Buffers outside the contract -/

/-- Settles O60: each command's plan comes to the buffer once its earlier checks pass (R310), and is refused there. -/
theorem bufferOutsideTheContractIsRefused : Obligations.BufferOutsideTheContractIsRefused := by
  intro s r hr hsrc
  obtain rfl : r = s.platform.refusal := hr
  refine ⟨fun i hi hu => exec_of_refuse (plan_refused_source hi hsrc hu),
    fun hn h0 htree hu => exec_of_refuse (decodePlan_refused_source hsrc hn h0 htree hu),
    fun hu hcodes hcap hdst hov hud => ?_, fun out hn hout hcap hdst hov hud => ?_⟩
  · rw [← length_payload] at hcap hdst hov hud
    exact exec_of_refuse (encodePlan_refused_destination hsrc hu hcodes (checkDestination_refused hcap hdst hov hud))
  · exact exec_of_refuse (decodePlan_refused_destination hsrc hn hout (checkDestination_refused hcap hdst hov hud))

end Sys2Proof.Machine
end

section
/-! Command words (R100 to R103): the decoder reads a word by its number, so a legal word is one of 1 to 8, and the word
of a command is the only one with its opcode's number. -/

namespace Sys2Proof

/-- Settles O1: the decoder accepts a word for a command when its number is the command's opcode (R102). -/
theorem commandWordsAreDecoded : Obligations.CommandWordsAreDecoded :=
  ⟨decode_eq_ok.2 rfl, decode_eq_ok.2 rfl, decode_eq_ok.2 rfl, decode_eq_ok.2 rfl, decode_eq_ok.2 rfl,
    decode_eq_ok.2 rfl, decode_eq_ok.2 rfl, decode_eq_ok.2 rfl⟩

/-- The legal words of R103, field by field and by number: with RESERVED_MBZ = 0 the word is its opcode. -/
theorem legal_fields_iff (w : Word) :
    (wordReserved w = 0 ∧ 1 ≤ (wordOpcode w).toNat ∧ (wordOpcode w).toNat ≤ 8) ↔ 1 ≤ w.toNat ∧ w.toNat ≤ 8 := by
  rw [wordReserved_eq_zero, toNat_wordOpcode]
  omega

/-- A command is matched by its own word alone (R103). -/
theorem decode_eq_ok_iff_eq_encode {w : Word} {i : Instr} : decode w = .ok i ↔ w = encode i := by
  rw [decode_eq_ok, ← toNat_encode, BitVec.toNat_inj]

/-- Settles O2: the accepted words and the legal words are the same numbers, and equal numbers are equal words. -/
theorem decoderAcceptsExactlyLegalWords : Obligations.DecoderAcceptsExactlyLegalWords :=
  fun w => ⟨exists_decode_eq_ok.trans (legal_fields_iff w).symm, fun _ _ => decode_eq_ok_iff_eq_encode⟩

end Sys2Proof
end

section
/-! WAIT (R106): a read of STATUS that puts itself back in front of the host's program while BUSY = 1. -/

namespace Sys2Proof.Machine

theorem hostWait_of_idle {s : State} (hb : s.busy = false) : s.hostWait = s := by
  simp [State.hostWait, hb]

/-- A WAIT that reads BUSY = 1 changes the host's program and the count of draws only. -/
theorem hostWait_of_busy {s : State} (hb : s.busy = true) :
    s.hostWait = { s with host := .wait :: s.host, draws := (s.countDraw .status).draws } := by
  rw [State.hostWait, if_pos hb, State.countDraw_eq]

/-- No register shows the host's program or the count of draws. -/
theorem regValue_withHost (s : State) (ops : List HostOp) (k : Nat) (r : Reg) :
    State.regValue { s with host := ops, draws := k } r = s.regValue r := by
  cases r <;> rfl

/-- Settles O20: by what BUSY reads. -/
theorem waitRepeatsWhileBusy : Obligations.WaitRepeatsWhileBusy := by
  intro s
  refine ⟨fun hb => ?_, fun hb => ⟨s.hostWait, rfl, ?_, fun r => ?_⟩⟩
  · exact congrArg Host.Outcome.next (hostWait_of_idle hb)
  · rw [hostWait_of_busy hb]
  · rw [hostWait_of_busy hb]
    exact regValue_withHost s _ _ r

end Sys2Proof.Machine
end

section
/-! The life of a command (R130 to R139): which register accesses are refused, issue and overrun, which move a step is,
and that the engine's move completes the latched command. -/

namespace Sys2Proof.Machine

/-! ### The register port -/

/-- A register access is refused where the platform does not carry it to the block (R130, U1). -/
theorem hostOp_register_refused {s : State} {width : AccessWidth} {addr : Nat} (v : Word) :
    ((∃ r, s.hostOp (.regRead width addr) = .refused r) ↔ ∃ r, s.platform.register width addr = .error r) ∧
      ((∃ r, s.hostOp (.regWrite width addr v) = .refused r) ↔ ∃ r, s.platform.register width addr = .error r) := by
  cases h : s.platform.register width addr <;> simp [State.hostOp, h]

/-- Settles O21: the register port decides both accesses alike, and refuses the ill-formed ones. -/
theorem registerAccessRefusedIffIllFormed : Obligations.RegisterAccessRefusedIffIllFormed := by
  intro s width addr v
  obtain ⟨hread, hwrite⟩ := hostOp_register_refused (s := s) (width := width) (addr := addr) v
  exact ⟨hread.trans register_error_iff, hwrite.trans register_error_iff⟩

/-! ### Issue and overrun -/

theorem writeCommand_of_idle {s : State} (hb : s.busy = false) (w : Word) : s.writeCommand w = s.issue w :=
  if_neg (by simp [hb])

theorem writeCommand_of_busy {s : State} (hb : s.busy = true) (w : Word) : s.writeCommand w = s.dropCommand :=
  if_pos hb

/-- A host write to CMD is `State.writeCommand` (R132, R133). -/
theorem hostOp_writeCommand (s : State) (w : Word) :
    s.hostOp (.regWrite .word (s.platform.regBase + 0x004) w) = .next (s.writeCommand w) :=
  hostOp_regWrite s .cmd w

/-- Settles O12: the write issues its word, and BITCNT is latched as one 64-bit number (R31). -/
theorem issueLatchesTheArguments : Obligations.IssueLatchesTheArguments := by
  intro s w hb
  refine ⟨s.issue w, ?_, rfl, rfl, rfl, rfl, rfl, rfl, toNat_pair s.bitcntHi s.bitcntLo, rfl, rfl, rfl, rfl, rfl⟩
  rw [hostOp_writeCommand, writeCommand_of_idle hb]

/-- Settles O13: the write is dropped, whatever its word. -/
theorem commandWriteWhileBusyIsDropped : Obligations.CommandWriteWhileBusyIsDropped := by
  intro s w hb
  rw [hostOp_writeCommand, writeCommand_of_busy hb]
  rfl

/-! ### The engine's move -/

theorem engineMove_of_legal {s : State} {i : Instr} (hb : s.busy = true) (hi : decode s.latch.cmd = .ok i) :
    s.engineMove = exec i s := by
  rw [State.engineMove, if_pos hb, hi]

theorem engineMove_of_illegal {s : State} {e : IllegalWord} (hb : s.busy = true)
    (he : decode s.latch.cmd = .error e) : s.engineMove = .next (s.raise (.illegalCommand s.latch.cmd)) := by
  rw [State.engineMove, if_pos hb, he]

/-- Settles O7: completion sets DONE and leaves CTRL.IE as the host wrote it. -/
theorem engineStepEndsInCompletion : Obligations.EngineStepEndsInCompletion := by
  intro s t hb h
  obtain ⟨hbusy, hdone, hside⟩ := engineMove_completes hb h
  obtain ⟨-, -, hie, -⟩ := hside
  exact ⟨hbusy, hdone, by rw [State.irq, hdone, hie, Bool.true_and]⟩

/-- Settles O8: a plan that is not refused is carried out or raises an error, and either completes the command. -/
theorem everyCommandCompletes : Obligations.EveryCommandCompletes := by
  intro i s hc hd
  rcases h : commandPlan i s with (e | r) | d
  · exact ⟨_, exec_of_raise h⟩
  · exact absurd h (plan_not_refused hc hd)
  · exact ⟨_, exec_of_plan h⟩

/-- Inside the contract of R72 and R83 the engine's move completes the latched word, legal or not (R135, R303). -/
theorem exists_completion {s : State} (hc : s.platform.coherent = true) (hd : s.platform.devices = [])
    (hb : s.busy = true) : ∃ t, s.engineMove = .next t ∧ t.busy = false ∧ t.done = true := by
  have goesOn : ∃ t, s.engineMove = .next t := by
    cases h : decode s.latch.cmd with
    | ok i => rw [engineMove_of_legal hb h]; exact everyCommandCompletes i s hc hd
    | error e => exact ⟨_, engineMove_of_illegal hb h⟩
  obtain ⟨t, ht⟩ := goesOn
  obtain ⟨hbusy, hdone, -⟩ := engineMove_completes hb ht
  exact ⟨t, ht, hbusy, hdone⟩

/-! ### The step -/

/-- With no turn order the engine moves while BUSY = 1 (R136). -/
theorem step_of_no_turns {s : State} (hb : s.busy = true) (ht : s.turns = []) : step s = s.engineMove := by
  rw [step, ht]
  exact if_pos hb

theorem step_of_engine_turn {s : State} {ts : List Agent} (ht : s.turns = .engine :: ts) :
    step s = State.engineMove { s with turns := ts } := by
  rw [step, ht]

/-- A host with no move left only uses up its turn. -/
theorem step_of_idle_host_turn {s : State} {ts : List Agent} (hh : s.host = []) (ht : s.turns = .host :: ts) :
    step s = .next { s with turns := ts } := by
  rw [step, ht]
  simp only [State.hostMove, hh]

/-- The word fetched is issued, and the next step is the engine's move on it, with or without a turn order. -/
theorem step_withFetchWord (s : State) (nbits w : Nat) :
    step (s.withFetchWord nbits w) = (s.issue (BitVec.ofNat 32 (w % 2 ^ nbits))).engineMove := by
  unfold State.withFetchWord
  split
  · next ht => exact step_of_no_turns rfl ht
  · exact step_of_engine_turn rfl

/-- Settles O5: BUSY = 1 in each clause, by the step's equation for the turn order given. -/
theorem stepRunsTheLatchedCommand : Obligations.StepRunsTheLatchedCommand := by
  refine ⟨fun s i hb hi ht => ?_, fun s i ts hb hi ht => ?_, fun s => step_of_no_turns, fun s i => ?_⟩
  · rw [step_of_no_turns hb ht, engineMove_of_legal hb hi]
  · rw [step_of_engine_turn ht]
    exact engineMove_of_legal hb hi
  · have hword : BitVec.ofNat 32 ((encode i).toNat % 2 ^ 32) = encode i := by
      rw [Nat.mod_eq_of_lt (encode i).isLt, BitVec.ofNat_toNat, BitVec.setWidth_eq]
    rw [step_withFetchWord, hword]
    exact engineMove_of_legal rfl (decode_eq_ok_iff_eq_encode.2 rfl)

/-! ### A fair run -/

/-- Settles O9, by induction on the idle host's turns: each is used up, and then the engine completes the command. -/
theorem fairRunCompletesTheCommand : Obligations.FairRunCompletesTheCommand := by
  intro n
  induction n with
  | zero =>
    intro s hc hd hb _ ht
    obtain ⟨t, hmove, hdone⟩ := exists_completion hc hd hb
    exact ⟨t, run_of_next 0 ((step_of_no_turns hb ht).trans hmove), hdone⟩
  | succ n ih =>
    intro s hc hd hb hh ht
    obtain ⟨t, hrun, hdone⟩ := ih { s with turns := List.replicate n .host } hc hd hb hh rfl
    exact ⟨t, (run_of_next (n + 1) (step_of_idle_host_turn hh ht)).trans hrun, hdone⟩

end Sys2Proof.Machine
end

section
/-! COUNT (R160): the table of a byte sequence holds its counts, its length, and the number of its distinct bytes. -/

namespace Sys2Proof.Machine

/-- NSYM is the number of distinct bytes counted (R35, R160): a counter is nonzero when its byte occurs. -/
theorem FreqTable.toNat_nsym_ofBytes {bytes : List Byte} (h : bytes.length < 2 ^ 32) :
    (FreqTable.ofBytes bytes).nsym.toNat = (allSymbols.filter fun c => decide (c ∈ bytes)).length := by
  have hpresent : ∀ c : Byte, (Table.look (countBytes bytes) c != 0) = decide (c ∈ bytes) := fun c => by
    rw [Bool.eq_iff_iff, bne_iff_ne, decide_eq_true_iff]
    exact look_countBytes_ne_zero h c
  rw [(FreqTable.ofBytes_consistent h).toNat_nsym, presentSymbols_eq, FreqTable.ofBytes]
  simp only [hpresent]

/-- TOTAL is SRC_LEN (R160): the source buffer has that many bytes. -/
theorem total_ofBytes_sourceData (s : State) : (FreqTable.ofBytes s.sourceData).total = s.latch.srcLen := by
  rw [FreqTable.ofBytes, length_sourceData, State.srcCount, BitVec.ofNat_toNat, BitVec.setWidth_eq]

/-- Settles O31: COUNT leaves the table of the source's bytes, which are fewer than 2^32, so that no count wraps. -/
theorem countReplacesTheTable : Obligations.CountReplacesTheTable := by
  intro s hrange husable
  have hexec := exec_count_ok hrange husable
  have hlen : s.sourceData.length < 2 ^ 32 := (length_sourceData s).trans_lt (srcCount_lt s)
  exact ⟨_, hexec, succeededWith_succeed _ (by decide) (by decide), toNat_look_countBytes hlen,
    total_ofBytes_sourceData s, FreqTable.toNat_nsym_ofBytes hlen, rfl, rfl, rfl, exec_sameHostSide hexec⟩

end Sys2Proof.Machine
end

section
/-! The tree builder (R180 to R185): BUILD replaces the tree, its queue is held in the key order, and the table that
SETUP builds from does not see the order of the sample. -/

namespace Sys2Proof.Machine

/-- TREE_PRESENT after a build (R27, R37): NNODES is 0 only when every entry of the table is 0. -/
theorem present_buildTree_iff (F : Table Word) : (buildTree F).present = true ↔ ∃ c : Byte, Table.look F c ≠ 0 := by
  rw [CodeTree.present, bne_iff_ne, Ne, nnodes_buildTree_eq_zero, List.eq_nil_iff_forall_not_mem, not_forall]
  simp only [mem_presentSymbols, not_not]

/-- Settles O32: BUILD's plan has no check, and build(FREQ) has a node exactly when a symbol is present. -/
theorem buildReplacesTheTree : Obligations.BuildReplacesTheTree := fun s =>
  ⟨_, exec_build_ok s, succeededWith_succeed _ (by decide) (by decide), rfl, rfl, present_buildTree_iff s.table.freq,
    CodeBook.present_empty, rfl, rfl, exec_sameHostSide (exec_build_ok s)⟩

/-- The FrequencyTable of a sample holds its counts and its length (R160), which do not see the sample's order. -/
theorem FreqTable.ofBytes_perm {xs ys : List Byte} (h : xs.Perm ys) : FreqTable.ofBytes xs = FreqTable.ofBytes ys := by
  have hcount : countBytes xs = countBytes ys :=
    Table.ext_look fun c => by rw [look_countBytes, look_countBytes, h.count_eq]
  rw [FreqTable.ofBytes, FreqTable.ofBytes, hcount, h.length_eq]

/-- SETUP that succeeds leaves the table of its source, the tree of that table and the codebook of that tree (R280). -/
theorem structures_of_setup {s t : State} (h : exec .setup s = .next t) (herr : t.err = 0) :
    t.table = FreqTable.ofBytes s.sourceData ∧ t.tree = buildTree t.table.freq ∧ t.book = generateBook t.tree := by
  obtain ⟨d, hd, rfl⟩ := exec_no_err h herr
  obtain ⟨-, -, rfl⟩ := plan_setup_ok.1 hd
  exact ⟨rfl, rfl, rfl⟩

/-- Settles O58: the two samples have one table, and the tree and the codebook are functions of it. -/
theorem setupIgnoresTheOrderOfTheSample : Obligations.SetupIgnoresTheOrderOfTheSample := by
  intro s u t v hperm hs hu ht hv
  obtain ⟨htable, htree, hbook⟩ := structures_of_setup hs ht
  obtain ⟨vtable, vtree, vbook⟩ := structures_of_setup hu hv
  have table : t.table = v.table := by rw [htable, vtable, FreqTable.ofBytes_perm hperm]
  have tree : t.tree = v.tree := by rw [htree, vtree, table]
  exact ⟨table, tree, by rw [hbook, vbook, tree]⟩

/-- Settles O59: `QueueEntry.before` is R181's order on keys, which the leaves' queue meets and insertion keeps; the
third clause is the loop's own equation. -/
theorem queueYieldsLeastWeightThenLeastIndex : Obligations.QueueYieldsLeastWeightThenLeastIndex := by
  simp only [Obligations.QueueYieldsLeastWeightThenLeastIndex, ← QueueEntry.before_iff]
  exact ⟨leafQueue_spec, fun e q hq hne => ⟨queueInsert_perm e q, queueInsert_sorted hq hne⟩, fun _ _ _ _ _ => rfl⟩

end Sys2Proof.Machine
end

section
/-! The code generator (R200 to R204): what the codebook of a built tree holds, and what GENERATE leaves. -/

namespace Sys2Proof.Machine

variable (F : Table Word)

/-- CB_PRESENT after GENERATE on a built tree (R27, R37): both say that some symbol is present. -/
theorem present_generateBook_buildTree_iff :
    (generateBook (buildTree F)).present = true ↔ (buildTree F).nnodes ≠ 0 := by
  rw [CodeBook.present_iff, ← bne_iff_ne, ← CodeTree.present, present_buildTree_iff]
  simp only [generateBook_len_ne_zero]

/-- Settles O33: GENERATE's plan has no check, and each pair of the tree's codes is what the codebook's lookup
returns. -/
theorem generateFillsTheCodebook : Obligations.GenerateFillsTheCodebook := by
  intro s
  have hexec := exec_generate_ok s
  refine ⟨_, hexec, succeededWith_succeed _ (by decide) (by decide), rfl, fun F hF => ?_, rfl, rfl, rfl,
    exec_sameHostSide hexec⟩
  rw [State.succeed_book, hF]
  exact ⟨fun c hc => (generateBook_code hc).symm, fun c => generateBook_absent, present_generateBook_buildTree_iff F⟩

/-- A present symbol's code in the codebook is the one the tree's walk pairs it with (R200, R204). -/
theorem generateBook_code_mem_codes {c : Byte} (hc : Table.look F c ≠ 0) :
    (c, (generateBook (buildTree F)).code c) ∈ (buildTree F).codes := by
  obtain ⟨p, hp⟩ := exists_code hc
  rwa [(generateBook_code hp).2]

/-- No present symbol's code begins another's (R203). -/
theorem generateBook_code_not_prefix {c d : Byte} (hc : Table.look F c ≠ 0) (hd : Table.look F d ≠ 0) (hne : c ≠ d) :
    ¬ (generateBook (buildTree F)).code c <+: (generateBook (buildTree F)).code d :=
  (@List.Pairwise.forall _ _ _ ⟨fun _ _ h => h.symm⟩ (codes_prefixFree F) _ (generateBook_code_mem_codes F hc)
    _ (generateBook_code_mem_codes F hd) fun h => hne (congrArg Prod.fst h)).1

/-- The Kraft sum over the present symbols is the one over the codes: both list the same code lengths (R203). -/
theorem sum_kraft_presentSymbols :
    ((presentSymbols F).map fun c => 2 ^ (255 - ((generateBook (buildTree F)).code c).length)).sum =
      ((buildTree F).codes.map fun c => 2 ^ (255 - c.2.length)).sum := by
  rw [← ((codes_symbols_perm F).map _).sum_eq, List.map_map]
  refine congrArg List.sum (List.map_congr_left fun c hc => ?_)
  rw [Function.comp_apply, (generateBook_code hc).2]

/-- Settles O54: the codebook gives back the codes of the tree's walk, whose lengths, independence and Kraft sum are known
from the tree. -/
theorem codesArePrefixFreeAndComplete : Obligations.CodesArePrefixFreeAndComplete := fun F =>
  ⟨fun _ => generateBook_len_ne_zero, fun _ _ => generateBook_code_not_prefix F,
    fun c hc => codes_length F (c := (c, _)) (generateBook_code_mem_codes F hc),
    (sum_kraft_presentSymbols F).trans (codes_kraft F)⟩

end Sys2Proof.Machine
end

section
/-! The bit-stream encoder (R220 to R231): ENCODE and BITLEN are one pass 1, which the first follows by the checks of its
destination and the packer, the second by the length of the bit string. -/

namespace Sys2Proof.Machine

/-! ### Pass 1 -/

/-- Pass 1 of ENCODE with the source check before it (R220). -/
def State.passOne (s : State) : Except Stop (List Bool) := do
  let bytes ← s.sourceBytes
  encodeBytes s.book 0 bytes

/-- BITLEN is pass 1 and the length of what it answers (R230, R231). -/
theorem plan_bitlen_eq (s : State) :
    commandPlan .bitlen s = s.passOne >>= fun bits => .ok ⟨s, bits.length, 0⟩ := by
  simp only [commandPlan, State.passOne, sumLengths_eq, pure_eq_ok, bind_assoc, ok_bind]

/-- ENCODE is pass 1, the checks of the destination, and the packer (R220, R222). -/
theorem plan_encode_eq (s : State) :
    commandPlan .encode s = s.passOne >>= fun bits => do
      s.checkDestination s.src s.srcCount (bytesFor bits.length)
      return ⟨{ s with mem := s.mem.writeBytes s.dst (packBits bits) }, bits.length, (packBits bits).length⟩ := by
  simp only [commandPlan, State.encodePlan, State.passOne, pure_eq_ok, bind_assoc, ok_bind]

/-- Pass 1 answers the payload alone (R221). -/
theorem eq_payload_of_passOne {s : State} {bits : List Bool} (h : s.passOne = .ok bits) : bits = s.payload := by
  obtain ⟨bytes, hsrc, henc⟩ := bind_eq_ok.1 h
  obtain ⟨-, -, rfl⟩ := sourceBytes_eq_ok.1 hsrc
  exact (encodeBytes_eq_ok.1 henc).2

/-- Pass 1 raises RangeError(1) or UnknownSymbol, and nothing else (R220, R301). -/
theorem passOne_raised {s : State} {e : CmdError} (h : s.passOne = .error (.raised e)) :
    e = .range .source ∨ ∃ k c, e = .unknownSymbol k c := by
  rcases bind_eq_error.1 h with hsrc | ⟨bytes, -, henc⟩
  · exact .inl (sourceBytes_raised.1 hsrc).2
  · obtain ⟨pre, c, -, -, -, -, he⟩ := encodeBytes_eq_error.1 henc
    exact .inr ⟨_, c, Stop.raised.inj he⟩

/-- Pass 1 never raises a RangeError of a detail other than 1, the destination's (R304). -/
theorem passOne_raised_code {s : State} {e : CmdError} (h : s.passOne = .error (.raised e)) :
    ¬ (e.code = 5 ∧ e.info ≠ 1) := by
  rcases passOne_raised h with rfl | ⟨k, c, rfl⟩
  · exact fun ⟨_, hinfo⟩ => hinfo rfl
  · exact fun ⟨hcode, _⟩ => absurd hcode (by simp [CmdError.code])

/-- The checks of the destination raise RangeError with a detail other than 1 (R304, R310). -/
theorem checkDestination_raised_code {s : State} {a n nb : Nat} {e : CmdError}
    (h : s.checkDestination a n nb = .error (.raised e)) : e.code = 5 ∧ e.info ≠ 1 := by
  rcases checkDestination_raised.1 h with ⟨-, rfl⟩ | ⟨-, -, rfl⟩ | ⟨-, -, -, rfl⟩ <;> decide

/-! ### BITLEN -/

/-- The sum of the code lengths of a source buffer fits RES_BITS (R223). -/
theorem succeededWith_bitLength (s : State) :
    (s.succeed (s.book.bitLength s.sourceData) 0).SucceededWith (s.book.bitLength s.sourceData) 0 :=
  succeededWith_succeed s (length_payload s ▸ (length_payload_lt s).trans (by decide)) (by decide)

/-- When pass 1 succeeds, BITLEN reports the length of the payload (R230, R231). -/
theorem exec_bitlen_of_passOne {s : State} {bits : List Bool} (h : s.passOne = .ok bits) :
    exec .bitlen s = .next (s.succeed bits.length 0) :=
  exec_of_plan (by rw [plan_bitlen_eq, h, ok_bind])

/-- When pass 1 raises an error, BITLEN raises it too (R230, R231). -/
theorem exec_bitlen_of_raised {s : State} {e : CmdError} (h : s.passOne = .error (.raised e)) :
    exec .bitlen s = .next (s.raise e) :=
  exec_of_raise (by rw [plan_bitlen_eq, h, error_bind])

/-- Settles O36: BITLEN's plan writes nothing, and its sum fits RES_BITS. -/
theorem bitlenSumsTheCodeLengths : Obligations.BitlenSumsTheCodeLengths := by
  intro s hrange husable hcodes
  have hexec := exec_bitlen_ok hrange husable hcodes
  exact ⟨_, hexec, succeededWith_bitLength s, ⟨rfl, rfl, rfl⟩, rfl, exec_sameHostSide hexec⟩

/-! ### ENCODE -/

/-- Settles O35: a payload of at most L.DST_CAP bytes fits RES_BYTES, and what the packer wrote reads back bit by bit,
the padding as 0. -/
theorem encodePacksTheCodes : Obligations.EncodePacksTheCodes := by
  intro s hm hrange husable hcodes
  rw [payload_eq, ← length_payload]
  intro hcap hdst hapart hdstUsable
  have hexec := exec_encode_ok hrange husable hcodes hcap hdst hapart hdstUsable
  have hfits := (bytesFor_bounds s.payload.length).1
  have hbit : ∀ k < 8 * bytesFor s.payload.length,
      Memory.payloadBit (s.mem.writeBytes s.dst (packBits s.payload)) s.dst k = s.payload.getD k false :=
    Memory.payloadBit_writeBytes hm s.dst s.payload
  refine ⟨_, hexec, succeededWith_succeed _ ((length_payload_lt s).trans (by decide)) (hcap.trans_lt s.latch.dstCap.isLt),
    fun k hk => ?payload, fun k hk hk' => ?padding, fun x hx => ?frame, ⟨rfl, rfl, rfl⟩, exec_sameHostSide hexec⟩
  case payload =>
    rw [State.succeed_mem, hbit k (hk.trans_le hfits), List.getD_eq_getElem _ _ hk, List.getElem?_eq_getElem hk]
  case padding => rw [State.succeed_mem, hbit k hk', List.getD_eq_default _ _ hk]
  case frame => exact Memory.read_writeBytes_outside hm s.dst _ x (by rwa [length_packBits])

/-- Settles O56: by how pass 1 ends. Only when it succeeds can the destination's checks fail, and they alone raise a
RangeError of a detail other than 1. -/
theorem bitlenAgreesWithEncode : Obligations.BitlenAgreesWithEncode := by
  intro s t h
  rcases exec_next h with ⟨d, hd, rfl⟩ | ⟨e, he, rfl⟩
  · rw [plan_encode_eq] at hd
    obtain ⟨bits, hpass, hd⟩ := bind_eq_ok.1 hd
    obtain ⟨-, -, hd⟩ := bind_eq_ok.1 hd
    obtain rfl := Except.ok.inj hd
    exact ⟨fun _ => ⟨_, exec_bitlen_of_passOne hpass, rfl, rfl⟩, fun herr => absurd rfl herr,
      fun herr => absurd herr (show (0 : BitVec 4) ≠ 5 by decide)⟩
  · rw [plan_encode_eq] at he
    refine ⟨fun herr => absurd herr e.code_ne_zero, ?_⟩
    rcases bind_eq_error.1 he with hpass | ⟨bits, hpass, he⟩
    · exact ⟨fun _ _ => ⟨_, exec_bitlen_of_raised hpass, rfl, rfl, rfl⟩,
        fun herr hinfo => absurd ⟨herr, hinfo⟩ (passOne_raised_code hpass)⟩
    · have hdest : s.checkDestination s.src s.srcCount (bytesFor bits.length) = .error (.raised e) := by
        simpa [bind_eq_error] using he
      obtain ⟨hcode, hinfo⟩ := checkDestination_raised_code hdest
      obtain rfl := eq_payload_of_passOne hpass
      refine ⟨fun _ hor => (hor.elim (· hcode) hinfo).elim, fun _ _ => ⟨_, exec_bitlen_of_passOne hpass, rfl, ?_⟩⟩
      rw [length_payload]
      exact (succeededWith_bitLength s).1

/-! ### The sample -/

/-- The bit length of a sample is the weighted sum over the symbols of the table counted from it (R231). -/
theorem bitLength_eq_weighted_sum (b : CodeBook) {bytes : List Byte} (h : bytes.length < 2 ^ 32) :
    b.bitLength bytes = (allSymbols.map fun c =>
      (Table.look (FreqTable.ofBytes bytes).freq c).toNat * (Table.look b.len c).toNat).sum := by
  have hcount : ∀ c, (Table.look (FreqTable.ofBytes bytes).freq c).toNat = bytes.count c := toNat_look_countBytes h
  simp only [hcount]
  exact sum_map_eq_sum_count _ allSymbols allSymbols_nodup bytes fun c _ => mem_allSymbols c

/-- After SETUP every byte of the sample has a code: it was counted, and counted symbols are those with codes (R203). -/
theorem len_ne_zero_of_mem_sample {bytes : List Byte} (h : bytes.length < 2 ^ 32) {c : Byte} (hc : c ∈ bytes) :
    Table.look (generateBook (buildTree (FreqTable.ofBytes bytes).freq)).len c ≠ 0 :=
  generateBook_len_ne_zero.2 ((look_countBytes_ne_zero h c).2 hc)

/-- Settles O57: SETUP keeps the source and leaves every byte of it a code, so that BITLEN sums their lengths, here taken
symbol by symbol. -/
theorem sampleBitLengthIsTheWeightedSum : Obligations.SampleBitLengthIsTheWeightedSum := by
  intro s t h herr
  obtain ⟨d, hd, rfl⟩ := exec_no_err h herr
  obtain ⟨hrange, husable, rfl⟩ := plan_setup_ok.1 hd
  have hlen : s.sourceData.length < 2 ^ 32 := (length_sourceData s).trans_lt (srcCount_lt s)
  refine ⟨_, exec_bitlen_ok hrange husable fun c => len_ne_zero_of_mem_sample hlen, rfl,
    (succeededWith_bitLength _).1.trans (bitLength_eq_weighted_sum _ hlen)⟩

end Sys2Proof.Machine
end

section
/-! The bit-stream decoder (R250 to R254): DECODE answers what `State.decodeStream` answers. That is fixed here for every
kind of tree, and for the payload that ENCODE packs. -/

namespace Sys2Proof.Machine

/-! ### How DECODE ends -/

/-- DECODE that raises nothing writes the decoded bytes and no other byte (R250, R253). -/
theorem exec_decode_writes {s : State} {out : List Byte} {n : Nat} (hm : Memory.wf s.mem) (hplan : s.decodePlan = .ok out)
    (hn : out.length = n) :
    ∃ t, exec .decode s = .next t ∧ t.SucceededWith s.bitCount n ∧
      (∀ j < n, out[j]? = some (t.mem.read (s.dst + j))) ∧ s.SameBytesOutside t s.dst n ∧ s.SameStructures t ∧
      s.SameHostSide t := by
  subst hn
  have hexec := exec_decode_ok hplan
  obtain ⟨-, -, -, hcap, -⟩ := decodePlan_eq_ok.1 hplan
  refine ⟨_, hexec, succeededWith_succeed _ s.latch.bitcnt.isLt (hcap.trans_lt s.latch.dstCap.isLt), fun j hj => ?_,
    fun x => Memory.read_writeBytes_outside hm s.dst out x, ⟨rfl, rfl, rfl⟩, exec_sameHostSide hexec⟩
  rw [State.succeed_mem, Memory.read_writeBytes hm, if_pos (by omega), Nat.add_sub_cancel_left,
    List.getD_eq_getElem _ _ hj, List.getElem?_eq_getElem hj]

/-- An error met while the payload is decoded ends DECODE with nothing written (R302, R310). -/
theorem exec_decode_raises {s : State} {e : CmdError} (hrange : inRange s.platform.memSize s.src s.srcCount = true)
    (hbits : s.bitCount ≤ 8 * s.srcCount) (hstream : s.decodeStream = .error (.raised e)) :
    ∃ t, exec .decode s = .next t ∧ t.FailedWith e.code.toNat e.info.toNat e.sym ∧ s.SameStructures t ∧ t.mem = s.mem ∧
      s.SameHostSide t :=
  ⟨_, exec_of_raise (decodePlan_raises_stream hrange hbits hstream), failedWith_raise s e, ⟨rfl, rfl, rfl⟩, rfl,
    sameHostSide_raise s e⟩

/-! ### An empty payload, an absent tree and a single leaf -/

theorem decodeStream_of_no_bits {s : State} (h : s.bitCount = 0) : s.decodeStream = .ok [] := if_pos h

theorem decodeStream_of_absent {s : State} (ht : s.tree.nnodes = 0) (h : s.bitCount ≠ 0) :
    s.decodeStream = .error (.raised .corruptTree) := by
  rw [State.decodeStream, if_neg h, if_pos ht]

/-- A single leaf answers its symbol for each bit (R251). -/
theorem decodeStream_of_single {s : State} {sym : Byte} {w : Word} (hn : s.tree.nnodes = 1)
    (hleaf : Arena.slot s.tree.node 0 = .leaf sym w) (hu : s.platform.usable s.src (bytesFor s.bitCount) = true) :
    s.decodeStream = .ok (List.replicate s.bitCount sym) := by
  by_cases hz : s.bitCount = 0
  · rw [decodeStream_of_no_bits hz, hz, List.replicate_zero]
  · rw [State.decodeStream, if_neg hz, hn, if_neg (by decide), access_of_usable hu, ok_bind, if_pos rfl,
      CodeTree.decodeSingle, hleaf]

/-- Settles O41: by whether the payload has a bit; with none the checks of the destination are of no byte. -/
theorem decodeWithAbsentTree : Obligations.DecodeWithAbsentTree := by
  intro s hrange hbits
  refine ⟨fun ht hN => exec_decode_raises hrange hbits (decodeStream_of_absent ht hN), fun hN => ?_⟩
  have hexec := exec_decode_ok (decodePlan_eq_ok.2 ⟨hrange, hbits, decodeStream_of_no_bits hN, Nat.zero_le _, rfl,
    overlap_empty _ _ _, usable_zero _ _⟩)
  rw [hN] at hexec
  exact ⟨_, hexec, succeededWith_succeed _ (by decide) (by decide), ⟨rfl, rfl, rfl⟩, rfl, exec_sameHostSide hexec⟩

/-- Settles O39: the decoded bytes are N copies of the leaf's symbol. -/
theorem singleLeafDecodeEmitsPerBit : Obligations.SingleLeafDecodeEmitsPerBit := by
  intro s sym w hm hn hleaf hrange hbits hsrc hcap hdst hapart hdstUsable
  have hlen : (List.replicate s.bitCount sym).length = s.bitCount := List.length_replicate
  have hplan : s.decodePlan = .ok (List.replicate s.bitCount sym) := by
    rw [decodePlan_eq_ok, hlen]
    exact ⟨hrange, hbits, decodeStream_of_single hn hleaf hsrc, hcap, hdst, hapart, hdstUsable⟩
  obtain ⟨t, hexec, hdone, hread, hframe⟩ := exec_decode_writes hm hplan hlen
  refine ⟨t, hexec, hdone, fun j hj => ?_, hframe⟩
  have h := hread j hj
  rw [List.getElem?_replicate_of_lt hj] at h
  exact (Option.some.inj h).symm

/-! ### A tree with two leaves or more -/

/-- Settles O38: over such a tree the walk inverts the codes. -/
theorem decodeWritesTheSymbolsOfTheCodewords : Obligations.DecodeWritesTheSymbolsOfTheCodewords := by
  intro s F cs hm ht hF hcs hpayload hrange hbits hsrc hcap hdst hapart hdstUsable
  have hlen : (cs.map Prod.fst).length = cs.length := List.length_map _
  have hstream : s.decodeStream = .ok (cs.map Prod.fst) := by
    rw [decodeStream_tree ht hF hsrc, hpayload]
    exact decodeBits_codewords hF cs (ht ▸ hcs)
  have hplan : s.decodePlan = .ok (cs.map Prod.fst) := by
    rw [decodePlan_eq_ok, hlen]
    exact ⟨hrange, hbits, hstream, hcap, hdst, hapart, hdstUsable⟩
  exact exec_decode_writes hm hplan hlen

/-- Settles O40: the tree is full, so the bits are whole codewords and perhaps a proper part of one, and the walk emits
the former and stops at the latter. -/
theorem payloadIsCodewordsOrTruncated : Obligations.PayloadIsCodewordsOrTruncated := by
  intro s F ht hF hrange hbits hsrc
  have hstream := decodeStream_tree ht hF hsrc
  have hlen := length_payloadBits s.mem s.src s.bitCount
  rw [ht]
  obtain ⟨-, -, l, r, w, -, -, -, hcodes⟩ := codes_buildTree_many hF
  obtain ⟨cs, hcs, hsplit⟩ := exists_codewords (l := l) (r := r) (w := w) _ (s.mem.payloadBits s.src s.bitCount) le_rfl
  rw [← hcodes] at hcs hsplit
  rcases hsplit with hwhole | ⟨c, hc, part, hne, hpre, hproper, hcut⟩
  · refine ⟨cs, [], hcs, by rw [hwhole, List.append_nil], .inl ⟨rfl, ?_⟩⟩
    rw [hstream, hwhole, decodeBits_codewords hF cs hcs]
  · refine ⟨cs, part, hcs, hcut, .inr ⟨⟨c, hc, hpre, hproper⟩, ?_⟩⟩
    rw [hcut, decodeBits_truncated hF cs hcs hc hpre hproper hne] at hstream
    have hstart : (cs.flatMap Prod.snd).length < 2 ^ 64 := by
      rw [hcut, List.length_append] at hlen
      exact (Nat.le.intro hlen).trans_lt s.latch.bitcnt.isLt
    have hinfo : (CmdError.truncatedStream (cs.flatMap Prod.snd).length).info.toNat = (cs.flatMap Prod.snd).length :=
      (BitVec.toNat_ofNat _ _).trans (Nat.mod_eq_of_lt hstart)
    have hraise := exec_decode_raises hrange hbits hstream
    rwa [hinfo] at hraise

/-! ### DECODE after ENCODE (R254) -/

/-- SETUP leaves the tree of the sample and its codebook, and memory as it was (R280). -/
theorem exec_setup_leaves {s : State} (hrange : inRange s.platform.memSize s.src s.srcCount = true)
    (husable : s.platform.usable s.src s.srcCount = true) :
    ∃ t, exec .setup s = .next t ∧ t.err = 0 ∧ t.tree = buildTree (FreqTable.ofBytes s.sourceData).freq ∧
      t.book = generateBook t.tree ∧ t.mem = s.mem ∧ t.platform = s.platform :=
  ⟨_, exec_setup_ok hrange husable, rfl, rfl, rfl, rfl, rfl⟩

/-- ENCODE that succeeds leaves a payload that unpacks to the concatenated codes, in a destination inside the contract
(R220, R221). -/
theorem encode_leaves_payload {s u : State} (hm : Memory.wf s.mem) (h : exec .encode s = .next u) (herr : u.err = 0) :
    Memory.wf u.mem ∧ u.resBytes.toNat = bytesFor u.resBits.toNat ∧
      u.mem.payloadBits s.dst u.resBits.toNat = s.payload ∧
      s.platform.usable s.dst (bytesFor u.resBits.toNat) = true ∧ u.tree = s.tree ∧ u.platform = s.platform := by
  obtain ⟨d, hd, hu⟩ := exec_no_err h herr
  obtain ⟨-, -, -, ⟨hcap, -, -, husable⟩, rfl⟩ := plan_encode_ok.1 hd
  obtain ⟨hbits, hbytes, -⟩ : u.SucceededWith s.payload.length (bytesFor s.payload.length) :=
    hu ▸ succeededWith_succeed _ ((length_payload_lt s).trans (by decide)) (hcap.trans_lt s.latch.dstCap.isLt)
  rw [hbits, hbytes, hu]
  exact ⟨Memory.wf_writeBytes hm _ _, rfl, Memory.payloadBits_writeBytes hm s.dst s.payload, husable, rfl, rfl⟩

/-- Over a built tree and its codebook, the payload that ENCODE left decodes to the bytes ENCODE read (R254). -/
theorem decodeStream_after_encode {s u d : State} {F : Table Word} (hm : Memory.wf s.mem) (htree : s.tree = buildTree F)
    (hbook : s.book = generateBook s.tree) (hcounted : ∀ c ∈ s.sourceData, Table.look F c ≠ 0)
    (h : exec .encode s = .next u) (herr : u.err = 0) (hd : d = { u with latch := d.latch })
    (hplace : d.src = s.dst) (hcount : d.bitCount = u.resBits.toNat) : d.decodeStream = .ok s.sourceData := by
  obtain ⟨-, -, hpayload, husable, hutree, huplat⟩ := encode_leaves_payload hm h herr
  have hdmem : d.mem = u.mem := by rw [hd]
  have hdtree : d.tree = u.tree := by rw [hd]
  have hdplat : d.platform = u.platform := by rw [hd]
  have hbits : d.mem.payloadBits d.src d.bitCount = s.sourceData.flatMap (generateBook (buildTree F)).code := by
    rw [hdmem, hplace, hcount, hpayload, ← htree, ← hbook, payload_eq]
  exact decodeStream_of_codes (hdtree.trans (hutree.trans htree)) hcounted hbits (by rwa [hcount, hplace, hdplat, huplat])

theorem getElem?_sourceData (s : State) {j : Nat} (hj : j < s.srcCount) :
    s.sourceData[j]? = some (s.mem.read (s.src + j)) := by
  rw [State.sourceData, Memory.readBytes, List.getElem?_map, List.getElem?_range hj, Option.map_some]

/-- Settles O55: SETUP gives every byte of the source a code (R203), so that ENCODE of the same bytes succeeds, and DECODE
of its payload gives them back. -/
theorem decodeOfEncodeIsTheInput : Obligations.DecodeOfEncodeIsTheInput := by
  intro s hm hrange husable
  have hsample : s.sourceData.length < 2 ^ 32 := (length_sourceData s).trans_lt (srcCount_lt s)
  obtain ⟨t, hsetup, hterr, htree, hbook, hmem, hplat⟩ := exec_setup_leaves hrange husable
  refine ⟨t, hsetup, hterr, fun le hfrom hlen hcap hdst hapart hdstUsable => ?_⟩
  have hcodes : ∀ c ∈ s.sourceData, Table.look t.book.len c ≠ 0 := by
    rw [hbook, htree]
    exact fun c => len_ne_zero_of_mem_sample hsample
  have hsrc : State.src { t with latch := le } = s.src := src_congr hfrom
  have hcount : State.srcCount { t with latch := le } = s.srcCount := srcCount_congr hlen
  have hdata : State.sourceData { t with latch := le } = s.sourceData := by
    rw [State.sourceData, hsrc, hcount, hmem, State.sourceData]
  obtain ⟨u, hencode, huerr⟩ : ∃ u, exec .encode { t with latch := le } = .next u ∧ u.err = 0 := by
    have hlength : (State.payload { t with latch := le }).length = t.book.bitLength s.sourceData := by
      rw [length_payload, hdata]
    rw [← hdata] at hcodes
    rw [← hlength] at hcap hdst hapart hdstUsable
    rw [← hsrc, ← hcount] at hrange husable hapart
    rw [← hplat] at hrange husable hdst hdstUsable
    exact ⟨_, exec_encode_ok hrange husable hcodes hcap hdst hapart hdstUsable, rfl⟩
  obtain ⟨hwf, hbytes, -, -, -, huplat⟩ := encode_leaves_payload (hmem ▸ hm) hencode huerr
  refine ⟨u, hencode, huerr, fun ld hplace hbits hfit hpay hroom hto hclear htoUsable => ?_⟩
  have hstream : State.decodeStream { u with latch := ld } = .ok s.sourceData := by
    have hcounted : ∀ c ∈ s.sourceData, Table.look (FreqTable.ofBytes s.sourceData).freq c ≠ 0 :=
      fun c => (look_countBytes_ne_zero hsample c).2
    rw [← hdata]
    exact decodeStream_after_encode (hmem ▸ hm) htree hbook (fun c hc => hcounted c (hdata ▸ hc)) hencode huerr rfl
      (congrArg BitVec.toNat hplace) (congrArg BitVec.toNat hbits)
  have hplan : State.decodePlan { u with latch := ld } = .ok s.sourceData := by
    rw [hbytes, ← hbits] at hfit hclear
    rw [← hplat, ← huplat] at hpay hto htoUsable
    rw [decodePlan_eq_ok, length_sourceData]
    exact ⟨hpay, (bytesFor_bounds _).1.trans (Nat.mul_le_mul_left 8 hfit), hstream, hroom, hto, hclear, htoUsable⟩
  obtain ⟨v, hdecode, ⟨hvbits, hvbytes, -, -, hverr, -⟩, hread, -⟩ :=
    exec_decode_writes (s := { u with latch := ld }) hwf hplan (length_sourceData s)
  refine ⟨v, hdecode, hverr, hvbytes, (BitVec.eq_of_toNat_eq hvbits).trans hbits, fun j hj => ?_⟩
  have h := hread j hj
  rw [getElem?_sourceData s hj] at h
  exact (Option.some.inj h).symm

end Sys2Proof.Machine
end

section
/-! SETUP and CLEAR (R280, R285): SETUP is COUNT, BUILD and GENERATE in one step, and CLEAR leaves the structures that
reset leaves, so that each register that shows them reads its reset value. -/

namespace Sys2Proof.Machine

/-- Settles O34: of what COUNT and BUILD leave, BUILD and GENERATE replace the tree and the codebook, and each
completion overwrites the results of the one before. -/
theorem setupIsCountBuildGenerate : Obligations.SetupIsCountBuildGenerate := by
  intro s hrange husable
  have hsetup := exec_setup_ok hrange husable
  exact ⟨_, _, _, hsetup, exec_count_ok hrange husable, exec_build_ok _, exec_generate_ok _,
    succeededWith_succeed _ (by decide) (by decide), rfl, exec_sameHostSide hsetup⟩

/-- The registers that show the table, the tree and the codebook (R24). -/
def ShowsStructures (r : Reg) : Prop :=
  r ∈ [Reg.total, .nsym, .nnodes, .root] ∨ (∃ c, r = .freq c) ∨ (∃ c, r = .codeLen c) ∨
    (∃ c j, r = .codeBits c j) ∨ (∃ i, r = .nodeA i) ∨ ∃ i, r = .nodeW i

theorem ShowsStructures.ne_id {r : Reg} (hr : ShowsStructures r) : r ≠ .id := by
  rintro rfl
  simp [ShowsStructures] at hr

/-- The value of such a register is a function of the three structures. -/
theorem regValue_of_sameStructures {s t : State} (h : s.SameStructures t) {r : Reg} (hr : ShowsStructures r) :
    t.regValue r = s.regValue r := by
  obtain ⟨htable, htree, hbook⟩ := h
  rcases hr with hr | ⟨c, rfl⟩ | ⟨c, rfl⟩ | ⟨c, j, rfl⟩ | ⟨i, rfl⟩ | ⟨i, rfl⟩
  · simp only [List.mem_cons, List.not_mem_nil, or_false] at hr
    rcases hr with rfl | rfl | rfl | rfl <;> simp only [State.regValue, htable, htree]
  all_goals simp only [State.regValue, htable, htree, hbook]

/-- With the structures that reset leaves, such a register reads 0 (R24, R47). -/
theorem regValue_of_reset_structures {t : State} (h : State.reset.SameStructures t) {r : Reg} (hr : ShowsStructures r) :
    t.regValue r = 0 := by
  rw [regValue_of_sameStructures h hr, State.reset, regValue_resetOn, if_neg hr.ne_id]

/-- Settles O42: CLEAR's plan has no check and leaves the structures of reset, and BUSY = 0, so that each register that
shows them reads its own value, which is its reset value. -/
theorem clearEmptiesTheEngine : Obligations.ClearEmptiesTheEngine := by
  intro s
  have hexec := exec_clear_ok s
  refine ⟨_, hexec, succeededWith_succeed _ (by decide) (by decide), fun r hr => ?_, rfl, CodeBook.present_empty, rfl,
    exec_sameHostSide hexec⟩
  rw [readReg_of_idle rfl]
  refine regValue_of_reset_structures ?_ hr
  exact ⟨rfl, rfl, rfl⟩

end Sys2Proof.Machine
end

section
/-! Error completions (R300 to R315): an error that a command's plan raises ends the command with the error's record and
nothing else, so each statement says which check fails first. An empty source or payload fails none (R305). -/

namespace Sys2Proof.Machine

/-! ### The error record -/

/-- A plan that raises an error ends the command with the error's record and nothing written (R138, R315). -/
theorem exec_raises {i : Instr} {s : State} {e : CmdError} (h : commandPlan i s = .error (.raised e)) :
    ∃ t, exec i s = .next t ∧ t.FailedWith e.code.toNat e.info.toNat e.sym ∧ s.SameStructures t ∧ t.mem = s.mem ∧
      s.SameHostSide t :=
  ⟨_, exec_of_raise h, failedWith_raise s e, ⟨rfl, rfl, rfl⟩, rfl, sameHostSide_raise s e⟩

/-- Settles O48: a command with ERR ≠ 0 raised an error, whose code is 1 to 5, and `State.raise` writes the record
alone. -/
theorem errorCompletionLeavesTheStateAtIssue : Obligations.ErrorCompletionLeavesTheStateAtIssue := by
  intro i s t h herr
  obtain ⟨e, -, rfl⟩ := exec_err h herr
  exact ⟨e.code_bounds.1, e.code_bounds.2, rfl⟩

/-! ### IllegalCommand (R303) -/

/-- The decoder accepts exactly the legal words (R103). -/
theorem wordLegal_iff {w : Word} : wordLegal w = true ↔ ∃ i, decode w = .ok i := by
  rw [exists_decode_eq_ok, ← legal_fields_iff]
  simp only [wordLegal, wordReserved, wordOpcode, Bool.and_eq_true, beq_iff_eq, decide_eq_true_eq, and_assoc]

theorem decode_of_not_legal {w : Word} (h : wordLegal w = false) : ∃ e, decode w = .error e := by
  cases hw : decode w with
  | ok i => simp [wordLegal_iff.2 ⟨i, hw⟩] at h
  | error e => exact ⟨e, rfl⟩

/-- Settles O6: the decoder rejects the word, and zext_64 keeps its number. -/
theorem illegalWordCompletesWithItsError : Obligations.IllegalWordCompletesWithItsError := by
  intro s hb hw
  obtain ⟨e, he⟩ := decode_of_not_legal hw
  have hinfo : (CmdError.illegalCommand s.latch.cmd).info.toNat = s.latch.cmd.toNat :=
    BitVec.toNat_setWidth_of_le (by decide)
  exact ⟨_, engineMove_of_illegal hb he, hinfo ▸ failedWith_raise s _, ⟨rfl, rfl, rfl⟩, rfl, sameHostSide_raise s _⟩

/-! ### UnknownSymbol (R301) -/

/-- Pass 1 stops at index `k` when byte `k` of the source is the first without a code (R301). -/
theorem plan_raises_unknown_at {s : State} {i : Instr} {k : Nat} {c : Byte} (hi : i = .encode ∨ i = .bitlen)
    (hrange : inRange s.platform.memSize s.src s.srcCount = true)
    (husable : s.platform.usable s.src s.srcCount = true) (hk : s.sourceData[k]? = some c)
    (hc : Table.look s.book.len c = 0)
    (hfirst : ∀ j < k, ∀ d, s.sourceData[j]? = some d → Table.look s.book.len d ≠ 0) :
    commandPlan i s = .error (.raised (.unknownSymbol k c)) := by
  obtain ⟨hlt, hget⟩ := List.getElem?_eq_some_iff.1 hk
  have hsplit : s.sourceData = s.sourceData.take k ++ c :: s.sourceData.drop (k + 1) := by
    rw [← hget, ← List.drop_eq_getElem_cons, List.take_append_drop]
  have hbefore : ∀ b ∈ s.sourceData.take k, Table.look s.book.len b ≠ 0 := fun b hb => by
    obtain ⟨j, hj, rfl⟩ := List.mem_take_iff_getElem.1 hb
    exact hfirst j (by omega) _ (List.getElem?_eq_getElem _)
  have h := plan_raises_unknown hi hrange husable hsplit hbefore hc
  rwa [List.length_take_of_le hlt.le] at h

/-- Settles O37: an index into a source buffer fits ERR_INFO. -/
theorem unknownSymbolAtTheLowestIndex : Obligations.UnknownSymbolAtTheLowestIndex := by
  intro s i k c hi hrange husable hk hc hfirst
  have hlt : k < 2 ^ 64 := by
    have hindex := (List.getElem?_eq_some_iff.1 hk).1
    have hcount := srcCount_lt s
    rw [length_sourceData] at hindex
    omega
  have hinfo : (CmdError.unknownSymbol k c).info.toNat = k := by
    rw [CmdError.info, BitVec.toNat_ofNat, Nat.mod_eq_of_lt hlt]
  have h := exec_raises (plan_raises_unknown_at hi hrange husable hk hc hfirst)
  rwa [hinfo] at h

/-! ### RangeError (R304), in the order of R310 -/

/-- Settles O45: the source is the first thing that each of these commands checks. -/
theorem sourceOutOfRangeIsRangeErrorOne : Obligations.SourceOutOfRangeIsRangeErrorOne :=
  fun _ _ hi hrange => exec_raises (plan_raises_source hi hrange)

/-- The command ends in RangeError (code 5) with its detail in ERR_INFO, and writes no structure and no byte (R304). -/
def EndsInRangeError (i : Instr) (s : State) (detail : Nat) : Prop :=
  ∃ t, exec i s = .next t ∧ t.FailedWith 5 detail 0 ∧ s.SameStructures t ∧ t.mem = s.mem

theorem endsInRangeError_of_plan {i : Instr} {s : State} {d : RangeDetail}
    (h : commandPlan i s = .error (.raised (.range d))) : EndsInRangeError i s d.code := by
  have hinfo : (CmdError.range d).info.toNat = d.code := by cases d <;> rfl
  obtain ⟨t, hexec, hfailed, hsame, hmem, -⟩ := exec_raises h
  exact ⟨t, hexec, hinfo ▸ hfailed, hsame, hmem⟩

/-- A command that raises what the checks of its destination raise reports the first of them to fail: capacity, range,
overlap with the `n` bytes read at `a` (R304, R310). -/
theorem destination_errors_in_order {i : Instr} {s : State} {a n nb : Nat}
    (hplan : ∀ {e}, s.checkDestination a n nb = .error (.raised e) → commandPlan i s = .error (.raised e)) :
    (s.capacity < nb → EndsInRangeError i s 3) ∧
      (nb ≤ s.capacity → inRange s.platform.memSize s.dst nb = false → EndsInRangeError i s 4) ∧
      (nb ≤ s.capacity → inRange s.platform.memSize s.dst nb = true → overlap a n s.dst nb = true →
        EndsInRangeError i s 5) := by
  refine ⟨fun hcap => ?capacity, fun hcap hdst => ?range, fun hcap hdst hov => ?overlap⟩
  case capacity => exact endsInRangeError_of_plan (hplan (checkDestination_raised.2 (.inl ⟨hcap, rfl⟩)))
  case range => exact endsInRangeError_of_plan (hplan (checkDestination_raised.2 (.inr (.inl ⟨hcap, hdst, rfl⟩))))
  case overlap =>
    exact endsInRangeError_of_plan (hplan (checkDestination_raised.2 (.inr (.inr ⟨hcap, hdst, hov, rfl⟩))))

/-- Settles O46: pass 1 has answered the payload, so that the destination's checks decide. -/
theorem encodeDestinationErrorsInOrder : Obligations.EncodeDestinationErrorsInOrder := by
  intro s hrange husable hcodes
  rw [← length_payload]
  exact destination_errors_in_order (encodePlan_raises_destination hrange husable hcodes)

/-- Settles O47: the bit count is checked before the data is decoded, and the destination after it. -/
theorem decodeRangeErrorsInOrder : Obligations.DecodeRangeErrorsInOrder := by
  intro s hrange
  refine ⟨fun hshort => ?_, fun out hbits hout => ?_⟩
  · exact endsInRangeError_of_plan (decodePlan_raises_bitCount hrange hshort)
  · exact destination_errors_in_order (decodePlan_raises_destination hrange hbits hout)

/-! ### Empty input (R305) -/

/-- The table of no bytes is the empty table (R160, R47). -/
theorem FreqTable.ofBytes_nil : FreqTable.ofBytes [] = FreqTable.empty := by
  have hnone : presentSymbols (countBytes []) = [] :=
    List.eq_nil_iff_forall_not_mem.2 fun c => by simp [countBytes]
  rw [FreqTable.ofBytes, hnone]
  rfl

theorem buildTree_empty_table : buildTree FreqTable.empty.freq = CodeTree.absent :=
  buildTree_of_empty (List.eq_nil_iff_forall_not_mem.2 fun c => by simp [FreqTable.empty])

section EmptySource

variable {s : State} (hempty : s.srcCount = 0)
include hempty

theorem sourceData_of_empty : s.sourceData = [] := by
  rw [State.sourceData, hempty]
  rfl

theorem inRange_of_empty : inRange s.platform.memSize s.src s.srcCount = true := inRange_iff.2 (.inl hempty)

theorem usable_of_empty : s.platform.usable s.src s.srcCount = true := by
  rw [hempty]
  exact usable_zero _ _

/-- COUNT and SETUP of an empty source leave what CLEAR leaves. -/
theorem exec_eq_clear_of_empty {i : Instr} (hi : i ∈ [Instr.count, .setup]) : exec i s = exec .clear s := by
  have hrange := inRange_of_empty hempty
  have husable := usable_of_empty hempty
  have hdata := sourceData_of_empty hempty
  simp only [List.mem_cons, List.not_mem_nil, or_false] at hi
  rcases hi with rfl | rfl
  · rw [exec_count_ok hrange husable, hdata, FreqTable.ofBytes_nil, exec_clear_ok]
  · rw [exec_setup_ok hrange husable, hdata, FreqTable.ofBytes_nil, buildTree_empty_table, generateBook_of_absent rfl,
      exec_clear_ok]

/-- ENCODE and BITLEN of an empty source succeed with no bit, and ENCODE writes no byte. -/
theorem exec_eq_succeed_of_empty {i : Instr} (hi : i ∈ [Instr.encode, .bitlen]) : exec i s = .next (s.succeed 0 0) := by
  have hpass : s.passOne = .ok [] := by
    rw [State.passOne, sourceBytes_eq_ok.2 ⟨inRange_of_empty hempty, usable_of_empty hempty, rfl⟩,
      sourceData_of_empty hempty]
    rfl
  simp only [List.mem_cons, List.not_mem_nil, or_false] at hi
  rcases hi with rfl | rfl
  · have hdst : s.checkDestination s.src s.srcCount 0 = .ok () :=
      checkDestination_eq_ok.2 ⟨Nat.zero_le _, rfl, overlap_empty _ _ _, usable_zero _ _⟩
    refine exec_of_plan (d := ⟨s, 0, 0⟩) ?_
    rw [plan_encode_eq, hpass, ok_bind]
    exact congrArg (· >>= _) hdst
  · exact exec_bitlen_of_passOne hpass

end EmptySource

/-- Settles O43: an empty source passes every check, and so does an empty payload whose own range is right. -/
theorem emptyInputIsNotAnError : Obligations.EmptyInputIsNotAnError := by
  intro s
  refine ⟨fun hempty i hi => ?_, fun hempty i hi => ?_, fun hbits hrange => ?_⟩
  · rw [exec_eq_clear_of_empty hempty hi]
    exact ⟨_, exec_clear_ok s, succeededWith_succeed _ (by decide) (by decide), rfl, rfl, Table.look_replicate 0, rfl,
      rfl, CodeBook.present_empty, rfl⟩
  · exact ⟨_, exec_eq_succeed_of_empty hempty hi, succeededWith_succeed s (by decide) (by decide), rfl⟩
  · obtain ⟨t, hexec, hdone, -, hmem, -⟩ := (decodeWithAbsentTree s hrange (hbits ▸ Nat.zero_le _)).2 hbits
    exact ⟨t, hexec, hdone, hmem⟩

end Sys2Proof.Machine
end

section
/-! Reset, idleness and hazards (R325, R340, R341, R352). -/

namespace Sys2Proof.Machine

/-! ### The idle machine -/

/-- Settles O10: the engine moves only while BUSY = 1, and a host with no move left does nothing. -/
theorem idleMachineKeepsEveryElement : Obligations.IdleMachineKeepsEveryElement := by
  intro s hb
  refine ⟨engineMove_idle hb, fun hh ht => ?_⟩
  rw [step, ht, State.hostMove, hh]
  exact if_neg (by rw [hb]; decide)

/-! ### Reset -/

/-- Settles O30: reset empties the structures, and the launch memory lies in data memory by hypothesis. -/
theorem resetStateMeetsTheInvariant : Obligations.ResetStateMeetsTheInvariant := fun _ _ => inv_resetOn

/-- What reset leaves of data memory (R341). -/
theorem hardReset_mem (s : State) :
    s.hardReset.mem = s.mem.writeBytes s.abandonedRange.1 (drawnBytes s.draws s.abandonedRange.2) := rfl

/-- The range that reset leaves unspecified is the write range of the running command (R341). -/
theorem abandonedRange_of_running {s : State} {i : Instr} (hb : s.busy = true) (hi : decode s.latch.cmd = .ok i) :
    s.abandonedRange = s.writeRange i := by
  have hrun : s.running = some i := by rw [State.running, hi]
  simp only [State.abandonedRange, hb, hrun]

theorem abandonedRange_of_idle {s : State} (hb : s.busy = false) : s.abandonedRange = (0, 0) := by
  simp only [State.abandonedRange, hb]

/-- A latched word that names no command has no write range to abandon. -/
theorem abandonedRange_of_illegal {s : State} (h : ∀ i, decode s.latch.cmd ≠ .ok i) : s.abandonedRange = (0, 0) := by
  have hrun : s.running = none := by
    cases hw : decode s.latch.cmd with
    | ok i => exact absurd hw (h i)
    | error e => rw [State.running, hw]
  rw [State.abandonedRange, hrun]
  cases s.busy <;> rfl

/-- With no byte abandoned reset leaves memory as it is (R71). -/
theorem sameBytes_hardReset {s : State} (h : s.abandonedRange = (0, 0)) : s.SameBytes s.hardReset := by
  rw [State.SameBytes, hardReset_mem, h]
  exact fun _ => rfl

/-- Reset rewrites the abandoned range alone (R71, R341). -/
theorem sameBytesOutside_hardReset {s : State} (hm : Memory.wf s.mem) :
    s.SameBytesOutside s.hardReset s.abandonedRange.1 s.abandonedRange.2 := by
  intro x hx
  rw [hardReset_mem]
  exact Memory.read_writeBytes_outside hm _ _ x (by rwa [length_drawnBytes])

/-- Settles O28: what the host sees of the state after reset is what `State.resetOn` gives, with BUSY = 0. -/
theorem hardResetFromEveryState : Obligations.HardResetFromEveryState := fun s =>
  ⟨s.hardReset, rfl, fun r => (readReg_of_idle rfl).trans (regValue_resetOn s.platform s.hardReset.mem r), rfl, rfl, rfl,
    fun hb => sameBytes_hardReset (abandonedRange_of_idle hb)⟩

/-- Settles O29: the write range is abandoned when a command runs, and no byte otherwise. -/
theorem resetUnspecifiesOnlyTheAbandonedRange : Obligations.ResetUnspecifiesOnlyTheAbandonedRange := by
  intro s hm
  refine ⟨s.hardReset, rfl, fun i hb hi => ?_, fun h => sameBytes_hardReset (abandonedRange_of_illegal h),
    Memory.wf_writeBytes hm _ _, rfl, rfl, rfl⟩
  rw [← abandonedRange_of_running hb hi]
  exact sameBytesOutside_hardReset hm

/-! ### A stale tree or codebook -/

/-- BUILD and COUNT leave the codebook empty, and COUNT the tree absent (R160, R180); neither writes memory. -/
theorem emptied_of_build_or_count {s t : State} {i : Instr} (hi : i = .build ∨ i = .count) (h : exec i s = .next t)
    (herr : t.err = 0) :
    t.book = CodeBook.empty ∧ (i = .count → t.tree = CodeTree.absent) ∧ t.mem = s.mem ∧ t.platform = s.platform := by
  obtain ⟨d, hd, rfl⟩ := exec_no_err h herr
  rcases hi with rfl | rfl
  · obtain rfl := Except.ok.inj hd
    exact ⟨rfl, fun h => absurd h (by decide), rfl, rfl⟩
  · obtain ⟨-, -, rfl⟩ := plan_count_ok.1 hd
    exact ⟨rfl, fun _ => rfl, rfl, rfl⟩

/-- With an empty codebook ENCODE and BITLEN of a non-empty source stop at its first byte (R301, R352). -/
theorem exec_raises_of_empty_book {s : State} {i : Instr} (hi : i = .encode ∨ i = .bitlen)
    (hrange : inRange s.platform.memSize s.src s.srcCount = true)
    (husable : s.platform.usable s.src s.srcCount = true) (hbook : s.book = CodeBook.empty) (hn : s.srcCount ≠ 0) :
    ∃ t, exec i s = .next t ∧ t.FailedWith 1 0 (s.mem.read s.src) := by
  have hfirst : s.sourceData[0]? = some (s.mem.read s.src) := getElem?_sourceData s (Nat.pos_of_ne_zero hn)
  have hcode : Table.look s.book.len (s.mem.read s.src) = 0 := by
    rw [hbook]
    exact Table.look_replicate 0 _
  obtain ⟨t, hexec, hfailed, -⟩ := unknownSymbolAtTheLowestIndex s i 0 _ hi hrange husable hfirst hcode
    fun j hj => absurd hj (Nat.not_lt_zero j)
  exact ⟨t, hexec, hfailed⟩

/-- Settles O44: the first byte of the source has no code, and the tree is absent. -/
theorem staleCodebookIsReported : Obligations.StaleCodebookIsReported := by
  intro s t i le hi h herr hrange
  obtain ⟨hbook, htree, hmem, hplat⟩ := emptied_of_build_or_count hi h herr
  rw [← hplat] at hrange
  refine ⟨fun husable hn j hj => ?_, fun hcount hN hbits => ?_⟩
  · rw [← hplat] at husable
    rw [← hmem]
    exact exec_raises_of_empty_book (s := { t with latch := le }) (by simpa using hj) hrange husable hbook
      fun h0 => hn (BitVec.eq_of_toNat_eq h0)
  · have habsent : t.tree.nnodes = 0 := by
      rw [htree hcount]
      rfl
    obtain ⟨u, hexec, hfailed, -⟩ := (decodeWithAbsentTree { t with latch := le } hrange hbits).1 habsent
      fun h0 => hN (BitVec.eq_of_toNat_eq h0)
    exact ⟨u, hexec, hfailed⟩

end Sys2Proof.Machine
end
